-- ==== Sys2Proof/Word.lean ====
section
/-! DEFINITION. The data of the MIX core: signs, bytes, words, two-byte registers, field
specifications, index registers and the sparse word store (10_state.md R30, R40, R41, R42).
Everything computed FROM these types (value, byte order, fields, packing) is in Machine/Codec.lean. -/

namespace Sys2Proof

/-- A sign, a component of its own and never a bit of the magnitude (R10). -/
inductive Sign where
  | plus
  | minus
deriving DecidableEq, Repr, Inhabited

/-- The opposite sign, `neg(s)` of R10. -/
def Sign.neg : Sign → Sign
  | .plus => .minus
  | .minus => .plus

/-- A byte is one digit in base 64: a value 0..63 (R14, R30, decision D3). -/
abbrev Byte := Fin 64

/-- A Word: a sign and five ordered bytes, byte 1 the most significant (R30, R31). -/
structure Word where
  sign : Sign
  b1 : Byte
  b2 : Byte
  b3 : Byte
  b4 : Byte
  b5 : Byte
deriving DecidableEq, Repr, Inhabited

/-- A Register2: a sign and two bytes, the index registers and the jump register (R42, R43). -/
structure Register2 where
  sign : Sign
  c1 : Byte
  c2 : Byte
deriving DecidableEq, Repr, Inhabited

/-- The six index registers rI1..rI6 (R42). -/
inductive IxReg where
  | i1
  | i2
  | i3
  | i4
  | i5
  | i6
deriving DecidableEq, Repr, Inhabited

/-- A field specification (L:R), carried by the byte F = 8·L + R (R40). Any L and R of 0..7 can be
written here: which of them are valid is `Field.valid`. -/
structure Field where
  l : Fin 8
  r : Fin 8
deriving DecidableEq, Repr, Inhabited

/-- The opcode byte C and the field byte F of an instruction word (R100). -/
structure OpCode where
  c : Byte
  f : Byte
deriving DecidableEq, Repr, Inhabited

/-- The word +0 (R34, "Zero-initialise gives +0"). -/
def Word.plusZero : Word := ⟨.plus, 0, 0, 0, 0, 0⟩

/-- The two-byte register value +0. -/
def Register2.plusZero : Register2 := ⟨.plus, 0, 0⟩

/-- W = 64^5, one more than the largest magnitude of a word (R8). -/
abbrev W : Nat := 1073741824

/-- MEM_SIZE, the number of memory words (R8, decision D4). -/
abbrev memSize : Nat := 4000

/-- A store of words by word address: the listed addresses rise strictly, no listed word is +0, and
every unlisted address reads as +0 (the reset contents, R58). Memory and the device buffers are both
held so; the smallest addressable unit is the Word (R81). -/
abbrev Memory := List (Nat × Word)

end Sys2Proof
end

