-- ==== Sys2Proof/Config.lean ====
section
/-! DEFINITION. The configuration of the block: the parameters of 00_scope.md R8 and the per-unit
configuration of 10_state.md R49. It is PLAIN DATA that State carries and no step changes, so a claim
over every state is a claim for every configuration (notes/assumptions/1.md). The default values stand
in Machine/Defaults.lean. -/

namespace Sys2Proof

/-- The comparison indicator's three values (R45). -/
inductive Comparison where
  | less
  | equal
  | greater
deriving DecidableEq, Repr, Inhabited

/-- The kinds of unit (R49). -/
inductive UnitKind where
  | tape
  | disk
  | cardReader
  | cardPunch
  | linePrinter
  | terminal
  | paperTape
deriving DecidableEq, Repr, Inhabited

/-- The configuration a unit holds, fixed for the hardware and unchanged by reset (R49, R381). -/
structure UnitConfig where
  kind : UnitKind
  /-- BLOCK[u], the words one IN or OUT moves. -/
  block : Nat
  canIn : Bool
  canOut : Bool
  /-- CAP[u], the words of the unit's buffer. -/
  cap : Nat
  /-- LAT[u], the unit's latency in cycles. -/
  lat : Nat
deriving DecidableEq, Repr, Inhabited

/-- BUSY_POLICY: what IN, OUT and IOC do on a unit that is not ready (R384, decision D15). -/
inductive BusyPolicy where
  | fatal
  | wait
deriving DecidableEq, Repr, Inhabited

/-- A row of the parameter COST(kind, F): opcode bytes C and F that name a kind (for MOVE, a kind and an F), and
the cycles of every instruction of that kind (R530, notes/assumptions/3.md). -/
structure CostRow where
  c : Byte
  f : Byte
  cost : Nat
deriving DecidableEq, Repr, Inhabited

/-- The opcode bytes that a row of COST names. -/
def CostRow.code (r : CostRow) : OpCode := ⟨r.c, r.f⟩

/-- The floating operations on rA and a memory word (R195). -/
inductive FloatOp where
  | fadd
  | fsub
  | fmul
  | fdiv
deriving DecidableEq, Repr, Inhabited

/-- The floating operations on rA alone (R195). -/
inductive FloatConv where
  | flot
  | fix
deriving DecidableEq, Repr, Inhabited

/-- What a FLOAT_UNIT function answers: `Ok(rA', ovSet)` or `Fault(cause 3)` (R195). -/
inductive FloatResult where
  | ok (rA : Word) (ovSet : Bool)
  | fault
deriving DecidableEq, Repr, Inhabited

/-- What FLOAT_UNIT's fcmp answers: `Ok(ci)` or `Fault(cause 3)` (R195). -/
inductive FloatCompare where
  | ok (ci : Comparison)
  | fault
deriving DecidableEq, Repr, Inhabited

/-- A FLOAT_UNIT that is present (R195): the results it is known to give, as rows of plain data. For
operands with no row the result is a FREE VALUE (`Config.freeFloat` and its fellows), of which nothing
can be proved. A FLOAT_UNIT is a record of total functions on finite sets, so each one is some list of
rows: a claim over every state is a claim for every FLOAT_UNIT (notes/assumptions/2.md). -/
structure FloatUnit where
  arith : List ((FloatOp × Word × Word) × FloatResult)
  conv : List ((FloatConv × Word) × FloatResult)
  compare : List ((Word × Word × Memory) × FloatCompare)
deriving DecidableEq, Repr, Inhabited

/-- FREE VALUE: fadd, fsub, fmul, fdiv on operands the FLOAT_UNIT's rows do not list (R195). -/
opaque Config.freeFloat : FloatOp → Word → Word → FloatResult

/-- FREE VALUE: flot, fix on an operand the FLOAT_UNIT's rows do not list (R195). -/
opaque Config.freeConv : FloatConv → Word → FloatResult

/-- FREE VALUE: fcmp on arguments the FLOAT_UNIT's rows do not list (R195). -/
opaque Config.freeCompare : Word → Word → Memory → FloatCompare

/-- The parameters of the block (R8, R49). -/
structure Config where
  units : Vector UnitConfig 21
  linesPerPage : Nat
  /-- Rows of COST that differ from the defaults of R530. -/
  costs : List CostRow
  ciReset : Comparison
  busyPolicy : BusyPolicy
  iocSetsBusy : Bool
  /-- FLOAT_UNIT; `none` when the unit is absent (R195, decision D33). -/
  floatUnit : Option FloatUnit
  extBinaryOps : Bool
  numSetsOverflow : Bool
  glyph10 : Char
  glyph20 : Char
  glyph21 : Char
deriving DecidableEq, Repr

end Sys2Proof
end

