-- ==== Sys2Proof/Machine/Codec.lean ====
section
/-! DEFINITION. The word codec of 10_state.md section 1: values, byte access, field extraction and
injection, the two-byte registers as words, and the packed 31-bit view of 30_encoding.md R101. -/

namespace Sys2Proof

/-- The byte with value `n` reduced to one base-64 digit. -/
def Byte.ofNat (n : Nat) : Byte := ⟨n % 64, Nat.mod_lt n (by decide)⟩

/-- `mag(w)` = Σ b_i × 64^(5−i) (R11, R31). -/
def Word.mag (w : Word) : Nat :=
  w.b1.val * 16777216 + w.b2.val * 262144 + w.b3.val * 4096 + w.b4.val * 64 + w.b5.val

/-- A sign applied to a magnitude. -/
def Sign.apply : Sign → Nat → Int
  | .plus, n => (n : Int)
  | .minus, n => -(n : Int)

/-- `val(w)`, the integer value of a Word (R31); −0 and +0 both have the value 0 (R32). -/
def Word.val (w : Word) : Int := w.sign.apply w.mag

/-- `word(s, m)`, the Word with sign `s` and magnitude `m` (R11); only the low five bytes of `m` are
kept, and every rule calls it with m ≤ W − 1. -/
def Word.ofMag (s : Sign) (m : Nat) : Word :=
  ⟨s, Byte.ofNat (m / 16777216), Byte.ofNat (m / 262144), Byte.ofNat (m / 4096), Byte.ofNat (m / 64),
    Byte.ofNat m⟩

/-- `sgnof(v, s0)` (R10): the sign of `v`, and `s0` when `v` is 0. -/
def sgnof (v : Int) (s0 : Sign) : Sign :=
  if 0 < v then .plus else if v < 0 then .minus else s0

/-- `toWord(v, s0)` (R11), for |v| ≤ W − 1. -/
def toWord (v : Int) (s0 : Sign) : Word := Word.ofMag (sgnof v s0) v.natAbs

/-- Construct from integer (R34): defined for |v| ≤ W − 1 only, and fromInt(0) is +0. -/
def Word.fromInt? (v : Int) : Option Word :=
  if v.natAbs ≤ W - 1 then some (toWord v .plus) else none

/-- Byte `k` of a Word, 1 ≤ k ≤ 5 (R9, R39); 0 at every other position. -/
def Word.byte (w : Word) (k : Nat) : Byte :=
  match k with
  | 1 => w.b1
  | 2 => w.b2
  | 3 => w.b3
  | 4 => w.b4
  | 5 => w.b5
  | _ => 0

/-- The Word with sign `s` whose byte `k` is `f k`. -/
def Word.ofBytes (s : Sign) (f : Nat → Byte) : Word := ⟨s, f 1, f 2, f 3, f 4, f 5⟩

/-- The per-byte set of R39; positions outside 1..5 change nothing. -/
def Word.setByte (w : Word) (k : Nat) (b : Byte) : Word :=
  Word.ofBytes w.sign fun j => if j = k then b else w.byte j

/-- The field byte F = 8·L + R (R40). -/
def Field.byte (f : Field) : Byte := Byte.ofNat (8 * f.l.val + f.r.val)

/-- L = F div 8 and R = F mod 8 (R40). -/
def Field.ofByte (b : Byte) : Field :=
  ⟨⟨b.val / 8, by omega⟩, ⟨b.val % 8, by omega⟩⟩

/-- A field specification is valid iff L ≤ R ≤ 5 (R35, R40). -/
def Field.valid (f : Field) : Bool := decide (f.l.val ≤ f.r.val) && decide (f.r.val ≤ 5)

/-- The first byte position of a field, max(L, 1) (R35). -/
def Field.first (f : Field) : Nat := max f.l.val 1

/-- `field(w, L, R)` (R35): the bytes max(L,1)..R at the right end in their order, zeros to their left,
and the word's sign when L = 0, else +. -/
def field (w : Word) (f : Field) : Word :=
  Word.ofBytes (if f.l.val = 0 then w.sign else .plus) fun j =>
    if 5 - f.r.val + f.first ≤ j then w.byte (j + f.r.val - 5) else 0

/-- `setfield(w, L, R, src)` (R36): the rightmost bytes of `src` into positions max(L,1)..R of `w`, and
`src`'s sign when L = 0. -/
def setfield (w : Word) (f : Field) (src : Word) : Word :=
  Word.ofBytes (if f.l.val = 0 then src.sign else w.sign) fun k =>
    if f.first ≤ k ∧ k ≤ f.r.val then src.byte (5 - f.r.val + k) else w.byte k

/-- The magnitude of a Register2, weights 64 and 1 (R11). -/
def Register2.mag (r : Register2) : Nat := r.c1.val * 64 + r.c2.val

/-- The value of a Register2 (R11). -/
def Register2.val (r : Register2) : Int := r.sign.apply r.mag

/-- `asWord(r)` = (s, 0, 0, 0, c1, c2) (R37). -/
def Register2.asWord (r : Register2) : Word := ⟨r.sign, 0, 0, 0, r.c1, r.c2⟩

/-- The Register2 with sign `s` and magnitude `m` ≤ 4095: (s, m div 64, m mod 64). -/
def Register2.ofMag (s : Sign) (m : Nat) : Register2 := ⟨s, Byte.ofNat (m / 64), Byte.ofNat m⟩

/-- `toReg2(w)` (R38): (s, b4, b5) when bytes 1..3 are zero; `none` where the writing instruction raises
IndexOverflow. -/
def toReg2 (w : Word) : Option Register2 :=
  if w.b1 = 0 ∧ w.b2 = 0 ∧ w.b3 = 0 then some ⟨w.sign, w.b4, w.b5⟩ else none

/-- `reg2(v, s0)` (R38), for |v| ≤ 4095. -/
def reg2 (v : Int) (s0 : Sign) : Register2 := Register2.ofMag (sgnof v s0) v.natAbs

/-- The packed 31-bit view of a Word (R101): bit 30 is the sign (1 = −), then the five bytes. -/
def Word.pack (w : Word) : Nat :=
  (match w.sign with
   | .plus => 0
   | .minus => 1073741824) + w.mag

/-- The Word with the packed view `n` (R101), for n < 2^31. -/
def Word.unpack (n : Nat) : Word :=
  Word.ofMag (if n / 1073741824 % 2 = 1 then .minus else .plus) (n % 1073741824)

end Sys2Proof
end

