-- ==== Sys2Proof/Machine/Defaults.lean ====
section
/-! DEFINITION. The values the spec gives the parameters of R8: the cost defaults of 70_reset_and_hazards.md
R530, the roster of 47_io.md R381, and the test defaults of the OPEN parameters
(notes/assumptions/1.md, 3.md). -/

namespace Sys2Proof.Machine

/-- The default of COST(kind, F), by the opcode bytes C and F (R530). -/
def defaultCost (c f : Nat) : Nat :=
  match c with
  | 0 => 1
  | 1 | 2 => if f = 6 then 4 else 2
  | 3 => if f = 6 then 9 else 10
  | 4 => if f = 6 then 11 else 12
  | 5 => if f = 6 ∨ f = 7 then 3 else 10
  | 6 => 2
  | 7 => 1 + 2 * f
  | 56 => if f = 6 then 4 else 2
  | _ => if 8 ≤ c ∧ c ≤ 33 ∨ 57 ≤ c then 2 else 1

/-- The opcode bytes on which COST depends (R530): C, with F where F names the kind (C = 5, 6 and 39..55, and
F = 6 of C = 1..4 and 56) or is MOVE's count (C = 7). Elsewhere F is a field specification, a unit or NOP's F
(30_encoding.md R115), on which no cost depends. -/
def costKey (op : OpCode) : OpCode :=
  if op.c.val ∈ [5, 6, 7] ∨ 39 ≤ op.c.val ∧ op.c.val ≤ 55 ∨ op.f.val = 6 ∧ op.c.val ∈ [1, 2, 3, 4, 56] then op
  else ⟨op.c, 0⟩

/-- COST(kind, F) under a configuration: its first row for the kind (for MOVE, the kind and F), else the default
(R530). -/
def costOf (cfg : Config) (op : OpCode) : Nat :=
  match cfg.costs.find? fun row => decide (costKey row.code = costKey op) with
  | some row => row.cost
  | none => defaultCost op.c.val op.f.val

/-- A tape unit of the roster (R381). -/
def tapeUnit : UnitConfig := ⟨.tape, 100, true, true, 10000, 10⟩

/-- A disk unit of the roster (R381). -/
def diskUnit : UnitConfig := ⟨.disk, 100, true, true, 10000, 10⟩

/-- The roster of R381, units 0..20, with the test defaults of CAP and LAT. -/
def defaultUnits : Vector UnitConfig 21 :=
  #v[tapeUnit, tapeUnit, tapeUnit, tapeUnit, tapeUnit, tapeUnit, tapeUnit, tapeUnit,
    diskUnit, diskUnit, diskUnit, diskUnit, diskUnit, diskUnit, diskUnit, diskUnit,
    ⟨.cardReader, 16, true, false, 1600, 10⟩,
    ⟨.cardPunch, 16, false, true, 1600, 10⟩,
    ⟨.linePrinter, 24, false, true, 2400, 10⟩,
    ⟨.terminal, 14, true, true, 1400, 10⟩,
    ⟨.paperTape, 14, true, false, 1400, 10⟩]

/-- Every parameter at the value or the test default of R8. -/
def defaultConfig : Config where
  units := defaultUnits
  linesPerPage := 60
  costs := []
  ciReset := .equal
  busyPolicy := .fatal
  iocSetsBusy := false
  floatUnit := none
  extBinaryOps := false
  numSetsOverflow := true
  glyph10 := 'Δ'
  glyph20 := 'Σ'
  glyph21 := 'Π'

end Sys2Proof.Machine
end

