-- ==== Sys2Proof/Machine/State.lean ====
section
/-! DEFINITION. The state of the block: everything 10_state.md gives it (registers R41..R45, memory R47,
devices R50, engine state R53..R56) and its configuration (R8, R49), as plain data; and the state after
reset (R58, 70_reset_and_hazards.md R510). -/

namespace Sys2Proof.Machine

/-- The causes of a fatal condition, codes 1..10 of 60_exceptions.md R461 in their order. -/
inductive Cause where
  | memBounds
  | deviceBounds
  | divideError
  | deviceMisuse
  | decodeFailure
  | addressRange
  | indexOverflow
  | negativeShift
  | deviceRange
  | refusedFloat
deriving DecidableEq, Repr, Inhabited

/-- The operand a fault record keeps (R461): a number (an address, a unit, M, a value, I) or the pair
(C, F). -/
inductive Operand where
  | value (v : Int)
  | opcode (op : OpCode)
deriving DecidableEq, Repr, Inhabited

/-- The fault record FR = (cause, pc, C, F, operand) (R56, R462); (C, F) is absent for a fetch MemBounds. -/
structure FaultRecord where
  cause : Cause
  pc : Int
  op : Option OpCode
  operand : Operand
deriving DecidableEq, Repr, Inhabited

/-- The engine status ES (R55). -/
inductive EngineStatus where
  | running
  | halted
  | faulted
deriving DecidableEq, Repr, Inhabited

/-- The status of a unit (R50). -/
inductive DeviceStatus where
  | ready
  | busyRead
  | busyWrite
deriving DecidableEq, Repr, Inhabited

/-- The state each unit holds (R50). -/
structure Device where
  buf : Memory
  cursor : Nat
  status : DeviceStatus
  deadline : Nat
deriving DecidableEq, Repr, Inhabited

/-- The state of the machine. -/
structure State where
  rA : Word
  rX : Word
  rI1 : Register2
  rI2 : Register2
  rI3 : Register2
  rI4 : Register2
  rI5 : Register2
  rI6 : Register2
  rJ : Register2
  /-- OV, the overflow toggle (R44). -/
  ov : Bool
  /-- CI, the comparison indicator (R45). -/
  ci : Comparison
  /-- CONTENTS(0..3999) (R47). -/
  mem : Memory
  /-- PC (R53). An integer, since the host may load any starting PC (R511). -/
  pc : Int
  /-- E, the elapsed counter (R54). -/
  elapsed : Nat
  /-- ES, the engine status (R55). -/
  es : EngineStatus
  /-- FR, the fault record (R56). -/
  fr : Option FaultRecord
  /-- buf, cursor, status and deadline of units 0..20 (R50). -/
  dev : Vector Device 21
  /-- The configuration, which no step and no reset changes (R49, R510). -/
  cfg : Config
deriving DecidableEq, Repr

/-- The reasons for `Host.Outcome.fault`. There is none: every fatal condition of the spec (causes 1..10 of
R461) has a stated effect, ES ← FAULTED and FR ← its record (R462, R463), and is the NEXT STATE
`State.takeFault` gives; R474 leaves no case without a stated result. Safe: nothing is cut off. -/
inductive Fault : Type
deriving DecidableEq, Repr

/-- The reasons for a refusal. -/
inductive Refusal where
  /-- Raised by `exec`'s arm of an instruction that has no meaning yet, with its mnemonic; no arm is one
  now. Safe: the model stops where the hardware goes on. -/
  | notModelled (mnemonic : String)
deriving DecidableEq, Repr

/-- A unit after reset (R58). -/
def Device.reset : Device := ⟨[], 0, .ready, 0⟩

/-- Every piece of state at its value after reset under a configuration (R58, R510): CI is CI_RESET, a
parameter (decision D14). -/
def State.resetOf (cfg : Config) : State where
  rA := Word.plusZero
  rX := Word.plusZero
  rI1 := Register2.plusZero
  rI2 := Register2.plusZero
  rI3 := Register2.plusZero
  rI4 := Register2.plusZero
  rI5 := Register2.plusZero
  rI6 := Register2.plusZero
  rJ := Register2.plusZero
  ov := false
  ci := cfg.ciReset
  mem := []
  pc := 0
  elapsed := 0
  es := .running
  fr := none
  dev := Vector.replicate 21 Device.reset
  cfg := cfg

/-- The machine right after reset, with every parameter at its value or test default (R8). -/
def State.reset : State := State.resetOf defaultConfig

end Sys2Proof.Machine
end

