-- ==== Sys2Proof/Syntax.lean ====
section
/-! DEFINITION. The instructions: one constructor per row of spec/opcode_table.json (30_encoding.md R119),
157 in all, the floating kinds and the binary extensions among them. An instruction carries the signed
address and the index specifier of its word (R100, R102, R103) and, by the role of F (R104), a field
specification, a unit number, a count, or NOP's ignored byte. -/

namespace Sys2Proof

/-- The address part of an instruction: the sign of the word, the magnitude A of bytes 1..2, and the index
register that byte 3 selects, none for I = 0 (R100, R102, R103). -/
structure Addr where
  sign : Sign
  a : Fin 4096
  idx : Option IxReg
deriving DecidableEq, Repr, Inhabited

/-- One constructor per instruction kind of R119. `f : Field` is a field specification (L:R), `u : Byte` a
unit number, `n : Byte` MOVE's count, `f : Byte` the byte NOP ignores; a kind with the address alone has
its F fixed by R119. -/
inductive Instr where
  -- Control, special and integer arithmetic (C = 0..5)
  | nop (a : Addr) (f : Byte)
  | add (a : Addr) (f : Field)
  | fadd (a : Addr)
  | sub (a : Addr) (f : Field)
  | fsub (a : Addr)
  | mul (a : Addr) (f : Field)
  | fmul (a : Addr)
  | div (a : Addr) (f : Field)
  | fdiv (a : Addr)
  | num (a : Addr)
  | char (a : Addr)
  | hlt (a : Addr)
  | flot (a : Addr)
  | fix (a : Addr)
  -- Shifts (C = 6) and MOVE (C = 7)
  | sla (a : Addr)
  | sra (a : Addr)
  | slax (a : Addr)
  | srax (a : Addr)
  | slc (a : Addr)
  | src (a : Addr)
  | slb (a : Addr)
  | srb (a : Addr)
  | move (a : Addr) (n : Byte)
  -- Loads (C = 8..23)
  | lda (a : Addr) (f : Field)
  | ld1 (a : Addr) (f : Field)
  | ld2 (a : Addr) (f : Field)
  | ld3 (a : Addr) (f : Field)
  | ld4 (a : Addr) (f : Field)
  | ld5 (a : Addr) (f : Field)
  | ld6 (a : Addr) (f : Field)
  | ldx (a : Addr) (f : Field)
  | ldan (a : Addr) (f : Field)
  | ld1n (a : Addr) (f : Field)
  | ld2n (a : Addr) (f : Field)
  | ld3n (a : Addr) (f : Field)
  | ld4n (a : Addr) (f : Field)
  | ld5n (a : Addr) (f : Field)
  | ld6n (a : Addr) (f : Field)
  | ldxn (a : Addr) (f : Field)
  -- Stores (C = 24..33)
  | sta (a : Addr) (f : Field)
  | st1 (a : Addr) (f : Field)
  | st2 (a : Addr) (f : Field)
  | st3 (a : Addr) (f : Field)
  | st4 (a : Addr) (f : Field)
  | st5 (a : Addr) (f : Field)
  | st6 (a : Addr) (f : Field)
  | stx (a : Addr) (f : Field)
  | stj (a : Addr) (f : Field)
  | stz (a : Addr) (f : Field)
  -- I/O (C = 34..38)
  | jbus (a : Addr) (u : Byte)
  | ioc (a : Addr) (u : Byte)
  | ioIn (a : Addr) (u : Byte)
  | ioOut (a : Addr) (u : Byte)
  | jred (a : Addr) (u : Byte)
  -- Jumps (C = 39)
  | jmp (a : Addr)
  | jsj (a : Addr)
  | jov (a : Addr)
  | jnov (a : Addr)
  | jl (a : Addr)
  | je (a : Addr)
  | jg (a : Addr)
  | jge (a : Addr)
  | jne (a : Addr)
  | jle (a : Addr)
  -- Register jumps (C = 40..47)
  | jan (a : Addr)
  | jaz (a : Addr)
  | jap (a : Addr)
  | jann (a : Addr)
  | janz (a : Addr)
  | janp (a : Addr)
  | jae (a : Addr)
  | jao (a : Addr)
  | j1n (a : Addr)
  | j1z (a : Addr)
  | j1p (a : Addr)
  | j1nn (a : Addr)
  | j1nz (a : Addr)
  | j1np (a : Addr)
  | j2n (a : Addr)
  | j2z (a : Addr)
  | j2p (a : Addr)
  | j2nn (a : Addr)
  | j2nz (a : Addr)
  | j2np (a : Addr)
  | j3n (a : Addr)
  | j3z (a : Addr)
  | j3p (a : Addr)
  | j3nn (a : Addr)
  | j3nz (a : Addr)
  | j3np (a : Addr)
  | j4n (a : Addr)
  | j4z (a : Addr)
  | j4p (a : Addr)
  | j4nn (a : Addr)
  | j4nz (a : Addr)
  | j4np (a : Addr)
  | j5n (a : Addr)
  | j5z (a : Addr)
  | j5p (a : Addr)
  | j5nn (a : Addr)
  | j5nz (a : Addr)
  | j5np (a : Addr)
  | j6n (a : Addr)
  | j6z (a : Addr)
  | j6p (a : Addr)
  | j6nn (a : Addr)
  | j6nz (a : Addr)
  | j6np (a : Addr)
  | jxn (a : Addr)
  | jxz (a : Addr)
  | jxp (a : Addr)
  | jxnn (a : Addr)
  | jxnz (a : Addr)
  | jxnp (a : Addr)
  | jxe (a : Addr)
  | jxo (a : Addr)
  -- Address transfer (C = 48..55)
  | inca (a : Addr)
  | deca (a : Addr)
  | enta (a : Addr)
  | enna (a : Addr)
  | inc1 (a : Addr)
  | dec1 (a : Addr)
  | ent1 (a : Addr)
  | enn1 (a : Addr)
  | inc2 (a : Addr)
  | dec2 (a : Addr)
  | ent2 (a : Addr)
  | enn2 (a : Addr)
  | inc3 (a : Addr)
  | dec3 (a : Addr)
  | ent3 (a : Addr)
  | enn3 (a : Addr)
  | inc4 (a : Addr)
  | dec4 (a : Addr)
  | ent4 (a : Addr)
  | enn4 (a : Addr)
  | inc5 (a : Addr)
  | dec5 (a : Addr)
  | ent5 (a : Addr)
  | enn5 (a : Addr)
  | inc6 (a : Addr)
  | dec6 (a : Addr)
  | ent6 (a : Addr)
  | enn6 (a : Addr)
  | incx (a : Addr)
  | decx (a : Addr)
  | entx (a : Addr)
  | ennx (a : Addr)
  -- Compares (C = 56..63)
  | cmpa (a : Addr) (f : Field)
  | fcmp (a : Addr)
  | cmp1 (a : Addr) (f : Field)
  | cmp2 (a : Addr) (f : Field)
  | cmp3 (a : Addr) (f : Field)
  | cmp4 (a : Addr) (f : Field)
  | cmp5 (a : Addr) (f : Field)
  | cmp6 (a : Addr) (f : Field)
  | cmpx (a : Addr) (f : Field)
deriving DecidableEq, Repr

end Sys2Proof
end

