-- ==== Sys2Proof/Machine/Ops.lean ====
section
/-! DEFINITION. The shared operations of the machine: the word store, the register file, taking a fault
(60_exceptions.md R462, R463), the checks and the commit that surround every instruction rule (30_encoding.md
R110, R111, R121), taking a jump (45_jump.md R250) and the units (47_io.md R380..R391). -/

namespace Sys2Proof

/-- What an address reads: the listed word, else +0 (R58). -/
def Memory.read : Memory → Nat → Word
  | [], _ => Word.plusZero
  | (a, w) :: rest, x => if x = a then w else Memory.read rest x

/-- The list with the word at address `x` made `w`; +0 is written by taking the entry out. -/
def Memory.write : Memory → Nat → Word → Memory
  | [], x, w => if w = Word.plusZero then [] else [(x, w)]
  | (a, v) :: rest, x, w =>
    if x < a then (if w = Word.plusZero then (a, v) :: rest else (x, w) :: (a, v) :: rest)
    else if x = a then (if w = Word.plusZero then rest else (x, w) :: rest)
    else (a, v) :: Memory.write rest x w

/-- The canonical form from address `lo` on, below `hi`: addresses strictly rising, no +0 entry. -/
def Memory.wfFrom : Nat → Nat → Memory → Bool
  | _, _, [] => true
  | lo, hi, (a, w) :: rest =>
    decide (lo ≤ a) && decide (a < hi) && decide (w ≠ Word.plusZero) && Memory.wfFrom (a + 1) hi rest

/-- The canonical form of a store of `hi` words (addresses 0..hi−1). -/
def Memory.wf (hi : Nat) (m : Memory) : Bool := Memory.wfFrom 0 hi m

/-- `n` consecutive words of `src` from `a` on, copied to `dst` from `d` on, one word at a time from low
to high. -/
def Memory.copy (src : Memory) (a : Nat) (dst : Memory) (d : Nat) : Nat → Memory
  | 0 => dst
  | n + 1 => Memory.copy src (a + 1) (dst.write d (src.read a)) (d + 1) n

/-- MOVE's copy inside one memory: each read sees the writes of the words before it (R442, R524). -/
def Memory.move (m : Memory) (a d : Nat) : Nat → Memory
  | 0 => m
  | n + 1 => Memory.move (m.write d (m.read a)) (a + 1) (d + 1) n

/-- The signed address AA (R102). -/
def Addr.value (a : Addr) : Int := a.sign.apply a.a.val

end Sys2Proof

namespace Sys2Proof.Machine

/-- The index register `k` (R42). -/
def State.index (s : State) : IxReg → Register2
  | .i1 => s.rI1
  | .i2 => s.rI2
  | .i3 => s.rI3
  | .i4 => s.rI4
  | .i5 => s.rI5
  | .i6 => s.rI6

/-- The state with index register `k` made `r`. -/
def State.setIndex (s : State) (k : IxReg) (r : Register2) : State :=
  match k with
  | .i1 => { s with rI1 := r }
  | .i2 => { s with rI2 := r }
  | .i3 => { s with rI3 := r }
  | .i4 => { s with rI4 := r }
  | .i5 => { s with rI5 := r }
  | .i6 => { s with rI6 := r }

/-- What `raise` hands over: the cause and the operand recorded (R12, R461). -/
structure Raise where
  cause : Cause
  operand : Operand
deriving DecidableEq, Repr

/-- TAKING A FAULT (R462, R463): ES becomes FAULTED, FR records the cause, the PC of the faulting
instruction, its C and F and the operand, and nothing else changes. There is no handler, no saved
return address and no return from it: only reset leaves FAULTED (R460, R467). -/
def State.takeFault (s : State) (op : Option OpCode) (r : Raise) : State :=
  { s with es := .faulted, fr := some ⟨r.cause, s.pc, op, r.operand⟩ }

/-- What an instruction rule comes to (R12): a raise, which discards its writes, or the state with its
writes and nextPC. In that state `elapsed` is E0, which the WAIT policy may have moved on (R384). -/
abbrev Rule := Except Raise (State × Int)

/-- The outcome of an instruction. -/
abbrev Result := Host.Outcome State Fault Refusal

/-- A rule that ends with the default nextPC = PC + 1 (R121). -/
def done (t : State) : Rule := .ok (t, t.pc + 1)

/-- `raise <Fault>(v)` with a number as its operand. -/
def raise (c : Cause) (v : Int) : Rule := .error ⟨c, .value v⟩

/-- Steps 4 and 5 of R121: E ← E0 + COST(kind, F) and PC ← nextPC. -/
def State.commit (t : State) (op : OpCode) (pc : Int) : State :=
  { t with elapsed := t.elapsed + costOf t.cfg op, pc := pc }

/-- The end of a step: commit the rule's writes, or take its fault in the state before the step. -/
def finish (op : OpCode) (s : State) : Rule → Result
  | .error r => .next (s.takeFault (some op) r)
  | .ok (t, pc) => .next (t.commit op pc)

/-- The effective address M = AA + (I = 0 ? 0 : val(rI[I])), exact (R110). -/
def State.effAddr (s : State) (a : Addr) : Int :=
  a.value + (match a.idx with
    | none => 0
    | some k => (s.index k).val)

/-- An instruction after its decoding: M and sM (R110), AddressRange when |M| > 4095 (R111), then the
instruction's own rule, given M and sM, and the commit. -/
def perform (op : OpCode) (a : Addr) (s : State) (rule : Int → Sign → Rule) : Result :=
  if (s.effAddr a).natAbs ≤ 4095 then
    finish op s (rule (s.effAddr a) (sgnof (s.effAddr a) a.sign))
  else .next (s.takeFault (some op) ⟨.addressRange, .value (s.effAddr a)⟩)

/-- DecodeFailure on (C, F) (R116, R117), before every other check (R464). -/
def decodeFailure (op : OpCode) (s : State) : Result :=
  .next (s.takeFault (some op) ⟨.decodeFailure, .opcode op⟩)

/-- An instruction whose F is a field specification: an invalid one is DecodeFailure (R40, R116). The
decoder never hands one over; the check makes the meaning right on every term of Instr. -/
def performField (c : Byte) (f : Field) (a : Addr) (s : State) (rule : Int → Rule) : Result :=
  if f.valid then perform ⟨c, f.byte⟩ a s fun m _ => rule m
  else decodeFailure ⟨c, f.byte⟩ s

/-- A binary extension: DecodeFailure(C, F) when EXT_BINARY_OPS is false (R218..R220, R318..R321). -/
def performExt (op : OpCode) (a : Addr) (s : State) (rule : Int → Rule) : Result :=
  if s.cfg.extBinaryOps then perform op a s fun m _ => rule m else decodeFailure op s

/-- 0 ≤ m ≤ 3999, the addresses that exist (R80). -/
abbrev InMemory (m : Int) : Prop := 0 ≤ m ∧ m ≤ 3999

/-- MemRead(m, 1) for the rest of a rule, MemBounds(m) out of range (R80, decision D37). -/
def withWord (s : State) (m : Int) (k : Word → Rule) : Rule :=
  if InMemory m then k (s.mem.read m.toNat) else raise .memBounds m

/-- The state with CONTENTS(m) made `w`, for m in range. -/
def State.store (s : State) (m : Int) (w : Word) : State := { s with mem := s.mem.write m.toNat w }

/-- The return address of a jump at PC: (+, (PC + 1) div 64, (PC + 1) mod 64) (R250). -/
def returnAddress (pc : Int) : Register2 := Register2.ofMag .plus (pc + 1).toNat

/-- `take(M)` of R250 without the write of rJ, for JSJ (R252). -/
def takeNoSave (m : Int) (t : State) : Rule := if InMemory m then .ok (t, m) else raise .memBounds m

/-- `take(M)` of R250: MemBounds for a target outside memory, else rJ ← PC + 1 and nextPC ← M. -/
def take (m : Int) (t : State) : Rule := takeNoSave m { t with rJ := returnAddress t.pc }

/-- A conditional jump without further effect: `if cond: take(M)`. -/
def jumpIf (cond : Bool) (m : Int) (s : State) : Rule := if cond then take m s else done s

/-- The roster has 21 units, 0..20 (R49). -/
abbrev Unit21 := Fin 21

/-- The unit u = F of an I/O instruction for the rest of its rule, DeviceBounds(u) when u > 20 (R380). -/
def withUnit (u : Byte) (k : Unit21 → Rule) : Rule :=
  if h : u.val < 21 then k ⟨u.val, h⟩ else raise .deviceBounds u.val

/-- The configuration of a unit. -/
def State.unit (s : State) (u : Unit21) : UnitConfig := s.cfg.units[u]

/-- The state with unit `u`'s device state made `d`. -/
def State.setDev (s : State) (u : Unit21) (d : Device) : State := { s with dev := s.dev.set u d }

/-- `ready(u, t)` (R383): READY, or `t` is past the deadline (strictly, decision D16). -/
def Device.isReady (d : Device) (t : Nat) : Bool := d.status == .ready || decide (d.deadline < t)

/-- The status write of `ready(u, t)` (R383). -/
def Device.poll (d : Device) (t : Nat) : Device := if d.isReady t then { d with status := .ready } else d

/-- `requireReady(u)` for the rest of a rule (R384): under FATAL a busy unit is DeviceMisuse; under WAIT E0
becomes deadline[u] + 1 and the unit READY. -/
def withReady (s : State) (u : Unit21) (k : State → Rule) : Rule :=
  if s.dev[u].isReady s.elapsed then k (s.setDev u (s.dev[u].poll s.elapsed))
  else match s.cfg.busyPolicy with
    | .fatal => raise .deviceMisuse u.val
    | .wait =>
      k { (s.setDev u { s.dev[u] with status := .ready }) with elapsed := s.dev[u].deadline + 1 }

/-- `blockBase(u)` (R390): a disk's block is p = val(rX); every other kind's is at its cursor. `none` where
it raises DeviceRange. -/
def State.blockBase (s : State) (u : Unit21) : Option Nat :=
  if (s.unit u).kind = .disk then
    if s.rX.val < 0 ∨ (s.rX.val + 1) * (s.unit u).block > (s.unit u).cap then none
    else some (s.rX.val.toNat * (s.unit u).block)
  else if s.dev[u].cursor + (s.unit u).block > (s.unit u).cap then none
  else some s.dev[u].cursor

/-- The checks of IN and OUT after readiness: the memory block M..M+BLOCK−1 (MemBounds(M), decision D48),
then the block's place in the buffer (DeviceRange). -/
def withBlock (s : State) (u : Unit21) (m : Int) (k : Nat → Rule) : Rule :=
  if m < 0 ∨ m + (s.unit u).block - 1 > 3999 then raise .memBounds m
  else match s.blockBase u with
    | none => raise .deviceRange u.val
    | some base => k base

/-- The cursor after a transfer at `base`: past the block, but a disk's stays (R382). -/
def State.cursorAfter (s : State) (u : Unit21) (base : Nat) : Nat :=
  if (s.unit u).kind = .disk then s.dev[u].cursor else base + (s.unit u).block

/-- The completion deadline E0 + cost + LAT[u] (R391, decision D18). -/
def State.deadlineAfter (s : State) (u : Unit21) (op : OpCode) : Nat :=
  s.elapsed + costOf s.cfg op + (s.unit u).lat

end Sys2Proof.Machine
end

