-- ==== Sys2Proof/Machine/Flags.lean ====
section
/-! DEFINITION. The two flags' computations: OV by the add law (42_arithmetic.md R181) and CI by the compare
(44_compare.md R230). -/

namespace Sys2Proof.Machine

/-- The add law's register (R181): the value t = val(r) + d, a zero keeping r's sign; past W − 1 the
magnitude is |t| − W with the sign of t. -/
def addWord (r : Word) (d : Int) : Word :=
  if (r.val + d).natAbs ≤ W - 1 then toWord (r.val + d) r.sign
  else Word.ofMag (sgnof (r.val + d) .plus) ((r.val + d).natAbs - W)

/-- The add law's OV (R181): set when |t| ≥ W, else unchanged. -/
def addOverflow (r : Word) (d : Int) (ov : Bool) : Bool :=
  if (r.val + d).natAbs ≤ W - 1 then ov else true

/-- The comparison of two values (R230). -/
def compareValues (a v : Int) : Comparison := if a < v then .less else if a = v then .equal else .greater

end Sys2Proof.Machine
end

