-- ==== Sys2Proof/Machine/Operands.lean ====
section
/-! DEFINITION. The operand forms: the value a load brings (41_load_store.md R140, R141), the byte pair rAX
(10_state.md R41) with its shifts (43_shift.md), and the digits of NUM and CHAR (49_special.md). -/

namespace Sys2Proof.Machine

/-- The sign inverted, bytes kept (R141). -/
def negated (w : Word) : Word := { w with sign := w.sign.neg }

/-- Write a loaded Word to rA. -/
def putA (s : State) (w : Word) : Rule := done { s with rA := w }

/-- Write a loaded Word to rX. -/
def putX (s : State) (w : Word) : Rule := done { s with rX := w }

/-- Write a Word to rI[k] through `toReg2`, IndexOverflow(val w) when it does not fit (R38). -/
def putIndex (k : IxReg) (s : State) (w : Word) : Rule :=
  match toReg2 w with
  | some r => done (s.setIndex k r)
  | none => raise .indexOverflow w.val

/-- Write the value `t` to rI[k], the sign `s0` standing for a zero; IndexOverflow(t) when |t| > 4095
(R38, R332). -/
def putIndexValue (k : IxReg) (s : State) (t : Int) (s0 : Sign) : Rule :=
  if t.natAbs ≤ 4095 then done (s.setIndex k (reg2 t s0)) else raise .indexOverflow t

/-- Byte `i` of the ten-byte pair T[1..10] = A[1..5] ++ X[1..5] (R41). -/
def pairByte (a x : Word) (i : Nat) : Byte := if i ≤ 5 then a.byte i else x.byte (i - 5)

/-- rA and rX with the pair's bytes made `t`, both signs kept. -/
def State.setPair (s : State) (t : Nat → Byte) : State :=
  { s with rA := Word.ofBytes s.rA.sign t, rX := Word.ofBytes s.rX.sign fun i => t (i + 5) }

/-- T'[i] ← (i + M ≤ width) ? T[i + M] : 0 (R211, R213). -/
def shiftLeft (width m : Nat) (t : Nat → Byte) (i : Nat) : Byte := if i + m ≤ width then t (i + m) else 0

/-- T'[i] ← (i − M ≥ 1) ? T[i − M] : 0 (R212, R214). -/
def shiftRight (m : Nat) (t : Nat → Byte) (i : Nat) : Byte := if m + 1 ≤ i then t (i - m) else 0

/-- T'[i] ← T[((i − 1 + k) mod 10) + 1], k = M mod 10 (R215). -/
def rotateLeft (m : Nat) (t : Nat → Byte) (i : Nat) : Byte := t ((i - 1 + m % 10) % 10 + 1)

/-- T'[i] ← T[((i − 1 − k) mod 10) + 1], k = M mod 10 (R216). -/
def rotateRight (m : Nat) (t : Nat → Byte) (i : Nat) : Byte := t ((i - 1 + (10 - m % 10)) % 10 + 1)

/-- D = mag(rA) × W + mag(rX) (R219). -/
def State.pairMag (s : State) : Nat := s.rA.mag * W + s.rX.mag

/-- rA ← word(rA.s, D div W), rX ← word(rX.s, D mod W) (R219, R220). -/
def State.setPairMag (s : State) (d : Nat) : State :=
  { s with rA := Word.ofMag s.rA.sign (d / W), rX := Word.ofMag s.rX.sign (d % W) }

/-- NUM's n = Σ (T[i] mod 10) × 10^(10−i) (R440). -/
def decimalValue (t : Nat → Byte) : Nat :=
  [1, 2, 3, 4, 5, 6, 7, 8, 9, 10].foldl (fun n i => 10 * n + (t i).val % 10) 0

/-- CHAR's byte 30 + d[i], d[1..10] the ten decimal digits of `n`, most significant first (R441). -/
def digitCode (n : Nat) (i : Nat) : Byte := Byte.ofNat (30 + n / 10 ^ (10 - i) % 10)

end Sys2Proof.Machine
end

