-- ==== Sys2Proof/Machine/Arithmetic.lean ====
section
/-! DEFINITION. Integer arithmetic (42_arithmetic.md sections 1 and 2). -/

namespace Sys2Proof.Machine

/-- The arithmetic operand (R180): the rest of the rule is given M and `field(CONTENTS(M), L, R)`. -/
def withOperand (c : Byte) (f : Field) (a : Addr) (s : State) (k : Int → Word → Rule) : Result :=
  performField c f a s fun m => withWord s m fun w => k m (field w f)

/-- The add law on rA (R181). -/
def addToA (s : State) (d : Int) : Rule :=
  done { s with rA := addWord s.rA d, ov := addOverflow s.rA d s.ov }

/-- The add law on rX (R181). -/
def addToX (s : State) (d : Int) : Rule :=
  done { s with rX := addWord s.rX d, ov := addOverflow s.rX d s.ov }

/-- The sign of a product or a quotient: + iff the operands' signs agree, a zero included (R184, R185). -/
def productSign (s t : Sign) : Sign := if s = t then .plus else .minus

/-- MUL's writes (R184): the exact product over rA:rX, both with the product's sign. -/
def multiply (s : State) (v : Word) : State :=
  { s with
    rA := Word.ofMag (productSign s.rA.sign v.sign) (s.rA.mag * v.mag / W)
    rX := Word.ofMag (productSign s.rA.sign v.sign) (s.rA.mag * v.mag % W) }

/-- DIV's writes (R185): the truncated quotient in rA, the remainder with rA's old sign in rX. -/
def divide (s : State) (v : Word) : State :=
  { s with
    rA := Word.ofMag (productSign s.rA.sign v.sign) ((s.rA.mag * W + s.rX.mag) / v.mag)
    rX := Word.ofMag s.rA.sign ((s.rA.mag * W + s.rX.mag) % v.mag) }

/-- ADD (R182): rA + V by the add law. -/
def execAdd (a : Addr) (f : Field) (s : State) : Result :=
  withOperand 1 f a s fun _ v => addToA s v.val

/-- SUB (R183): rA − V by the add law. -/
def execSub (a : Addr) (f : Field) (s : State) : Result :=
  withOperand 2 f a s fun _ v => addToA s (-v.val)

/-- MUL (R184): rA × V into rA:rX. -/
def execMul (a : Addr) (f : Field) (s : State) : Result :=
  withOperand 3 f a s fun _ v => done (multiply s v)

/-- DIV (R185): rA:rX ÷ V; DivideError(M) for V = ±0, then for a quotient past W − 1. -/
def execDiv (a : Addr) (f : Field) (s : State) : Result :=
  withOperand 4 f a s fun m v =>
    if v.mag = 0 then raise .divideError m
    else if v.mag ≤ s.rA.mag then raise .divideError m
    else done (divide s v)

end Sys2Proof.Machine
end

