-- ==== Sys2Proof/Machine/AddressTransfer.lean ====
section
/-! DEFINITION. Address transfer: INC, DEC, ENT, ENN (46_address_transfer.md). -/

namespace Sys2Proof.Machine

/-- INCA (R340): rA + M by the add law. -/
def execInca (a : Addr) (s : State) : Result :=
  perform ⟨48, 0⟩ a s fun m _ => addToA s m

/-- DECA (R341): rA − M by the add law. -/
def execDeca (a : Addr) (s : State) : Result :=
  perform ⟨48, 1⟩ a s fun m _ => addToA s (-m)

/-- ENTA (R342): rA ← M with sign sM (R333). -/
def execEnta (a : Addr) (s : State) : Result :=
  perform ⟨48, 2⟩ a s fun m sm => done { s with rA := Word.ofMag sm m.natAbs }

/-- ENNA (R343): rA ← −M with sign neg(sM) (R333). -/
def execEnna (a : Addr) (s : State) : Result :=
  perform ⟨48, 3⟩ a s fun m sm => done { s with rA := Word.ofMag sm.neg m.natAbs }

/-- INC1 (R344): rI1 + M, IndexOverflow past 4095 (R332). -/
def execInc1 (a : Addr) (s : State) : Result :=
  perform ⟨49, 0⟩ a s fun m _ => putIndexValue .i1 s (s.rI1.val + m) s.rI1.sign

/-- DEC1 (R345): rI1 − M, IndexOverflow past 4095 (R332). -/
def execDec1 (a : Addr) (s : State) : Result :=
  perform ⟨49, 1⟩ a s fun m _ => putIndexValue .i1 s (s.rI1.val - m) s.rI1.sign

/-- ENT1 (R346): rI1 ← M with sign sM (R333). -/
def execEnt1 (a : Addr) (s : State) : Result :=
  perform ⟨49, 2⟩ a s fun m sm => done (s.setIndex .i1 (Register2.ofMag sm m.natAbs))

/-- ENN1 (R347): rI1 ← −M with sign neg(sM) (R333). -/
def execEnn1 (a : Addr) (s : State) : Result :=
  perform ⟨49, 3⟩ a s fun m sm => done (s.setIndex .i1 (Register2.ofMag sm.neg m.natAbs))

/-- INC2 (R348): rI2 + M, IndexOverflow past 4095 (R332). -/
def execInc2 (a : Addr) (s : State) : Result :=
  perform ⟨50, 0⟩ a s fun m _ => putIndexValue .i2 s (s.rI2.val + m) s.rI2.sign

/-- DEC2 (R349): rI2 − M, IndexOverflow past 4095 (R332). -/
def execDec2 (a : Addr) (s : State) : Result :=
  perform ⟨50, 1⟩ a s fun m _ => putIndexValue .i2 s (s.rI2.val - m) s.rI2.sign

/-- ENT2 (R350): rI2 ← M with sign sM (R333). -/
def execEnt2 (a : Addr) (s : State) : Result :=
  perform ⟨50, 2⟩ a s fun m sm => done (s.setIndex .i2 (Register2.ofMag sm m.natAbs))

/-- ENN2 (R351): rI2 ← −M with sign neg(sM) (R333). -/
def execEnn2 (a : Addr) (s : State) : Result :=
  perform ⟨50, 3⟩ a s fun m sm => done (s.setIndex .i2 (Register2.ofMag sm.neg m.natAbs))

/-- INC3 (R352): rI3 + M, IndexOverflow past 4095 (R332). -/
def execInc3 (a : Addr) (s : State) : Result :=
  perform ⟨51, 0⟩ a s fun m _ => putIndexValue .i3 s (s.rI3.val + m) s.rI3.sign

/-- DEC3 (R353): rI3 − M, IndexOverflow past 4095 (R332). -/
def execDec3 (a : Addr) (s : State) : Result :=
  perform ⟨51, 1⟩ a s fun m _ => putIndexValue .i3 s (s.rI3.val - m) s.rI3.sign

/-- ENT3 (R354): rI3 ← M with sign sM (R333). -/
def execEnt3 (a : Addr) (s : State) : Result :=
  perform ⟨51, 2⟩ a s fun m sm => done (s.setIndex .i3 (Register2.ofMag sm m.natAbs))

/-- ENN3 (R355): rI3 ← −M with sign neg(sM) (R333). -/
def execEnn3 (a : Addr) (s : State) : Result :=
  perform ⟨51, 3⟩ a s fun m sm => done (s.setIndex .i3 (Register2.ofMag sm.neg m.natAbs))

/-- INC4 (R356): rI4 + M, IndexOverflow past 4095 (R332). -/
def execInc4 (a : Addr) (s : State) : Result :=
  perform ⟨52, 0⟩ a s fun m _ => putIndexValue .i4 s (s.rI4.val + m) s.rI4.sign

/-- DEC4 (R357): rI4 − M, IndexOverflow past 4095 (R332). -/
def execDec4 (a : Addr) (s : State) : Result :=
  perform ⟨52, 1⟩ a s fun m _ => putIndexValue .i4 s (s.rI4.val - m) s.rI4.sign

/-- ENT4 (R358): rI4 ← M with sign sM (R333). -/
def execEnt4 (a : Addr) (s : State) : Result :=
  perform ⟨52, 2⟩ a s fun m sm => done (s.setIndex .i4 (Register2.ofMag sm m.natAbs))

/-- ENN4 (R359): rI4 ← −M with sign neg(sM) (R333). -/
def execEnn4 (a : Addr) (s : State) : Result :=
  perform ⟨52, 3⟩ a s fun m sm => done (s.setIndex .i4 (Register2.ofMag sm.neg m.natAbs))

/-- INC5 (R360): rI5 + M, IndexOverflow past 4095 (R332). -/
def execInc5 (a : Addr) (s : State) : Result :=
  perform ⟨53, 0⟩ a s fun m _ => putIndexValue .i5 s (s.rI5.val + m) s.rI5.sign

/-- DEC5 (R361): rI5 − M, IndexOverflow past 4095 (R332). -/
def execDec5 (a : Addr) (s : State) : Result :=
  perform ⟨53, 1⟩ a s fun m _ => putIndexValue .i5 s (s.rI5.val - m) s.rI5.sign

/-- ENT5 (R362): rI5 ← M with sign sM (R333). -/
def execEnt5 (a : Addr) (s : State) : Result :=
  perform ⟨53, 2⟩ a s fun m sm => done (s.setIndex .i5 (Register2.ofMag sm m.natAbs))

/-- ENN5 (R363): rI5 ← −M with sign neg(sM) (R333). -/
def execEnn5 (a : Addr) (s : State) : Result :=
  perform ⟨53, 3⟩ a s fun m sm => done (s.setIndex .i5 (Register2.ofMag sm.neg m.natAbs))

/-- INC6 (R364): rI6 + M, IndexOverflow past 4095 (R332). -/
def execInc6 (a : Addr) (s : State) : Result :=
  perform ⟨54, 0⟩ a s fun m _ => putIndexValue .i6 s (s.rI6.val + m) s.rI6.sign

/-- DEC6 (R365): rI6 − M, IndexOverflow past 4095 (R332). -/
def execDec6 (a : Addr) (s : State) : Result :=
  perform ⟨54, 1⟩ a s fun m _ => putIndexValue .i6 s (s.rI6.val - m) s.rI6.sign

/-- ENT6 (R366): rI6 ← M with sign sM (R333). -/
def execEnt6 (a : Addr) (s : State) : Result :=
  perform ⟨54, 2⟩ a s fun m sm => done (s.setIndex .i6 (Register2.ofMag sm m.natAbs))

/-- ENN6 (R367): rI6 ← −M with sign neg(sM) (R333). -/
def execEnn6 (a : Addr) (s : State) : Result :=
  perform ⟨54, 3⟩ a s fun m sm => done (s.setIndex .i6 (Register2.ofMag sm.neg m.natAbs))

/-- INCX (R368): rX + M by the add law. -/
def execIncx (a : Addr) (s : State) : Result :=
  perform ⟨55, 0⟩ a s fun m _ => addToX s m

/-- DECX (R369): rX − M by the add law. -/
def execDecx (a : Addr) (s : State) : Result :=
  perform ⟨55, 1⟩ a s fun m _ => addToX s (-m)

/-- ENTX (R370): rX ← M with sign sM (R333). -/
def execEntx (a : Addr) (s : State) : Result :=
  perform ⟨55, 2⟩ a s fun m sm => done { s with rX := Word.ofMag sm m.natAbs }

/-- ENNX (R371): rX ← −M with sign neg(sM) (R333). -/
def execEnnx (a : Addr) (s : State) : Result :=
  perform ⟨55, 3⟩ a s fun m sm => done { s with rX := Word.ofMag sm.neg m.natAbs }

end Sys2Proof.Machine
end

