-- ==== Sys2Proof/Machine/Compare.lean ====
section
/-! DEFINITION. Compares (44_compare.md). -/

namespace Sys2Proof.Machine

/-- Compare (R230): the same field of the register, seen as a Word, and of CONTENTS(M), by value; only CI is
written. -/
def compare (c : Byte) (f : Field) (a : Addr) (s : State) (r : Word) : Result :=
  performField c f a s fun m => withWord s m fun w =>
    done { s with ci := compareValues (field r f).val (field w f).val }

/-- CMPA (R231): compare rA. DEDUCED (notes/assumptions/15.md): R231 contradicts itself on a field that includes
bytes 1..3; the register side is rA's own bytes, as its pseudocode has it, and not zeros. -/
def execCmpa (a : Addr) (f : Field) (s : State) : Result :=
  compare 56 f a s s.rA

/-- CMP1 (R232): compare rI1. -/
def execCmp1 (a : Addr) (f : Field) (s : State) : Result :=
  compare 57 f a s s.rI1.asWord

/-- CMP2 (R233): compare rI2. -/
def execCmp2 (a : Addr) (f : Field) (s : State) : Result :=
  compare 58 f a s s.rI2.asWord

/-- CMP3 (R234): compare rI3. -/
def execCmp3 (a : Addr) (f : Field) (s : State) : Result :=
  compare 59 f a s s.rI3.asWord

/-- CMP4 (R235): compare rI4. -/
def execCmp4 (a : Addr) (f : Field) (s : State) : Result :=
  compare 60 f a s s.rI4.asWord

/-- CMP5 (R236): compare rI5. -/
def execCmp5 (a : Addr) (f : Field) (s : State) : Result :=
  compare 61 f a s s.rI5.asWord

/-- CMP6 (R237): compare rI6. -/
def execCmp6 (a : Addr) (f : Field) (s : State) : Result :=
  compare 62 f a s s.rI6.asWord

/-- CMPX (R238): compare rX. -/
def execCmpx (a : Addr) (f : Field) (s : State) : Result :=
  compare 63 f a s s.rX

end Sys2Proof.Machine
end

