-- ==== Sys2Proof/Machine/Control.lean ====
section
/-! DEFINITION. Control (48_control.md). -/

namespace Sys2Proof.Machine

/-- NOP (R430): nothing but the cost and the PC; F is any byte. -/
def execNop (a : Addr) (f : Byte) (s : State) : Result :=
  perform ⟨0, f⟩ a s fun _ _ => done s

/-- HLT (R431): ES ← HALTED, nextPC ← PC; the cost is added. -/
def execHlt (a : Addr) (s : State) : Result :=
  perform ⟨5, 2⟩ a s fun _ _ => .ok ({ s with es := .halted }, s.pc)

end Sys2Proof.Machine
end

