-- ==== Sys2Proof/Machine/Floating.lean ====
section
/-! DEFINITION. The floating kinds, executed through the parameter FLOAT_UNIT (42_arithmetic.md section 3). -/

namespace Sys2Proof.Machine

/-- FLOAT_UNIT.fadd, fsub, fmul, fdiv: the unit's row for the operands, else a free value (R195). -/
def floatArith (u : FloatUnit) (o : FloatOp) (a v : Word) : FloatResult :=
  match u.arith.lookup (o, a, v) with
  | some r => r
  | none => Config.freeFloat o a v

/-- FLOAT_UNIT.flot, fix: the unit's row for the operand, else a free value (R195). -/
def floatConv (u : FloatUnit) (o : FloatConv) (a : Word) : FloatResult :=
  match u.conv.lookup (o, a) with
  | some r => r
  | none => Config.freeConv o a

/-- FLOAT_UNIT.fcmp: the unit's row for the arguments, else a free value (R195, R202). -/
def floatCompare (u : FloatUnit) (a v : Word) (m : Memory) : FloatCompare :=
  match u.compare.lookup (a, v, m) with
  | some r => r
  | none => Config.freeCompare a v m

/-- A floating kind (R195, R121): RefusedFloat(C, F) after the address checks when FLOAT_UNIT is absent. -/
def performFloat (op : OpCode) (a : Addr) (s : State) (rule : FloatUnit → Int → Rule) : Result :=
  perform op a s fun m _ =>
    match s.cfg.floatUnit with
    | none => .error ⟨.refusedFloat, .opcode op⟩
    | some u => rule u m

/-- What the block does with a FLOAT_UNIT result (R195): rA ← rA' and, when ovSet, OV ← on; a fault is
DivideError(M). DEDUCED (notes/assumptions/17.md): no rX and no index register is written, as R195 says, where the
last sentence of 10_state.md R59 leaves both to FLOAT_UNIT. -/
def putFloat (s : State) (m : Int) : FloatResult → Rule
  | .ok w ovSet => done { s with rA := w, ov := s.ov || ovSet }
  | .fault => raise .divideError m

/-- What the block does with an fcmp result (R195, R202): CI ← ci; a fault is DivideError(M). -/
def putFloatCompare (s : State) (m : Int) : FloatCompare → Rule
  | .ok ci => done { s with ci := ci }
  | .fault => raise .divideError m

/-- FADD (R196): FLOAT_UNIT.fadd on rA and CONTENTS(M). -/
def execFadd (a : Addr) (s : State) : Result :=
  performFloat ⟨1, 6⟩ a s fun u m => withWord s m fun w => putFloat s m (floatArith u .fadd s.rA w)

/-- FSUB (R197): FLOAT_UNIT.fsub on rA and CONTENTS(M). -/
def execFsub (a : Addr) (s : State) : Result :=
  performFloat ⟨2, 6⟩ a s fun u m => withWord s m fun w => putFloat s m (floatArith u .fsub s.rA w)

/-- FMUL (R198): FLOAT_UNIT.fmul on rA and CONTENTS(M). -/
def execFmul (a : Addr) (s : State) : Result :=
  performFloat ⟨3, 6⟩ a s fun u m => withWord s m fun w => putFloat s m (floatArith u .fmul s.rA w)

/-- FDIV (R199): FLOAT_UNIT.fdiv on rA and CONTENTS(M). -/
def execFdiv (a : Addr) (s : State) : Result :=
  performFloat ⟨4, 6⟩ a s fun u m => withWord s m fun w => putFloat s m (floatArith u .fdiv s.rA w)

/-- FLOT (R200): FLOAT_UNIT.flot on rA; memory is not read. -/
def execFlot (a : Addr) (s : State) : Result :=
  performFloat ⟨5, 6⟩ a s fun u m => putFloat s m (floatConv u .flot s.rA)

/-- FIX (R201): FLOAT_UNIT.fix on rA; memory is not read. -/
def execFix (a : Addr) (s : State) : Result :=
  performFloat ⟨5, 7⟩ a s fun u m => putFloat s m (floatConv u .fix s.rA)

/-- FCMP (R202): FLOAT_UNIT.fcmp on rA, CONTENTS(M) and the memory. -/
def execFcmp (a : Addr) (s : State) : Result :=
  performFloat ⟨56, 6⟩ a s fun u m => withWord s m fun w => putFloatCompare s m (floatCompare u s.rA w s.mem)

end Sys2Proof.Machine
end

