-- ==== Sys2Proof/Machine/InputOutput.lean ====
section
/-! DEFINITION. The I/O instructions (47_io.md). -/

namespace Sys2Proof.Machine

/-- The state after the words of an IN have reached memory (R386). -/
def inputBlock (s : State) (u : Unit21) (op : OpCode) (m : Int) (base : Nat) : State :=
  { s with
    mem := Memory.copy s.dev[u].buf base s.mem m.toNat (s.unit u).block
    dev := s.dev.set u ⟨s.dev[u].buf, s.cursorAfter u base, .busyRead, s.deadlineAfter u op⟩ }

/-- The state after the words of an OUT have reached the unit's buffer (R387). -/
def outputBlock (s : State) (u : Unit21) (op : OpCode) (m : Int) (base : Nat) : State :=
  s.setDev u
    ⟨Memory.copy s.mem m.toNat s.dev[u].buf base (s.unit u).block, s.cursorAfter u base, .busyWrite,
      s.deadlineAfter u op⟩

/-- `defined(kind, M)` of R388: which control operations a kind of unit has. -/
def iocDefined (k : UnitKind) (m : Int) : Bool :=
  match k with
  | .tape => true
  | .disk | .linePrinter | .paperTape => decide (m = 0)
  | .cardReader | .cardPunch | .terminal => false

/-- The cursor after a tape's control operation (R388): rewind for M = 0, else M blocks forward or back,
stopping at the start. -/
def tapeCursor (cursor block : Nat) (m : Int) : Nat :=
  if m = 0 then 0
  else if 0 < m then cursor + m.toNat * block
  else cursor - m.natAbs * block

/-- The cursor at the top of the printer's next page, `p` words to the page (R388, decision D49). -/
def nextPage (cursor p : Nat) : Nat := (cursor / p + 1) * p

/-- The cursor a control operation leaves (R388), before the check against CAP[u]. -/
def iocCursor (s : State) (u : Unit21) (m : Int) : Nat :=
  match (s.unit u).kind with
  | .tape => tapeCursor s.dev[u].cursor (s.unit u).block m
  | .linePrinter => nextPage s.dev[u].cursor (24 * s.cfg.linesPerPage)
  | .paperTape => 0
  | .disk | .cardReader | .cardPunch | .terminal => s.dev[u].cursor

/-- Whether a control operation moves the cursor forward, so that CAP[u] bounds it (R388). -/
def iocForward (k : UnitKind) (m : Int) : Bool :=
  match k with
  | .tape => decide (0 < m)
  | .linePrinter => true
  | .disk | .paperTape | .cardReader | .cardPunch | .terminal => false

/-- The writes of IOC (R388): the cursor and, with IOC_SETS_BUSY, the busy status and its deadline
(decision D19). -/
def control (s : State) (u : Unit21) (op : OpCode) (m : Int) : State :=
  if s.cfg.iocSetsBusy then
    s.setDev u ⟨s.dev[u].buf, iocCursor s u m, .busyWrite, s.deadlineAfter u op⟩
  else s.setDev u { s.dev[u] with cursor := iocCursor s u m }

/-- JBUS (R385): jump if the unit is busy at E0; the status write of `ready` is kept (R383). -/
def execJbus (a : Addr) (u : Byte) (s : State) : Result :=
  perform ⟨34, u⟩ a s fun m _ => withUnit u fun n =>
    if s.dev[n].isReady s.elapsed then done (s.setDev n (s.dev[n].poll s.elapsed)) else take m s

/-- IOC (R388): a control operation of the unit; the checks in the order of R464. -/
def execIoc (a : Addr) (u : Byte) (s : State) : Result :=
  perform ⟨35, u⟩ a s fun m _ => withUnit u fun n =>
    if iocDefined (s.unit n).kind m then
      withReady s n fun t =>
        if iocForward (t.unit n).kind m ∧ (t.unit n).cap < iocCursor t n m then raise .deviceRange u.val
        else done (control t n ⟨35, u⟩ m)
    else raise .deviceMisuse u.val

/-- IN (R386): input a block into CONTENTS(M..M+BLOCK−1); the checks in the order of R464. -/
def execIoIn (a : Addr) (u : Byte) (s : State) : Result :=
  perform ⟨36, u⟩ a s fun m _ => withUnit u fun n =>
    if (s.unit n).canIn then
      withReady s n fun t => withBlock t n m fun base => done (inputBlock t n ⟨36, u⟩ m base)
    else raise .deviceMisuse u.val

/-- OUT (R387): output CONTENTS(M..M+BLOCK−1); the checks in the order of R464. -/
def execIoOut (a : Addr) (u : Byte) (s : State) : Result :=
  perform ⟨37, u⟩ a s fun m _ => withUnit u fun n =>
    if (s.unit n).canOut then
      withReady s n fun t => withBlock t n m fun base => done (outputBlock t n ⟨37, u⟩ m base)
    else raise .deviceMisuse u.val

/-- JRED (R389): jump if the unit is ready at E0. -/
def execJred (a : Addr) (u : Byte) (s : State) : Result :=
  perform ⟨38, u⟩ a s fun m _ => withUnit u fun n =>
    if s.dev[n].isReady s.elapsed then take m (s.setDev n (s.dev[n].poll s.elapsed)) else done s

end Sys2Proof.Machine
end

