-- ==== Sys2Proof/Machine/Jump.lean ====
section
/-! DEFINITION. Jumps (45_jump.md). -/

namespace Sys2Proof.Machine

/-- A jump on a condition of the state before it (R250). -/
def jump (op : OpCode) (a : Addr) (s : State) (cond : Bool) : Result :=
  perform op a s fun m _ => jumpIf cond m s

/-- v < 0 (R265, F = 0 N). -/
def isNegative (v : Int) : Bool := decide (v < 0)

/-- v = 0 (R265, F = 1 Z). -/
def isZero (v : Int) : Bool := decide (v = 0)

/-- v > 0 (R265, F = 2 P). -/
def isPositive (v : Int) : Bool := decide (0 < v)

/-- v ≥ 0 (R265, F = 3 NN). -/
def isNonnegative (v : Int) : Bool := decide (0 ≤ v)

/-- v ≠ 0 (R265, F = 4 NZ). -/
def isNonzero (v : Int) : Bool := decide (v ≠ 0)

/-- v ≤ 0 (R265, F = 5 NP). -/
def isNonpositive (v : Int) : Bool := decide (v ≤ 0)

/-- A parity jump, a binary extension; the parity is the magnitude's (R318..R321). -/
def jumpParity (op : OpCode) (a : Addr) (s : State) (r : Word) (parity : Nat) : Result :=
  performExt op a s fun m => jumpIf (decide (r.mag % 2 = parity)) m s

/-- JMP (R251): jump always. -/
def execJmp (a : Addr) (s : State) : Result :=
  jump ⟨39, 0⟩ a s true

/-- JSJ (R252): jump always, rJ not written. -/
def execJsj (a : Addr) (s : State) : Result :=
  perform ⟨39, 1⟩ a s fun m _ => takeNoSave m s

/-- JOV (R253): jump on overflow; OV off after a jump taken. -/
def execJov (a : Addr) (s : State) : Result :=
  perform ⟨39, 2⟩ a s fun m _ =>
    if s.ov then take m { s with ov := false } else done s

/-- JNOV (R254): jump on no overflow; OV off when it was on and the jump is not taken. -/
def execJnov (a : Addr) (s : State) : Result :=
  perform ⟨39, 3⟩ a s fun m _ =>
    if s.ov then done { s with ov := false } else take m s

/-- JL (R255): jump when CI = LESS. -/
def execJl (a : Addr) (s : State) : Result :=
  jump ⟨39, 4⟩ a s (s.ci == .less)

/-- JE (R256): jump when CI = EQUAL. -/
def execJe (a : Addr) (s : State) : Result :=
  jump ⟨39, 5⟩ a s (s.ci == .equal)

/-- JG (R257): jump when CI = GREATER. -/
def execJg (a : Addr) (s : State) : Result :=
  jump ⟨39, 6⟩ a s (s.ci == .greater)

/-- JGE (R258): jump when CI ≠ LESS. -/
def execJge (a : Addr) (s : State) : Result :=
  jump ⟨39, 7⟩ a s (s.ci != .less)

/-- JNE (R259): jump when CI ≠ EQUAL. -/
def execJne (a : Addr) (s : State) : Result :=
  jump ⟨39, 8⟩ a s (s.ci != .equal)

/-- JLE (R260): jump when CI ≠ GREATER. -/
def execJle (a : Addr) (s : State) : Result :=
  jump ⟨39, 9⟩ a s (s.ci != .greater)

/-- JAN (R270): jump when rA is negative. -/
def execJan (a : Addr) (s : State) : Result :=
  jump ⟨40, 0⟩ a s (isNegative s.rA.val)

/-- JAZ (R271): jump when rA is zero. -/
def execJaz (a : Addr) (s : State) : Result :=
  jump ⟨40, 1⟩ a s (isZero s.rA.val)

/-- JAP (R272): jump when rA is positive. -/
def execJap (a : Addr) (s : State) : Result :=
  jump ⟨40, 2⟩ a s (isPositive s.rA.val)

/-- JANN (R273): jump when rA is nonnegative. -/
def execJann (a : Addr) (s : State) : Result :=
  jump ⟨40, 3⟩ a s (isNonnegative s.rA.val)

/-- JANZ (R274): jump when rA is nonzero. -/
def execJanz (a : Addr) (s : State) : Result :=
  jump ⟨40, 4⟩ a s (isNonzero s.rA.val)

/-- JANP (R275): jump when rA is nonpositive. -/
def execJanp (a : Addr) (s : State) : Result :=
  jump ⟨40, 5⟩ a s (isNonpositive s.rA.val)

/-- JAE (R318): jump when rA is even. -/
def execJae (a : Addr) (s : State) : Result :=
  jumpParity ⟨40, 6⟩ a s s.rA 0

/-- JAO (R319): jump when rA is odd. -/
def execJao (a : Addr) (s : State) : Result :=
  jumpParity ⟨40, 7⟩ a s s.rA 1

/-- J1N (R276): jump when rI1 is negative. -/
def execJ1n (a : Addr) (s : State) : Result :=
  jump ⟨41, 0⟩ a s (isNegative s.rI1.val)

/-- J1Z (R277): jump when rI1 is zero. -/
def execJ1z (a : Addr) (s : State) : Result :=
  jump ⟨41, 1⟩ a s (isZero s.rI1.val)

/-- J1P (R278): jump when rI1 is positive. -/
def execJ1p (a : Addr) (s : State) : Result :=
  jump ⟨41, 2⟩ a s (isPositive s.rI1.val)

/-- J1NN (R279): jump when rI1 is nonnegative. -/
def execJ1nn (a : Addr) (s : State) : Result :=
  jump ⟨41, 3⟩ a s (isNonnegative s.rI1.val)

/-- J1NZ (R280): jump when rI1 is nonzero. -/
def execJ1nz (a : Addr) (s : State) : Result :=
  jump ⟨41, 4⟩ a s (isNonzero s.rI1.val)

/-- J1NP (R281): jump when rI1 is nonpositive. -/
def execJ1np (a : Addr) (s : State) : Result :=
  jump ⟨41, 5⟩ a s (isNonpositive s.rI1.val)

/-- J2N (R282): jump when rI2 is negative. -/
def execJ2n (a : Addr) (s : State) : Result :=
  jump ⟨42, 0⟩ a s (isNegative s.rI2.val)

/-- J2Z (R283): jump when rI2 is zero. -/
def execJ2z (a : Addr) (s : State) : Result :=
  jump ⟨42, 1⟩ a s (isZero s.rI2.val)

/-- J2P (R284): jump when rI2 is positive. -/
def execJ2p (a : Addr) (s : State) : Result :=
  jump ⟨42, 2⟩ a s (isPositive s.rI2.val)

/-- J2NN (R285): jump when rI2 is nonnegative. -/
def execJ2nn (a : Addr) (s : State) : Result :=
  jump ⟨42, 3⟩ a s (isNonnegative s.rI2.val)

/-- J2NZ (R286): jump when rI2 is nonzero. -/
def execJ2nz (a : Addr) (s : State) : Result :=
  jump ⟨42, 4⟩ a s (isNonzero s.rI2.val)

/-- J2NP (R287): jump when rI2 is nonpositive. -/
def execJ2np (a : Addr) (s : State) : Result :=
  jump ⟨42, 5⟩ a s (isNonpositive s.rI2.val)

/-- J3N (R288): jump when rI3 is negative. -/
def execJ3n (a : Addr) (s : State) : Result :=
  jump ⟨43, 0⟩ a s (isNegative s.rI3.val)

/-- J3Z (R289): jump when rI3 is zero. -/
def execJ3z (a : Addr) (s : State) : Result :=
  jump ⟨43, 1⟩ a s (isZero s.rI3.val)

/-- J3P (R290): jump when rI3 is positive. -/
def execJ3p (a : Addr) (s : State) : Result :=
  jump ⟨43, 2⟩ a s (isPositive s.rI3.val)

/-- J3NN (R291): jump when rI3 is nonnegative. -/
def execJ3nn (a : Addr) (s : State) : Result :=
  jump ⟨43, 3⟩ a s (isNonnegative s.rI3.val)

/-- J3NZ (R292): jump when rI3 is nonzero. -/
def execJ3nz (a : Addr) (s : State) : Result :=
  jump ⟨43, 4⟩ a s (isNonzero s.rI3.val)

/-- J3NP (R293): jump when rI3 is nonpositive. -/
def execJ3np (a : Addr) (s : State) : Result :=
  jump ⟨43, 5⟩ a s (isNonpositive s.rI3.val)

/-- J4N (R294): jump when rI4 is negative. -/
def execJ4n (a : Addr) (s : State) : Result :=
  jump ⟨44, 0⟩ a s (isNegative s.rI4.val)

/-- J4Z (R295): jump when rI4 is zero. -/
def execJ4z (a : Addr) (s : State) : Result :=
  jump ⟨44, 1⟩ a s (isZero s.rI4.val)

/-- J4P (R296): jump when rI4 is positive. -/
def execJ4p (a : Addr) (s : State) : Result :=
  jump ⟨44, 2⟩ a s (isPositive s.rI4.val)

/-- J4NN (R297): jump when rI4 is nonnegative. -/
def execJ4nn (a : Addr) (s : State) : Result :=
  jump ⟨44, 3⟩ a s (isNonnegative s.rI4.val)

/-- J4NZ (R298): jump when rI4 is nonzero. -/
def execJ4nz (a : Addr) (s : State) : Result :=
  jump ⟨44, 4⟩ a s (isNonzero s.rI4.val)

/-- J4NP (R299): jump when rI4 is nonpositive. -/
def execJ4np (a : Addr) (s : State) : Result :=
  jump ⟨44, 5⟩ a s (isNonpositive s.rI4.val)

/-- J5N (R300): jump when rI5 is negative. -/
def execJ5n (a : Addr) (s : State) : Result :=
  jump ⟨45, 0⟩ a s (isNegative s.rI5.val)

/-- J5Z (R301): jump when rI5 is zero. -/
def execJ5z (a : Addr) (s : State) : Result :=
  jump ⟨45, 1⟩ a s (isZero s.rI5.val)

/-- J5P (R302): jump when rI5 is positive. -/
def execJ5p (a : Addr) (s : State) : Result :=
  jump ⟨45, 2⟩ a s (isPositive s.rI5.val)

/-- J5NN (R303): jump when rI5 is nonnegative. -/
def execJ5nn (a : Addr) (s : State) : Result :=
  jump ⟨45, 3⟩ a s (isNonnegative s.rI5.val)

/-- J5NZ (R304): jump when rI5 is nonzero. -/
def execJ5nz (a : Addr) (s : State) : Result :=
  jump ⟨45, 4⟩ a s (isNonzero s.rI5.val)

/-- J5NP (R305): jump when rI5 is nonpositive. -/
def execJ5np (a : Addr) (s : State) : Result :=
  jump ⟨45, 5⟩ a s (isNonpositive s.rI5.val)

/-- J6N (R306): jump when rI6 is negative. -/
def execJ6n (a : Addr) (s : State) : Result :=
  jump ⟨46, 0⟩ a s (isNegative s.rI6.val)

/-- J6Z (R307): jump when rI6 is zero. -/
def execJ6z (a : Addr) (s : State) : Result :=
  jump ⟨46, 1⟩ a s (isZero s.rI6.val)

/-- J6P (R308): jump when rI6 is positive. -/
def execJ6p (a : Addr) (s : State) : Result :=
  jump ⟨46, 2⟩ a s (isPositive s.rI6.val)

/-- J6NN (R309): jump when rI6 is nonnegative. -/
def execJ6nn (a : Addr) (s : State) : Result :=
  jump ⟨46, 3⟩ a s (isNonnegative s.rI6.val)

/-- J6NZ (R310): jump when rI6 is nonzero. -/
def execJ6nz (a : Addr) (s : State) : Result :=
  jump ⟨46, 4⟩ a s (isNonzero s.rI6.val)

/-- J6NP (R311): jump when rI6 is nonpositive. -/
def execJ6np (a : Addr) (s : State) : Result :=
  jump ⟨46, 5⟩ a s (isNonpositive s.rI6.val)

/-- JXN (R312): jump when rX is negative. -/
def execJxn (a : Addr) (s : State) : Result :=
  jump ⟨47, 0⟩ a s (isNegative s.rX.val)

/-- JXZ (R313): jump when rX is zero. -/
def execJxz (a : Addr) (s : State) : Result :=
  jump ⟨47, 1⟩ a s (isZero s.rX.val)

/-- JXP (R314): jump when rX is positive. -/
def execJxp (a : Addr) (s : State) : Result :=
  jump ⟨47, 2⟩ a s (isPositive s.rX.val)

/-- JXNN (R315): jump when rX is nonnegative. -/
def execJxnn (a : Addr) (s : State) : Result :=
  jump ⟨47, 3⟩ a s (isNonnegative s.rX.val)

/-- JXNZ (R316): jump when rX is nonzero. -/
def execJxnz (a : Addr) (s : State) : Result :=
  jump ⟨47, 4⟩ a s (isNonzero s.rX.val)

/-- JXNP (R317): jump when rX is nonpositive. -/
def execJxnp (a : Addr) (s : State) : Result :=
  jump ⟨47, 5⟩ a s (isNonpositive s.rX.val)

/-- JXE (R320): jump when rX is even. -/
def execJxe (a : Addr) (s : State) : Result :=
  jumpParity ⟨47, 6⟩ a s s.rX 0

/-- JXO (R321): jump when rX is odd. -/
def execJxo (a : Addr) (s : State) : Result :=
  jumpParity ⟨47, 7⟩ a s s.rX 1

end Sys2Proof.Machine
end

