-- ==== Sys2Proof/Machine/LoadStore.lean ====
section
/-! DEFINITION. Loads, negated loads and stores (41_load_store.md). -/

namespace Sys2Proof.Machine

/-- Load (R140): `field(CONTENTS(M), L, R)` handed to the register's write `put`. -/
def load (c : Byte) (f : Field) (a : Addr) (s : State) (put : Word → Rule) : Result :=
  performField c f a s fun m => withWord s m fun w => put (field w f)

/-- Negated load (R141): as a load, the sign inverted before the write. -/
def loadNegated (c : Byte) (f : Field) (a : Addr) (s : State) (put : Word → Rule) : Result :=
  performField c f a s fun m => withWord s m fun w => put (negated (field w f))

/-- Store (R142): CONTENTS(M) ← `setfield(CONTENTS(M), L, R, src)`. -/
def store (c : Byte) (f : Field) (a : Addr) (s : State) (src : Word) : Result :=
  performField c f a s fun m => withWord s m fun w => done (s.store m (setfield w f src))

/-- LDA (R143): load rA. -/
def execLda (a : Addr) (f : Field) (s : State) : Result :=
  load 8 f a s (putA s)

/-- LD1 (R144): load rI1, IndexOverflow when it does not fit. -/
def execLd1 (a : Addr) (f : Field) (s : State) : Result :=
  load 9 f a s (putIndex .i1 s)

/-- LD2 (R145): load rI2, IndexOverflow when it does not fit. -/
def execLd2 (a : Addr) (f : Field) (s : State) : Result :=
  load 10 f a s (putIndex .i2 s)

/-- LD3 (R146): load rI3, IndexOverflow when it does not fit. -/
def execLd3 (a : Addr) (f : Field) (s : State) : Result :=
  load 11 f a s (putIndex .i3 s)

/-- LD4 (R147): load rI4, IndexOverflow when it does not fit. -/
def execLd4 (a : Addr) (f : Field) (s : State) : Result :=
  load 12 f a s (putIndex .i4 s)

/-- LD5 (R148): load rI5, IndexOverflow when it does not fit. -/
def execLd5 (a : Addr) (f : Field) (s : State) : Result :=
  load 13 f a s (putIndex .i5 s)

/-- LD6 (R149): load rI6, IndexOverflow when it does not fit. -/
def execLd6 (a : Addr) (f : Field) (s : State) : Result :=
  load 14 f a s (putIndex .i6 s)

/-- LDX (R150): load rX. -/
def execLdx (a : Addr) (f : Field) (s : State) : Result :=
  load 15 f a s (putX s)

/-- LDAN (R151): negated load of rA. -/
def execLdan (a : Addr) (f : Field) (s : State) : Result :=
  loadNegated 16 f a s (putA s)

/-- LD1N (R152): negated load of rI1, IndexOverflow when it does not fit. -/
def execLd1n (a : Addr) (f : Field) (s : State) : Result :=
  loadNegated 17 f a s (putIndex .i1 s)

/-- LD2N (R153): negated load of rI2, IndexOverflow when it does not fit. -/
def execLd2n (a : Addr) (f : Field) (s : State) : Result :=
  loadNegated 18 f a s (putIndex .i2 s)

/-- LD3N (R154): negated load of rI3, IndexOverflow when it does not fit. -/
def execLd3n (a : Addr) (f : Field) (s : State) : Result :=
  loadNegated 19 f a s (putIndex .i3 s)

/-- LD4N (R155): negated load of rI4, IndexOverflow when it does not fit. -/
def execLd4n (a : Addr) (f : Field) (s : State) : Result :=
  loadNegated 20 f a s (putIndex .i4 s)

/-- LD5N (R156): negated load of rI5, IndexOverflow when it does not fit. -/
def execLd5n (a : Addr) (f : Field) (s : State) : Result :=
  loadNegated 21 f a s (putIndex .i5 s)

/-- LD6N (R157): negated load of rI6, IndexOverflow when it does not fit. -/
def execLd6n (a : Addr) (f : Field) (s : State) : Result :=
  loadNegated 22 f a s (putIndex .i6 s)

/-- LDXN (R158): negated load of rX. -/
def execLdxn (a : Addr) (f : Field) (s : State) : Result :=
  loadNegated 23 f a s (putX s)

/-- STA (R159): store rA. -/
def execSta (a : Addr) (f : Field) (s : State) : Result :=
  store 24 f a s s.rA

/-- ST1 (R160): store rI1, seen as a Word. -/
def execSt1 (a : Addr) (f : Field) (s : State) : Result :=
  store 25 f a s s.rI1.asWord

/-- ST2 (R161): store rI2, seen as a Word. -/
def execSt2 (a : Addr) (f : Field) (s : State) : Result :=
  store 26 f a s s.rI2.asWord

/-- ST3 (R162): store rI3, seen as a Word. -/
def execSt3 (a : Addr) (f : Field) (s : State) : Result :=
  store 27 f a s s.rI3.asWord

/-- ST4 (R163): store rI4, seen as a Word. -/
def execSt4 (a : Addr) (f : Field) (s : State) : Result :=
  store 28 f a s s.rI4.asWord

/-- ST5 (R164): store rI5, seen as a Word. -/
def execSt5 (a : Addr) (f : Field) (s : State) : Result :=
  store 29 f a s s.rI5.asWord

/-- ST6 (R165): store rI6, seen as a Word. -/
def execSt6 (a : Addr) (f : Field) (s : State) : Result :=
  store 30 f a s s.rI6.asWord

/-- STX (R166): store rX. -/
def execStx (a : Addr) (f : Field) (s : State) : Result :=
  store 31 f a s s.rX

/-- STJ (R167): store rJ, seen as a Word. -/
def execStj (a : Addr) (f : Field) (s : State) : Result :=
  store 32 f a s s.rJ.asWord

/-- STZ (R168): store +0. -/
def execStz (a : Addr) (f : Field) (s : State) : Result :=
  store 33 f a s Word.plusZero

end Sys2Proof.Machine
end

