-- ==== Sys2Proof/Machine/Shift.lean ====
section
/-! DEFINITION. Shifts (43_shift.md). -/

namespace Sys2Proof.Machine

/-- The count of a shift (R210): NegativeShift(M) for M < 0, else the rest of the rule with M. -/
def withCount (m : Int) (k : Nat → Rule) : Rule := if m < 0 then raise .negativeShift m else k m.toNat

/-- A shift of rA: its bytes become `t M`, its sign stays (R211, R212). -/
def shiftA (op : OpCode) (a : Addr) (s : State) (t : Nat → Nat → Byte) : Result :=
  perform op a s fun m _ => withCount m fun n =>
    done { s with rA := Word.ofBytes s.rA.sign (t n) }

/-- A shift of rAX: its ten bytes become `t M`, both signs stay (R213..R216). -/
def shiftPair (op : OpCode) (a : Addr) (s : State) (t : Nat → Nat → Byte) : Result :=
  perform op a s fun m _ => withCount m fun n => done (s.setPair (t n))

/-- A binary shift of rAX: the pair's magnitude becomes `d M`, both signs stay (R219, R220). -/
def shiftBits (op : OpCode) (a : Addr) (s : State) (d : Nat → Nat) : Result :=
  performExt op a s fun m => withCount m fun n => done (s.setPairMag (d n))

/-- SLA (R211): shift left rA. -/
def execSla (a : Addr) (s : State) : Result :=
  shiftA ⟨6, 0⟩ a s fun n => shiftLeft 5 n s.rA.byte

/-- SRA (R212): shift right rA. -/
def execSra (a : Addr) (s : State) : Result :=
  shiftA ⟨6, 1⟩ a s fun n => shiftRight n s.rA.byte

/-- SLAX (R213): shift left rAX. -/
def execSlax (a : Addr) (s : State) : Result :=
  shiftPair ⟨6, 2⟩ a s fun n => shiftLeft 10 n (pairByte s.rA s.rX)

/-- SRAX (R214): shift right rAX. -/
def execSrax (a : Addr) (s : State) : Result :=
  shiftPair ⟨6, 3⟩ a s fun n => shiftRight n (pairByte s.rA s.rX)

/-- SLC (R215): shift left rAX circularly. -/
def execSlc (a : Addr) (s : State) : Result :=
  shiftPair ⟨6, 4⟩ a s fun n => rotateLeft n (pairByte s.rA s.rX)

/-- SRC (R216): shift right rAX circularly. -/
def execSrc (a : Addr) (s : State) : Result :=
  shiftPair ⟨6, 5⟩ a s fun n => rotateRight n (pairByte s.rA s.rX)

/-- SLB (R219): shift left rAX binary; D is a 60-bit number. -/
def execSlb (a : Addr) (s : State) : Result :=
  shiftBits ⟨6, 6⟩ a s fun n => s.pairMag * 2 ^ n % 2 ^ 60

/-- SRB (R220): shift right rAX binary. -/
def execSrb (a : Addr) (s : State) : Result :=
  shiftBits ⟨6, 7⟩ a s fun n => s.pairMag / 2 ^ n

end Sys2Proof.Machine
end

