-- ==== Sys2Proof/Machine/Special.lean ====
section
/-! DEFINITION. NUM, CHAR and MOVE (49_special.md). -/

namespace Sys2Proof.Machine

/-- NUM's writes (R440): rA ← word(rA.s, n mod W), and OV on when n ≥ W and NUM_SETS_OVERFLOW. -/
def numWrites (s : State) (n : Nat) : State :=
  { s with
    rA := Word.ofMag s.rA.sign (n % W)
    ov := s.ov || (s.cfg.numSetsOverflow && decide (W ≤ n)) }

/-- MOVE's writes (R442): `n` words from `a` to `d`, low to high, and rI1 ← d + n with sign +. -/
def moveWrites (s : State) (a d n : Nat) : State :=
  { s with mem := s.mem.move a d n, rI1 := Register2.ofMag .plus (d + n) }

/-- NUM (R440): the decimal digits of rAX as a number in rA. -/
def execNum (a : Addr) (s : State) : Result :=
  perform ⟨5, 0⟩ a s fun _ _ => done (numWrites s (decimalValue (pairByte s.rA s.rX)))

/-- CHAR (R441): the digits of rA as ten character codes in rAX. -/
def execChar (a : Addr) (s : State) : Result :=
  perform ⟨5, 1⟩ a s fun _ _ => done (s.setPair (digitCode s.rA.mag))

/-- MOVE (R442): F words from M to val(rI1); the bounds in the order of R464, all before the first write. -/
def execMove (a : Addr) (n : Byte) (s : State) : Result :=
  perform ⟨7, n⟩ a s fun m _ =>
    if ¬ InMemory m then raise .memBounds m
    else if n.val = 0 then done s
    else if m + n.val - 1 > 3999 then raise .memBounds (m + n.val - 1)
    else if s.rI1.val < 0 ∨ s.rI1.val + n.val - 1 > 3999 then raise .memBounds s.rI1.val
    else done (moveWrites s m.toNat s.rI1.val.toNat n.val)

end Sys2Proof.Machine
end

