-- ==== Sys2Proof/WellFormed.lean ====
section
/-! DEFINITION. Which terms of Instr are instructions: those whose field specification is one of the 21
valid ones of 10_state.md R40 (30_encoding.md R116). Every other operand of Instr is in range by its
type: a unit number 21..63 decodes and raises DeviceBounds (47_io.md R380). -/

namespace Sys2Proof

/-- The field specification an instruction carries, if its F has that role (R104). -/
def Instr.field? : Instr → Option Field
  | .nop _ _ => none
  | .add _ f => some f
  | .fadd _ => none
  | .sub _ f => some f
  | .fsub _ => none
  | .mul _ f => some f
  | .fmul _ => none
  | .div _ f => some f
  | .fdiv _ => none
  | .num _ => none
  | .char _ => none
  | .hlt _ => none
  | .flot _ => none
  | .fix _ => none
  | .sla _ => none
  | .sra _ => none
  | .slax _ => none
  | .srax _ => none
  | .slc _ => none
  | .src _ => none
  | .slb _ => none
  | .srb _ => none
  | .move _ _ => none
  | .lda _ f => some f
  | .ld1 _ f => some f
  | .ld2 _ f => some f
  | .ld3 _ f => some f
  | .ld4 _ f => some f
  | .ld5 _ f => some f
  | .ld6 _ f => some f
  | .ldx _ f => some f
  | .ldan _ f => some f
  | .ld1n _ f => some f
  | .ld2n _ f => some f
  | .ld3n _ f => some f
  | .ld4n _ f => some f
  | .ld5n _ f => some f
  | .ld6n _ f => some f
  | .ldxn _ f => some f
  | .sta _ f => some f
  | .st1 _ f => some f
  | .st2 _ f => some f
  | .st3 _ f => some f
  | .st4 _ f => some f
  | .st5 _ f => some f
  | .st6 _ f => some f
  | .stx _ f => some f
  | .stj _ f => some f
  | .stz _ f => some f
  | .jbus _ _ => none
  | .ioc _ _ => none
  | .ioIn _ _ => none
  | .ioOut _ _ => none
  | .jred _ _ => none
  | .jmp _ => none
  | .jsj _ => none
  | .jov _ => none
  | .jnov _ => none
  | .jl _ => none
  | .je _ => none
  | .jg _ => none
  | .jge _ => none
  | .jne _ => none
  | .jle _ => none
  | .jan _ => none
  | .jaz _ => none
  | .jap _ => none
  | .jann _ => none
  | .janz _ => none
  | .janp _ => none
  | .jae _ => none
  | .jao _ => none
  | .j1n _ => none
  | .j1z _ => none
  | .j1p _ => none
  | .j1nn _ => none
  | .j1nz _ => none
  | .j1np _ => none
  | .j2n _ => none
  | .j2z _ => none
  | .j2p _ => none
  | .j2nn _ => none
  | .j2nz _ => none
  | .j2np _ => none
  | .j3n _ => none
  | .j3z _ => none
  | .j3p _ => none
  | .j3nn _ => none
  | .j3nz _ => none
  | .j3np _ => none
  | .j4n _ => none
  | .j4z _ => none
  | .j4p _ => none
  | .j4nn _ => none
  | .j4nz _ => none
  | .j4np _ => none
  | .j5n _ => none
  | .j5z _ => none
  | .j5p _ => none
  | .j5nn _ => none
  | .j5nz _ => none
  | .j5np _ => none
  | .j6n _ => none
  | .j6z _ => none
  | .j6p _ => none
  | .j6nn _ => none
  | .j6nz _ => none
  | .j6np _ => none
  | .jxn _ => none
  | .jxz _ => none
  | .jxp _ => none
  | .jxnn _ => none
  | .jxnz _ => none
  | .jxnp _ => none
  | .jxe _ => none
  | .jxo _ => none
  | .inca _ => none
  | .deca _ => none
  | .enta _ => none
  | .enna _ => none
  | .inc1 _ => none
  | .dec1 _ => none
  | .ent1 _ => none
  | .enn1 _ => none
  | .inc2 _ => none
  | .dec2 _ => none
  | .ent2 _ => none
  | .enn2 _ => none
  | .inc3 _ => none
  | .dec3 _ => none
  | .ent3 _ => none
  | .enn3 _ => none
  | .inc4 _ => none
  | .dec4 _ => none
  | .ent4 _ => none
  | .enn4 _ => none
  | .inc5 _ => none
  | .dec5 _ => none
  | .ent5 _ => none
  | .enn5 _ => none
  | .inc6 _ => none
  | .dec6 _ => none
  | .ent6 _ => none
  | .enn6 _ => none
  | .incx _ => none
  | .decx _ => none
  | .entx _ => none
  | .ennx _ => none
  | .cmpa _ f => some f
  | .fcmp _ => none
  | .cmp1 _ f => some f
  | .cmp2 _ f => some f
  | .cmp3 _ f => some f
  | .cmp4 _ f => some f
  | .cmp5 _ f => some f
  | .cmp6 _ f => some f
  | .cmpx _ f => some f

/-- The six binary extensions, which exist only with EXT_BINARY_OPS (R115, decision D34). -/
def Instr.isBinaryExt : Instr → Bool
  | .nop _ _ => false
  | .add _ _ => false
  | .fadd _ => false
  | .sub _ _ => false
  | .fsub _ => false
  | .mul _ _ => false
  | .fmul _ => false
  | .div _ _ => false
  | .fdiv _ => false
  | .num _ => false
  | .char _ => false
  | .hlt _ => false
  | .flot _ => false
  | .fix _ => false
  | .sla _ => false
  | .sra _ => false
  | .slax _ => false
  | .srax _ => false
  | .slc _ => false
  | .src _ => false
  | .slb _ => true
  | .srb _ => true
  | .move _ _ => false
  | .lda _ _ => false
  | .ld1 _ _ => false
  | .ld2 _ _ => false
  | .ld3 _ _ => false
  | .ld4 _ _ => false
  | .ld5 _ _ => false
  | .ld6 _ _ => false
  | .ldx _ _ => false
  | .ldan _ _ => false
  | .ld1n _ _ => false
  | .ld2n _ _ => false
  | .ld3n _ _ => false
  | .ld4n _ _ => false
  | .ld5n _ _ => false
  | .ld6n _ _ => false
  | .ldxn _ _ => false
  | .sta _ _ => false
  | .st1 _ _ => false
  | .st2 _ _ => false
  | .st3 _ _ => false
  | .st4 _ _ => false
  | .st5 _ _ => false
  | .st6 _ _ => false
  | .stx _ _ => false
  | .stj _ _ => false
  | .stz _ _ => false
  | .jbus _ _ => false
  | .ioc _ _ => false
  | .ioIn _ _ => false
  | .ioOut _ _ => false
  | .jred _ _ => false
  | .jmp _ => false
  | .jsj _ => false
  | .jov _ => false
  | .jnov _ => false
  | .jl _ => false
  | .je _ => false
  | .jg _ => false
  | .jge _ => false
  | .jne _ => false
  | .jle _ => false
  | .jan _ => false
  | .jaz _ => false
  | .jap _ => false
  | .jann _ => false
  | .janz _ => false
  | .janp _ => false
  | .jae _ => true
  | .jao _ => true
  | .j1n _ => false
  | .j1z _ => false
  | .j1p _ => false
  | .j1nn _ => false
  | .j1nz _ => false
  | .j1np _ => false
  | .j2n _ => false
  | .j2z _ => false
  | .j2p _ => false
  | .j2nn _ => false
  | .j2nz _ => false
  | .j2np _ => false
  | .j3n _ => false
  | .j3z _ => false
  | .j3p _ => false
  | .j3nn _ => false
  | .j3nz _ => false
  | .j3np _ => false
  | .j4n _ => false
  | .j4z _ => false
  | .j4p _ => false
  | .j4nn _ => false
  | .j4nz _ => false
  | .j4np _ => false
  | .j5n _ => false
  | .j5z _ => false
  | .j5p _ => false
  | .j5nn _ => false
  | .j5nz _ => false
  | .j5np _ => false
  | .j6n _ => false
  | .j6z _ => false
  | .j6p _ => false
  | .j6nn _ => false
  | .j6nz _ => false
  | .j6np _ => false
  | .jxn _ => false
  | .jxz _ => false
  | .jxp _ => false
  | .jxnn _ => false
  | .jxnz _ => false
  | .jxnp _ => false
  | .jxe _ => true
  | .jxo _ => true
  | .inca _ => false
  | .deca _ => false
  | .enta _ => false
  | .enna _ => false
  | .inc1 _ => false
  | .dec1 _ => false
  | .ent1 _ => false
  | .enn1 _ => false
  | .inc2 _ => false
  | .dec2 _ => false
  | .ent2 _ => false
  | .enn2 _ => false
  | .inc3 _ => false
  | .dec3 _ => false
  | .ent3 _ => false
  | .enn3 _ => false
  | .inc4 _ => false
  | .dec4 _ => false
  | .ent4 _ => false
  | .enn4 _ => false
  | .inc5 _ => false
  | .dec5 _ => false
  | .ent5 _ => false
  | .enn5 _ => false
  | .inc6 _ => false
  | .dec6 _ => false
  | .ent6 _ => false
  | .enn6 _ => false
  | .incx _ => false
  | .decx _ => false
  | .entx _ => false
  | .ennx _ => false
  | .cmpa _ _ => false
  | .fcmp _ => false
  | .cmp1 _ _ => false
  | .cmp2 _ _ => false
  | .cmp3 _ _ => false
  | .cmp4 _ _ => false
  | .cmp5 _ _ => false
  | .cmp6 _ _ => false
  | .cmpx _ _ => false

/-- The well-formed instructions: a field specification, where there is one, is valid (R116). -/
def Instr.wf (i : Instr) : Bool :=
  match i.field? with
  | some f => f.valid
  | none => true

end Sys2Proof
end

