-- ==== Sys2Proof/Decode.lean ====
section
/-! DEFINITION. The decoder of 30_encoding.md (R100..R119), total on every Word and rejecting by name, and
the encoder written from the same opcode map. An instruction is one Word (R106). -/

namespace Sys2Proof

/-- Why a word is no instruction (R117): its (C, F) names no kind, or its index specifier is 7..63. The
first is found before the second (60_exceptions.md R464). -/
inductive DecodeError where
  | opcode (op : OpCode)
  | index (op : OpCode) (i : Byte)
deriving DecidableEq, Repr

/-- A kind whose F is a field specification exists only for a valid one (R116). -/
def fieldRole (k : Addr → Field → Instr) (f : Byte) : Option (Addr → Instr) :=
  if (Field.ofByte f).valid then some (k · (Field.ofByte f)) else none

/-- A binary extension exists only when EXT_BINARY_OPS is true (R115, R117, decision D34). -/
def binaryExt (ext : Bool) (k : Addr → Instr) : Option (Addr → Instr) := if ext then some k else none

/-- `DECODE(C, F)`, the opcode map of R119 (R115..R118); `ext` is the parameter EXT_BINARY_OPS. -/
def decodeKind (ext : Bool) (c f : Byte) : Option (Addr → Instr) :=
  match c.val with
  | 0 => some (.nop · f)
  | 1 => match f.val with
    | 6 => some .fadd
    | _ => fieldRole .add f
  | 2 => match f.val with
    | 6 => some .fsub
    | _ => fieldRole .sub f
  | 3 => match f.val with
    | 6 => some .fmul
    | _ => fieldRole .mul f
  | 4 => match f.val with
    | 6 => some .fdiv
    | _ => fieldRole .div f
  | 5 => match f.val with
    | 0 => some .num
    | 1 => some .char
    | 2 => some .hlt
    | 6 => some .flot
    | 7 => some .fix
    | _ => none
  | 6 => match f.val with
    | 0 => some .sla
    | 1 => some .sra
    | 2 => some .slax
    | 3 => some .srax
    | 4 => some .slc
    | 5 => some .src
    | 6 => binaryExt ext .slb
    | 7 => binaryExt ext .srb
    | _ => none
  | 7 => some (.move · f)
  | 8 => fieldRole .lda f
  | 9 => fieldRole .ld1 f
  | 10 => fieldRole .ld2 f
  | 11 => fieldRole .ld3 f
  | 12 => fieldRole .ld4 f
  | 13 => fieldRole .ld5 f
  | 14 => fieldRole .ld6 f
  | 15 => fieldRole .ldx f
  | 16 => fieldRole .ldan f
  | 17 => fieldRole .ld1n f
  | 18 => fieldRole .ld2n f
  | 19 => fieldRole .ld3n f
  | 20 => fieldRole .ld4n f
  | 21 => fieldRole .ld5n f
  | 22 => fieldRole .ld6n f
  | 23 => fieldRole .ldxn f
  | 24 => fieldRole .sta f
  | 25 => fieldRole .st1 f
  | 26 => fieldRole .st2 f
  | 27 => fieldRole .st3 f
  | 28 => fieldRole .st4 f
  | 29 => fieldRole .st5 f
  | 30 => fieldRole .st6 f
  | 31 => fieldRole .stx f
  | 32 => fieldRole .stj f
  | 33 => fieldRole .stz f
  | 34 => some (.jbus · f)
  | 35 => some (.ioc · f)
  | 36 => some (.ioIn · f)
  | 37 => some (.ioOut · f)
  | 38 => some (.jred · f)
  | 39 => match f.val with
    | 0 => some .jmp
    | 1 => some .jsj
    | 2 => some .jov
    | 3 => some .jnov
    | 4 => some .jl
    | 5 => some .je
    | 6 => some .jg
    | 7 => some .jge
    | 8 => some .jne
    | 9 => some .jle
    | _ => none
  | 40 => match f.val with
    | 0 => some .jan
    | 1 => some .jaz
    | 2 => some .jap
    | 3 => some .jann
    | 4 => some .janz
    | 5 => some .janp
    | 6 => binaryExt ext .jae
    | 7 => binaryExt ext .jao
    | _ => none
  | 41 => match f.val with
    | 0 => some .j1n
    | 1 => some .j1z
    | 2 => some .j1p
    | 3 => some .j1nn
    | 4 => some .j1nz
    | 5 => some .j1np
    | _ => none
  | 42 => match f.val with
    | 0 => some .j2n
    | 1 => some .j2z
    | 2 => some .j2p
    | 3 => some .j2nn
    | 4 => some .j2nz
    | 5 => some .j2np
    | _ => none
  | 43 => match f.val with
    | 0 => some .j3n
    | 1 => some .j3z
    | 2 => some .j3p
    | 3 => some .j3nn
    | 4 => some .j3nz
    | 5 => some .j3np
    | _ => none
  | 44 => match f.val with
    | 0 => some .j4n
    | 1 => some .j4z
    | 2 => some .j4p
    | 3 => some .j4nn
    | 4 => some .j4nz
    | 5 => some .j4np
    | _ => none
  | 45 => match f.val with
    | 0 => some .j5n
    | 1 => some .j5z
    | 2 => some .j5p
    | 3 => some .j5nn
    | 4 => some .j5nz
    | 5 => some .j5np
    | _ => none
  | 46 => match f.val with
    | 0 => some .j6n
    | 1 => some .j6z
    | 2 => some .j6p
    | 3 => some .j6nn
    | 4 => some .j6nz
    | 5 => some .j6np
    | _ => none
  | 47 => match f.val with
    | 0 => some .jxn
    | 1 => some .jxz
    | 2 => some .jxp
    | 3 => some .jxnn
    | 4 => some .jxnz
    | 5 => some .jxnp
    | 6 => binaryExt ext .jxe
    | 7 => binaryExt ext .jxo
    | _ => none
  | 48 => match f.val with
    | 0 => some .inca
    | 1 => some .deca
    | 2 => some .enta
    | 3 => some .enna
    | _ => none
  | 49 => match f.val with
    | 0 => some .inc1
    | 1 => some .dec1
    | 2 => some .ent1
    | 3 => some .enn1
    | _ => none
  | 50 => match f.val with
    | 0 => some .inc2
    | 1 => some .dec2
    | 2 => some .ent2
    | 3 => some .enn2
    | _ => none
  | 51 => match f.val with
    | 0 => some .inc3
    | 1 => some .dec3
    | 2 => some .ent3
    | 3 => some .enn3
    | _ => none
  | 52 => match f.val with
    | 0 => some .inc4
    | 1 => some .dec4
    | 2 => some .ent4
    | 3 => some .enn4
    | _ => none
  | 53 => match f.val with
    | 0 => some .inc5
    | 1 => some .dec5
    | 2 => some .ent5
    | 3 => some .enn5
    | _ => none
  | 54 => match f.val with
    | 0 => some .inc6
    | 1 => some .dec6
    | 2 => some .ent6
    | 3 => some .enn6
    | _ => none
  | 55 => match f.val with
    | 0 => some .incx
    | 1 => some .decx
    | 2 => some .entx
    | 3 => some .ennx
    | _ => none
  | 56 => match f.val with
    | 6 => some .fcmp
    | _ => fieldRole .cmpa f
  | 57 => fieldRole .cmp1 f
  | 58 => fieldRole .cmp2 f
  | 59 => fieldRole .cmp3 f
  | 60 => fieldRole .cmp4 f
  | 61 => fieldRole .cmp5 f
  | 62 => fieldRole .cmp6 f
  | 63 => fieldRole .cmpx f
  | _ => none

/-- The index specifier I: 0 selects no register, 1..6 select rI1..rI6, 7..63 are illegal (R103). -/
def decodeIndex (i : Byte) : Option (Option IxReg) :=
  match i.val with
  | 0 => some none
  | 1 => some (some .i1)
  | 2 => some (some .i2)
  | 3 => some (some .i3)
  | 4 => some (some .i4)
  | 5 => some (some .i5)
  | 6 => some (some .i6)
  | _ => none

/-- The address magnitude A = b1 × 64 + b2 of a word (R100). -/
def Word.addressMag (w : Word) : Fin 4096 := ⟨w.b1.val * 64 + w.b2.val, by omega⟩

/-- The instruction a word is, for EXT_BINARY_OPS = `ext`, or why it is none. -/
def decode (ext : Bool) (w : Word) : Except DecodeError Instr :=
  match decodeKind ext w.b5 w.b4 with
  | none => .error (.opcode ⟨w.b5, w.b4⟩)
  | some k =>
    match decodeIndex w.b3 with
    | none => .error (.index ⟨w.b5, w.b4⟩ w.b3)
    | some ix => .ok (k ⟨w.sign, w.addressMag, ix⟩)

/-- The instruction the decoder reads from the packed view `w` (R101) of which `nbits` bits are given and
the rest are 0, with every kind of the opcode table present. A packed word has 31 bits. -/
def decodeTableWord (nbits w : Nat) : Option Instr :=
  if w % 2 ^ nbits < 2147483648 then
    match decode true (Word.unpack (w % 2 ^ nbits)) with
    | .ok i => some i
    | .error _ => none
  else none

/-- The opcode byte C and the field byte F of an instruction, by the opcode map of R119. -/
def Instr.code : Instr → OpCode
  | .nop _ f => ⟨0, f⟩
  | .add _ f => ⟨1, f.byte⟩
  | .fadd _ => ⟨1, 6⟩
  | .sub _ f => ⟨2, f.byte⟩
  | .fsub _ => ⟨2, 6⟩
  | .mul _ f => ⟨3, f.byte⟩
  | .fmul _ => ⟨3, 6⟩
  | .div _ f => ⟨4, f.byte⟩
  | .fdiv _ => ⟨4, 6⟩
  | .num _ => ⟨5, 0⟩
  | .char _ => ⟨5, 1⟩
  | .hlt _ => ⟨5, 2⟩
  | .flot _ => ⟨5, 6⟩
  | .fix _ => ⟨5, 7⟩
  | .sla _ => ⟨6, 0⟩
  | .sra _ => ⟨6, 1⟩
  | .slax _ => ⟨6, 2⟩
  | .srax _ => ⟨6, 3⟩
  | .slc _ => ⟨6, 4⟩
  | .src _ => ⟨6, 5⟩
  | .slb _ => ⟨6, 6⟩
  | .srb _ => ⟨6, 7⟩
  | .move _ f => ⟨7, f⟩
  | .lda _ f => ⟨8, f.byte⟩
  | .ld1 _ f => ⟨9, f.byte⟩
  | .ld2 _ f => ⟨10, f.byte⟩
  | .ld3 _ f => ⟨11, f.byte⟩
  | .ld4 _ f => ⟨12, f.byte⟩
  | .ld5 _ f => ⟨13, f.byte⟩
  | .ld6 _ f => ⟨14, f.byte⟩
  | .ldx _ f => ⟨15, f.byte⟩
  | .ldan _ f => ⟨16, f.byte⟩
  | .ld1n _ f => ⟨17, f.byte⟩
  | .ld2n _ f => ⟨18, f.byte⟩
  | .ld3n _ f => ⟨19, f.byte⟩
  | .ld4n _ f => ⟨20, f.byte⟩
  | .ld5n _ f => ⟨21, f.byte⟩
  | .ld6n _ f => ⟨22, f.byte⟩
  | .ldxn _ f => ⟨23, f.byte⟩
  | .sta _ f => ⟨24, f.byte⟩
  | .st1 _ f => ⟨25, f.byte⟩
  | .st2 _ f => ⟨26, f.byte⟩
  | .st3 _ f => ⟨27, f.byte⟩
  | .st4 _ f => ⟨28, f.byte⟩
  | .st5 _ f => ⟨29, f.byte⟩
  | .st6 _ f => ⟨30, f.byte⟩
  | .stx _ f => ⟨31, f.byte⟩
  | .stj _ f => ⟨32, f.byte⟩
  | .stz _ f => ⟨33, f.byte⟩
  | .jbus _ f => ⟨34, f⟩
  | .ioc _ f => ⟨35, f⟩
  | .ioIn _ f => ⟨36, f⟩
  | .ioOut _ f => ⟨37, f⟩
  | .jred _ f => ⟨38, f⟩
  | .jmp _ => ⟨39, 0⟩
  | .jsj _ => ⟨39, 1⟩
  | .jov _ => ⟨39, 2⟩
  | .jnov _ => ⟨39, 3⟩
  | .jl _ => ⟨39, 4⟩
  | .je _ => ⟨39, 5⟩
  | .jg _ => ⟨39, 6⟩
  | .jge _ => ⟨39, 7⟩
  | .jne _ => ⟨39, 8⟩
  | .jle _ => ⟨39, 9⟩
  | .jan _ => ⟨40, 0⟩
  | .jaz _ => ⟨40, 1⟩
  | .jap _ => ⟨40, 2⟩
  | .jann _ => ⟨40, 3⟩
  | .janz _ => ⟨40, 4⟩
  | .janp _ => ⟨40, 5⟩
  | .jae _ => ⟨40, 6⟩
  | .jao _ => ⟨40, 7⟩
  | .j1n _ => ⟨41, 0⟩
  | .j1z _ => ⟨41, 1⟩
  | .j1p _ => ⟨41, 2⟩
  | .j1nn _ => ⟨41, 3⟩
  | .j1nz _ => ⟨41, 4⟩
  | .j1np _ => ⟨41, 5⟩
  | .j2n _ => ⟨42, 0⟩
  | .j2z _ => ⟨42, 1⟩
  | .j2p _ => ⟨42, 2⟩
  | .j2nn _ => ⟨42, 3⟩
  | .j2nz _ => ⟨42, 4⟩
  | .j2np _ => ⟨42, 5⟩
  | .j3n _ => ⟨43, 0⟩
  | .j3z _ => ⟨43, 1⟩
  | .j3p _ => ⟨43, 2⟩
  | .j3nn _ => ⟨43, 3⟩
  | .j3nz _ => ⟨43, 4⟩
  | .j3np _ => ⟨43, 5⟩
  | .j4n _ => ⟨44, 0⟩
  | .j4z _ => ⟨44, 1⟩
  | .j4p _ => ⟨44, 2⟩
  | .j4nn _ => ⟨44, 3⟩
  | .j4nz _ => ⟨44, 4⟩
  | .j4np _ => ⟨44, 5⟩
  | .j5n _ => ⟨45, 0⟩
  | .j5z _ => ⟨45, 1⟩
  | .j5p _ => ⟨45, 2⟩
  | .j5nn _ => ⟨45, 3⟩
  | .j5nz _ => ⟨45, 4⟩
  | .j5np _ => ⟨45, 5⟩
  | .j6n _ => ⟨46, 0⟩
  | .j6z _ => ⟨46, 1⟩
  | .j6p _ => ⟨46, 2⟩
  | .j6nn _ => ⟨46, 3⟩
  | .j6nz _ => ⟨46, 4⟩
  | .j6np _ => ⟨46, 5⟩
  | .jxn _ => ⟨47, 0⟩
  | .jxz _ => ⟨47, 1⟩
  | .jxp _ => ⟨47, 2⟩
  | .jxnn _ => ⟨47, 3⟩
  | .jxnz _ => ⟨47, 4⟩
  | .jxnp _ => ⟨47, 5⟩
  | .jxe _ => ⟨47, 6⟩
  | .jxo _ => ⟨47, 7⟩
  | .inca _ => ⟨48, 0⟩
  | .deca _ => ⟨48, 1⟩
  | .enta _ => ⟨48, 2⟩
  | .enna _ => ⟨48, 3⟩
  | .inc1 _ => ⟨49, 0⟩
  | .dec1 _ => ⟨49, 1⟩
  | .ent1 _ => ⟨49, 2⟩
  | .enn1 _ => ⟨49, 3⟩
  | .inc2 _ => ⟨50, 0⟩
  | .dec2 _ => ⟨50, 1⟩
  | .ent2 _ => ⟨50, 2⟩
  | .enn2 _ => ⟨50, 3⟩
  | .inc3 _ => ⟨51, 0⟩
  | .dec3 _ => ⟨51, 1⟩
  | .ent3 _ => ⟨51, 2⟩
  | .enn3 _ => ⟨51, 3⟩
  | .inc4 _ => ⟨52, 0⟩
  | .dec4 _ => ⟨52, 1⟩
  | .ent4 _ => ⟨52, 2⟩
  | .enn4 _ => ⟨52, 3⟩
  | .inc5 _ => ⟨53, 0⟩
  | .dec5 _ => ⟨53, 1⟩
  | .ent5 _ => ⟨53, 2⟩
  | .enn5 _ => ⟨53, 3⟩
  | .inc6 _ => ⟨54, 0⟩
  | .dec6 _ => ⟨54, 1⟩
  | .ent6 _ => ⟨54, 2⟩
  | .enn6 _ => ⟨54, 3⟩
  | .incx _ => ⟨55, 0⟩
  | .decx _ => ⟨55, 1⟩
  | .entx _ => ⟨55, 2⟩
  | .ennx _ => ⟨55, 3⟩
  | .cmpa _ f => ⟨56, f.byte⟩
  | .fcmp _ => ⟨56, 6⟩
  | .cmp1 _ f => ⟨57, f.byte⟩
  | .cmp2 _ f => ⟨58, f.byte⟩
  | .cmp3 _ f => ⟨59, f.byte⟩
  | .cmp4 _ f => ⟨60, f.byte⟩
  | .cmp5 _ f => ⟨61, f.byte⟩
  | .cmp6 _ f => ⟨62, f.byte⟩
  | .cmpx _ f => ⟨63, f.byte⟩

/-- The address part of an instruction. -/
def Instr.addr : Instr → Addr
  | .nop a _ => a
  | .add a _ => a
  | .fadd a => a
  | .sub a _ => a
  | .fsub a => a
  | .mul a _ => a
  | .fmul a => a
  | .div a _ => a
  | .fdiv a => a
  | .num a => a
  | .char a => a
  | .hlt a => a
  | .flot a => a
  | .fix a => a
  | .sla a => a
  | .sra a => a
  | .slax a => a
  | .srax a => a
  | .slc a => a
  | .src a => a
  | .slb a => a
  | .srb a => a
  | .move a _ => a
  | .lda a _ => a
  | .ld1 a _ => a
  | .ld2 a _ => a
  | .ld3 a _ => a
  | .ld4 a _ => a
  | .ld5 a _ => a
  | .ld6 a _ => a
  | .ldx a _ => a
  | .ldan a _ => a
  | .ld1n a _ => a
  | .ld2n a _ => a
  | .ld3n a _ => a
  | .ld4n a _ => a
  | .ld5n a _ => a
  | .ld6n a _ => a
  | .ldxn a _ => a
  | .sta a _ => a
  | .st1 a _ => a
  | .st2 a _ => a
  | .st3 a _ => a
  | .st4 a _ => a
  | .st5 a _ => a
  | .st6 a _ => a
  | .stx a _ => a
  | .stj a _ => a
  | .stz a _ => a
  | .jbus a _ => a
  | .ioc a _ => a
  | .ioIn a _ => a
  | .ioOut a _ => a
  | .jred a _ => a
  | .jmp a => a
  | .jsj a => a
  | .jov a => a
  | .jnov a => a
  | .jl a => a
  | .je a => a
  | .jg a => a
  | .jge a => a
  | .jne a => a
  | .jle a => a
  | .jan a => a
  | .jaz a => a
  | .jap a => a
  | .jann a => a
  | .janz a => a
  | .janp a => a
  | .jae a => a
  | .jao a => a
  | .j1n a => a
  | .j1z a => a
  | .j1p a => a
  | .j1nn a => a
  | .j1nz a => a
  | .j1np a => a
  | .j2n a => a
  | .j2z a => a
  | .j2p a => a
  | .j2nn a => a
  | .j2nz a => a
  | .j2np a => a
  | .j3n a => a
  | .j3z a => a
  | .j3p a => a
  | .j3nn a => a
  | .j3nz a => a
  | .j3np a => a
  | .j4n a => a
  | .j4z a => a
  | .j4p a => a
  | .j4nn a => a
  | .j4nz a => a
  | .j4np a => a
  | .j5n a => a
  | .j5z a => a
  | .j5p a => a
  | .j5nn a => a
  | .j5nz a => a
  | .j5np a => a
  | .j6n a => a
  | .j6z a => a
  | .j6p a => a
  | .j6nn a => a
  | .j6nz a => a
  | .j6np a => a
  | .jxn a => a
  | .jxz a => a
  | .jxp a => a
  | .jxnn a => a
  | .jxnz a => a
  | .jxnp a => a
  | .jxe a => a
  | .jxo a => a
  | .inca a => a
  | .deca a => a
  | .enta a => a
  | .enna a => a
  | .inc1 a => a
  | .dec1 a => a
  | .ent1 a => a
  | .enn1 a => a
  | .inc2 a => a
  | .dec2 a => a
  | .ent2 a => a
  | .enn2 a => a
  | .inc3 a => a
  | .dec3 a => a
  | .ent3 a => a
  | .enn3 a => a
  | .inc4 a => a
  | .dec4 a => a
  | .ent4 a => a
  | .enn4 a => a
  | .inc5 a => a
  | .dec5 a => a
  | .ent5 a => a
  | .enn5 a => a
  | .inc6 a => a
  | .dec6 a => a
  | .ent6 a => a
  | .enn6 a => a
  | .incx a => a
  | .decx a => a
  | .entx a => a
  | .ennx a => a
  | .cmpa a _ => a
  | .fcmp a => a
  | .cmp1 a _ => a
  | .cmp2 a _ => a
  | .cmp3 a _ => a
  | .cmp4 a _ => a
  | .cmp5 a _ => a
  | .cmp6 a _ => a
  | .cmpx a _ => a

/-- The index specifier byte I (R103). -/
def encodeIndex : Option IxReg → Byte
  | none => 0
  | some .i1 => 1
  | some .i2 => 2
  | some .i3 => 3
  | some .i4 => 4
  | some .i5 => 5
  | some .i6 => 6

/-- The word of an instruction, `± A A I F C` (R100). -/
def encode (i : Instr) : Word :=
  ⟨i.addr.sign, Byte.ofNat (i.addr.a.val / 64), Byte.ofNat i.addr.a.val, encodeIndex i.addr.idx,
    i.code.f, i.code.c⟩

end Sys2Proof
end

