-- ==== Sys2Proof/Machine/Fetch.lean ====
section
/-! DEFINITION. Steps 1 and 2 of the engine (30_encoding.md R120, R121): the fetch at PC and the decoding,
with the faults they raise; and placing a word where the next fetch finds it. -/

namespace Sys2Proof.Machine

/-- The instruction at PC, or the fault of the fetch (MemBounds(PC), with no C and F, R462) or of the
decoding (DecodeFailure with (C, F) or with I, R103, R116). -/
def State.fetch (s : State) : Except (Option OpCode × Raise) Instr :=
  if InMemory s.pc then
    match decode s.cfg.extBinaryOps (s.mem.read s.pc.toNat) with
    | .ok i => .ok i
    | .error (.opcode op) => .error (some op, ⟨.decodeFailure, .opcode op⟩)
    | .error (.index op i) => .error (some op, ⟨.decodeFailure, .value i.val⟩)
  else .error (none, ⟨.memBounds, .value s.pc⟩)

/-- The state with a word placed where the next step fetches: at PC, or at 0 when PC is outside memory. A
stopped engine is set running, with no fault record, since a stopped one fetches nothing (R516). -/
def State.placeWord (s : State) (w : Word) : State :=
  { s with
    mem := s.mem.write (if InMemory s.pc then s.pc else 0).toNat w
    pc := if InMemory s.pc then s.pc else 0
    es := .running
    fr := if s.es = .running then s.fr else none }

end Sys2Proof.Machine
end

