-- ==== Sys2Proof/Machine/Step.lean ====
section
/-! DEFINITION. One step of the engine in NORMAL mode (30_encoding.md R121, 70_reset_and_hazards.md R516). -/

namespace Sys2Proof.Machine

/-- `step()` (R516): a stopped engine changes nothing; a running one fetches, decodes and executes one
instruction, or takes the fault of the fetch or the decoding (R121). -/
def step (s : State) : Host.Outcome State Fault Refusal :=
  if s.es = .running then
    match s.fetch with
    | .ok i => exec i s
    | .error e => .next (s.takeFault e.1 e.2)
  else .next s

/-- The state in which the next step runs the packed word `w` (R101) of which `nbits` bits are given and the
rest are 0 (notes/assumptions/4.md). -/
def State.withFetchWord (s : State) (nbits w : Nat) : State := s.placeWord (Word.unpack (w % 2 ^ nbits))

end Sys2Proof.Machine
end

