-- ==== Sys2Proof/Machine/Facade.lean ====
section
/-! DEFINITION. The block's host interface (70_reset_and_hazards.md R510..R519): reset, load image, seeding and
inspection between steps, and the runs. A refused operation is `none` and changes nothing (R511, R514,
R515). -/

namespace Sys2Proof.Machine

/-- A word as the host hands it over, before the check that its bytes lie in 0..63 (R39, R514). -/
structure RawWord where
  sign : Sign
  b1 : Int
  b2 : Int
  b3 : Int
  b4 : Int
  b5 : Int
deriving DecidableEq, Repr

/-- A two-byte register value as the host hands it over. -/
structure RawRegister2 where
  sign : Sign
  c1 : Int
  c2 : Int
deriving DecidableEq, Repr

/-- A byte the host gives, refused outside 0..63 (R39). -/
def byte? (b : Int) : Option Byte := if h : 0 ≤ b ∧ b < 64 then some ⟨b.toNat, by omega⟩ else none

/-- The Word of explicit sign and bytes, −0 included (R34). -/
def RawWord.check (w : RawWord) : Option Word := do
  let b1 ← byte? w.b1
  let b2 ← byte? w.b2
  let b3 ← byte? w.b3
  let b4 ← byte? w.b4
  let b5 ← byte? w.b5
  return ⟨w.sign, b1, b2, b3, b4, b5⟩

/-- The Register2 of explicit sign and bytes. -/
def RawRegister2.check (r : RawRegister2) : Option Register2 := do
  let c1 ← byte? r.c1
  let c2 ← byte? r.c2
  return ⟨r.sign, c1, c2⟩

/-- The Register2 of an integer, refused past 4095 (R514). -/
def Register2.fromInt? (v : Int) : Option Register2 := if v.natAbs ≤ 4095 then some (reg2 v .plus) else none

/-- A memory address the host gives, refused outside 0..3999 (R514). -/
def address? (a : Int) : Option Nat := if InMemory a then some a.toNat else none

/-- A unit number the host gives, refused outside 0..20 (R515). -/
def unit? (u : Int) : Option Unit21 := if h : 0 ≤ u ∧ u < 21 then some ⟨u.toNat, by omega⟩ else none

/-- reset() (R510): every piece of state re-zeroed, the configuration kept. It alone leaves HALTED and
FAULTED. -/
def State.hostReset (s : State) : State := State.resetOf s.cfg

/-- The image's words written to memory in its order; refused if an address or a byte is out of range. -/
def loadWords : List (Int × RawWord) → Memory → Option Memory
  | [], m => some m
  | (a, w) :: rest, m => do
    let x ← address? a
    let v ← w.check
    loadWords rest (m.write x v)

/-- loadImage(img, start) (R511). It does not reset, and a start outside 0..3999 is accepted. -/
def State.loadImage (s : State) (img : List (Int × RawWord)) (start : Int) : Option State := do
  let m ← loadWords img s.mem
  return { s with mem := m, pc := start }

/-- Seed rA (R514). -/
def State.seedA (s : State) (w : RawWord) : Option State := do
  let v ← w.check
  return { s with rA := v }

/-- Seed rX (R514). -/
def State.seedX (s : State) (w : RawWord) : Option State := do
  let v ← w.check
  return { s with rX := v }

/-- Seed rI[k] (R514). -/
def State.seedIndex (s : State) (k : IxReg) (r : RawRegister2) : Option State := do
  let v ← r.check
  return s.setIndex k v

/-- Seed rJ (R514); a sign − breaks the launch premise of R512. -/
def State.seedJ (s : State) (r : RawRegister2) : Option State := do
  let v ← r.check
  return { s with rJ := v }

/-- Seed OV (R514). -/
def State.seedOv (s : State) (b : Bool) : State := { s with ov := b }

/-- Seed CI (R514). -/
def State.seedCi (s : State) (c : Comparison) : State := { s with ci := c }

/-- Seed PC, 0..4000 (R514). -/
def State.seedPc (s : State) (pc : Int) : Option State :=
  if 0 ≤ pc ∧ pc ≤ 4000 then some { s with pc := pc } else none

/-- Seed CONTENTS(a) (R514). -/
def State.seedMemory (s : State) (a : Int) (w : RawWord) : Option State := do
  let x ← address? a
  let v ← w.check
  return { s with mem := s.mem.write x v }

/-- Read CONTENTS(a) (R514, R519). -/
def State.readMemory (s : State) (a : Int) : Option Word := do
  let x ← address? a
  return s.mem.read x

/-- A word index into a unit's buffer, refused outside 0..CAP[u]−1 (R515). -/
def bufferIndex? (s : State) (u : Unit21) (i : Int) : Option Nat :=
  if 0 ≤ i ∧ i < (s.unit u).cap then some i.toNat else none

/-- seedDevice(u, i, w): buf[u][i] ← w (R515). -/
def State.seedDevice (s : State) (u i : Int) (w : RawWord) : Option State := do
  let n ← unit? u
  let x ← bufferIndex? s n i
  let v ← w.check
  return s.setDev n { s.dev[n] with buf := s.dev[n].buf.write x v }

/-- readDevice(u, i) (R515). -/
def State.readDevice (s : State) (u i : Int) : Option Word := do
  let n ← unit? u
  let x ← bufferIndex? s n i
  return s.dev[n].buf.read x

/-- The status the host sees: READY when status = READY or E > deadline, so that the lazy update of R383 is
invisible (R515, decision D52). -/
def State.reportedStatus (s : State) (u : Unit21) : DeviceStatus :=
  if s.dev[u].isReady s.elapsed then .ready else s.dev[u].status

/-- The printer's page, cursor div (24 × LINES_PER_PAGE) (R50, R515). -/
def State.page (s : State) (u : Unit21) : Nat := s.dev[u].cursor / (24 * s.cfg.linesPerPage)

/-- The operations by which the host changes a state between steps, reset apart (R511, R514, R515). -/
inductive HostOp where
  | loadImage (img : List (Int × RawWord)) (start : Int)
  | seedA (w : RawWord)
  | seedX (w : RawWord)
  | seedIndex (k : IxReg) (r : RawRegister2)
  | seedJ (r : RawRegister2)
  | seedOv (b : Bool)
  | seedCi (c : Comparison)
  | seedPc (pc : Int)
  | seedMemory (a : Int) (w : RawWord)
  | seedDevice (u i : Int) (w : RawWord)
deriving DecidableEq, Repr

/-- One host operation, `none` where it is refused. -/
def State.hostOp (s : State) : HostOp → Option State
  | .loadImage img start => s.loadImage img start
  | .seedA w => s.seedA w
  | .seedX w => s.seedX w
  | .seedIndex k r => s.seedIndex k r
  | .seedJ r => s.seedJ r
  | .seedOv b => some (s.seedOv b)
  | .seedCi c => some (s.seedCi c)
  | .seedPc pc => s.seedPc pc
  | .seedMemory a w => s.seedMemory a w
  | .seedDevice u i w => s.seedDevice u i w

/-- A sequence of host operations (R512): a refused one changes nothing (R511, R514, R515). -/
def State.hostOps (s : State) : List HostOp → State
  | [] => s
  | o :: rest => ((s.hostOp o).getD s).hostOps rest

/-- The operation does not seed rJ with sign −, the proviso of R512. -/
def HostOp.keepsJump : HostOp → Prop
  | .seedJ r => r.sign = .plus
  | .loadImage _ _ | .seedA _ | .seedX _ | .seedIndex _ _ | .seedOv _ | .seedCi _ | .seedPc _ | .seedMemory _ _
  | .seedDevice _ _ _ => True

/-- Why a run ends (R519). -/
inductive StopReason where
  | halted
  | faulted
  | selfLoop
deriving DecidableEq, Repr

/-- The self-loop test of R121 and R261: the engine runs, the word at PC is JMP, M = PC, and the checks before
the test pass. -/
def State.atSelfLoop (s : State) : Bool :=
  if s.es = .running then
    match s.fetch with
    | .ok (.jmp a) => decide (s.effAddr a = s.pc)
    | _ => false
  else false

/-- One step in SELF_LOOP mode (R121): `none` is the self-loop stop, which writes nothing. -/
def stepSelfLoop (s : State) : Option Result := if s.atSelfLoop then none else some (step s)

/-- runToHalt() (R518) with a host budget of `n` steps: the reason and the final state, `none` when the budget
ends first. -/
def runToHalt : Nat → State → Option (StopReason × State)
  | n, s =>
    match s.es with
    | .halted => some (.halted, s)
    | .faulted => some (.faulted, s)
    | .running =>
      match n with
      | 0 => none
      | k + 1 =>
        match step s with
        | .next t => runToHalt k t
        | .fault _ => none
        | .refused _ => none

/-- runToSelfLoop() (R517) with a host budget of `n` steps. -/
def runToSelfLoop : Nat → State → Option (StopReason × State)
  | n, s =>
    match s.es with
    | .halted => some (.halted, s)
    | .faulted => some (.faulted, s)
    | .running =>
      if s.atSelfLoop then some (.selfLoop, s)
      else
        match n with
        | 0 => none
        | k + 1 =>
          match step s with
          | .next t => runToSelfLoop k t
          | .fault _ => none
          | .refused _ => none

end Sys2Proof.Machine
end

