-- ==== Sys2Proof/Safety.lean ====
section
/-! DEFINITION. What holds of every state of the block the spec allows (the data model of 10_state.md and the
launch premises of 70_reset_and_hazards.md R512), and what a safe run is. -/

namespace Sys2Proof.Machine

/-- A unit's configuration is as R8 and R381 have it: a block of at least one word, and CAP[u] a multiple of
BLOCK[u]. -/
def unitConfigOk (c : UnitConfig) : Bool := decide (0 < c.block) && decide (c.cap % c.block = 0)

/-- The configuration is one the parameters of R8 allow: every unit's, LINES_PER_PAGE ≥ 1 (D24), and every
cost at least 1 (R530). -/
def configOk (c : Config) : Bool :=
  c.units.toList.all unitConfigOk && decide (0 < c.linesPerPage) && c.costs.all fun r => decide (0 < r.cost)

/-- A unit's buffer is a store of CAP[u] words and its cursor does not pass CAP[u] (R50, R512). -/
def deviceOk (c : UnitConfig) (d : Device) : Prop := d.buf.wf c.cap = true ∧ d.cursor ≤ c.cap

/-- The launch premises of R512: every register and memory word is a valid Word or Register2 (their types say so
of the bytes, `wf` says it of the store), rJ has sign +, the engine is RUNNING, and of every unit the buffer is a
store of CAP[u] words with cursor ≤ CAP[u]; that status[u] = READY or deadline[u] is a natural holds by its type.
PC is not among them: `loadImage` accepts any start (R511, notes/assumptions/7.md). -/
structure State.Launch (s : State) : Prop where
  memory : s.mem.wf memSize = true
  jump : s.rJ.sign = .plus
  running : s.es = .running
  devices : ∀ u : Unit21, deviceOk (s.unit u) s.dev[u]

/-- FR is empty unless ES = FAULTED, and is filled then (R56, R462). -/
def recordOk (s : State) : Prop := s.fr.isSome = true ↔ s.es = .faulted

/-- The invariant of the data model, which every step keeps and which, unlike R512's premises, holds of stopped
engines too: the configuration is allowed, memory is a store of 4000 words in
canonical form (R47), rJ has sign + (R43, decision D6), PC is in 0..4000 (R53), FR agrees with ES (R56), and
every unit is as `deviceOk` says (R50). -/
structure State.Inv (s : State) : Prop where
  config : configOk s.cfg = true
  memory : s.mem.wf memSize = true
  jump : s.rJ.sign = .plus
  counter : 0 ≤ s.pc ∧ s.pc ≤ 4000
  record : recordOk s
  devices : ∀ u : Unit21, deviceOk (s.unit u) s.dev[u]

/-- A state of a safe run: no fatal condition has ended it (R460). -/
def State.Safe (s : State) : Prop := s.es ≠ .faulted

end Sys2Proof.Machine
end

