-- ==== Sys2Proof/Families.lean ====
section
/-! DEFINITION. The vocabulary of the statements in Certificates/Slice0/Obligations.lean: the instructions of a
family by their register, the state an instruction leaves, and the add law, the readiness and the control
operations as relations, written from the spec and not from the meanings. No meaning uses this file. -/

namespace Sys2Proof.Machine

-- Families of instructions.

/-- LD1..LD6. -/
def loadIndex : IxReg → Addr → Field → Instr
  | .i1 => .ld1
  | .i2 => .ld2
  | .i3 => .ld3
  | .i4 => .ld4
  | .i5 => .ld5
  | .i6 => .ld6

/-- LD1N..LD6N. -/
def loadIndexNegated : IxReg → Addr → Field → Instr
  | .i1 => .ld1n
  | .i2 => .ld2n
  | .i3 => .ld3n
  | .i4 => .ld4n
  | .i5 => .ld5n
  | .i6 => .ld6n

/-- ST1..ST6. -/
def storeIndex : IxReg → Addr → Field → Instr
  | .i1 => .st1
  | .i2 => .st2
  | .i3 => .st3
  | .i4 => .st4
  | .i5 => .st5
  | .i6 => .st6

/-- CMP1..CMP6. -/
def compareIndex : IxReg → Addr → Field → Instr
  | .i1 => .cmp1
  | .i2 => .cmp2
  | .i3 => .cmp3
  | .i4 => .cmp4
  | .i5 => .cmp5
  | .i6 => .cmp6

/-- INC1..INC6. -/
def increaseIndex : IxReg → Addr → Instr
  | .i1 => .inc1
  | .i2 => .inc2
  | .i3 => .inc3
  | .i4 => .inc4
  | .i5 => .inc5
  | .i6 => .inc6

/-- DEC1..DEC6. -/
def decreaseIndex : IxReg → Addr → Instr
  | .i1 => .dec1
  | .i2 => .dec2
  | .i3 => .dec3
  | .i4 => .dec4
  | .i5 => .dec5
  | .i6 => .dec6

/-- ENT1..ENT6. -/
def enterIndex : IxReg → Addr → Instr
  | .i1 => .ent1
  | .i2 => .ent2
  | .i3 => .ent3
  | .i4 => .ent4
  | .i5 => .ent5
  | .i6 => .ent6

/-- ENN1..ENN6. -/
def enterIndexNegated : IxReg → Addr → Instr
  | .i1 => .enn1
  | .i2 => .enn2
  | .i3 => .enn3
  | .i4 => .enn4
  | .i5 => .enn5
  | .i6 => .enn6

/-- The number k of rI[k] (R42). -/
def indexNumber : IxReg → Nat
  | .i1 => 1
  | .i2 => 2
  | .i3 => 3
  | .i4 => 4
  | .i5 => 5
  | .i6 => 6

/-- The register a register jump tests (R265): rA, rI[k] or rX. -/
inductive TestedRegister where
  | a
  | index (k : IxReg)
  | x
deriving DecidableEq, Repr

/-- The conditions F = 0..5 of a register jump (R265). -/
inductive SignTest where
  | n
  | z
  | p
  | nn
  | nz
  | np
deriving DecidableEq, Repr

/-- The value a register jump tests. -/
def TestedRegister.value (s : State) : TestedRegister → Int
  | .a => s.rA.val
  | .index k => (s.index k).val
  | .x => s.rX.val

/-- The condition of R265 on the register's value. -/
def SignTest.holds (v : Int) : SignTest → Prop
  | .n => v < 0
  | .z => v = 0
  | .p => 0 < v
  | .nn => 0 ≤ v
  | .nz => v ≠ 0
  | .np => v ≤ 0

/-- The 48 register jumps with a sign test. -/
def registerJump : TestedRegister → SignTest → Addr → Instr
  | .a, .n => .jan
  | .a, .z => .jaz
  | .a, .p => .jap
  | .a, .nn => .jann
  | .a, .nz => .janz
  | .a, .np => .janp
  | .index .i1, .n => .j1n
  | .index .i1, .z => .j1z
  | .index .i1, .p => .j1p
  | .index .i1, .nn => .j1nn
  | .index .i1, .nz => .j1nz
  | .index .i1, .np => .j1np
  | .index .i2, .n => .j2n
  | .index .i2, .z => .j2z
  | .index .i2, .p => .j2p
  | .index .i2, .nn => .j2nn
  | .index .i2, .nz => .j2nz
  | .index .i2, .np => .j2np
  | .index .i3, .n => .j3n
  | .index .i3, .z => .j3z
  | .index .i3, .p => .j3p
  | .index .i3, .nn => .j3nn
  | .index .i3, .nz => .j3nz
  | .index .i3, .np => .j3np
  | .index .i4, .n => .j4n
  | .index .i4, .z => .j4z
  | .index .i4, .p => .j4p
  | .index .i4, .nn => .j4nn
  | .index .i4, .nz => .j4nz
  | .index .i4, .np => .j4np
  | .index .i5, .n => .j5n
  | .index .i5, .z => .j5z
  | .index .i5, .p => .j5p
  | .index .i5, .nn => .j5nn
  | .index .i5, .nz => .j5nz
  | .index .i5, .np => .j5np
  | .index .i6, .n => .j6n
  | .index .i6, .z => .j6z
  | .index .i6, .p => .j6p
  | .index .i6, .nn => .j6nn
  | .index .i6, .nz => .j6nz
  | .index .i6, .np => .j6np
  | .x, .n => .jxn
  | .x, .z => .jxz
  | .x, .p => .jxp
  | .x, .nn => .jxnn
  | .x, .nz => .jxnz
  | .x, .np => .jxnp

-- The state an instruction leaves.

/-- The state `t` at the end of an instruction `i` begun in `s` that neither jumps nor halts: PC ← PC + 1 and
E ← E0 + COST (R121). -/
def State.after (t s : State) (i : Instr) : State :=
  { t with pc := s.pc + 1, elapsed := s.elapsed + costOf s.cfg i.code }

/-- The state at the end of a jump `i` taken to `m` in `s` by R250: rJ ← (+, PC + 1), PC ← m, E ← E0 + COST. -/
def State.afterJump (t s : State) (i : Instr) (m : Int) : State :=
  { t with
    rJ := reg2 (s.pc + 1) .plus
    pc := m
    elapsed := s.elapsed + costOf s.cfg i.code }

/-- The state in which the fault `c` with the operand `o` leaves instruction `i` (R462, R463). -/
def State.stopped (s : State) (i : Instr) (c : Cause) (o : Operand) : State :=
  { s with es := .faulted, fr := some ⟨c, s.pc, some i.code, o⟩ }

/-- The instruction is one the decoder can hand over under the state's configuration: its field specification
is valid and, for the six binary extensions, EXT_BINARY_OPS is true (R116, R117). -/
def State.decodes (s : State) (i : Instr) : Prop :=
  i.wf = true ∧ (i.isBinaryExt = true → s.cfg.extBinaryOps = true)

/-- The words of memory an instruction may store to, as a first address and a count: one word at M for a store,
F words at val(rI1) for MOVE, BLOCK[u] words at M for IN, none for every other kind. -/
def State.storedRun (s : State) (i : Instr) : Int × Nat :=
  if 24 ≤ i.code.c.val ∧ i.code.c.val ≤ 33 then (s.effAddr i.addr, 1)
  else if i.code.c.val = 7 then (s.rI1.val, i.code.f.val)
  else if i.code.c.val = 36 then
    (s.effAddr i.addr, if h : i.code.f.val < 21 then (s.unit ⟨i.code.f.val, h⟩).block else 0)
  else (0, 0)

-- Rules as relations.

/-- The add law of R181 for a register `r`, an operand `d` and OV: the new register `r'` and the new OV. -/
def AddLaw (r : Word) (ov : Bool) (d : Int) (r' : Word) (ov' : Bool) : Prop :=
  if (r.val + d).natAbs ≤ W - 1 then
    r'.val = r.val + d ∧ (r.val + d = 0 → r'.sign = r.sign) ∧ ov' = ov
  else
    r'.mag = (r.val + d).natAbs - W ∧ (0 < r.val + d → r'.sign = .plus) ∧
      (r.val + d < 0 → r'.sign = .minus) ∧ ov' = true

/-- `ready(u, t)` of R383. -/
def ReadyAt (d : Device) (t : Nat) : Prop := d.status = .ready ∨ d.deadline < t

/-- The elapsed count at which an IN, OUT or IOC on unit `u` runs: E0, or under WAIT on a busy unit the later
deadline[u] + 1 (R384). -/
def StartsAt (s : State) (u : Unit21) (e0 : Nat) : Prop :=
  (ReadyAt s.dev[u] s.elapsed ∧ e0 = s.elapsed) ∨
    (¬ ReadyAt s.dev[u] s.elapsed ∧ s.cfg.busyPolicy = .wait ∧ e0 = s.dev[u].deadline + 1)

/-- Instruction `i` waits for unit `u` (R384): it is an IN, OUT or IOC on `u`, `u` is not ready at E, and
BUSY_POLICY is WAIT. -/
def State.WaitsFor (s : State) (i : Instr) (u : Unit21) : Prop :=
  35 ≤ i.code.c.val ∧ i.code.c.val ≤ 37 ∧ i.code.f.val = u.val ∧ ¬ ReadyAt s.dev[u] s.elapsed ∧
    s.cfg.busyPolicy = .wait

/-- C = 1..4 or 56 with F = 6: a floating kind on a memory operand (R115). -/
def FloatCode (p : OpCode) : Prop := (1 ≤ p.c.val ∧ p.c.val ≤ 4 ∨ p.c.val = 56) ∧ p.f.val = 6

/-- C = 0..4, 8..38 and 56..63, where F is no part of the kind's name unless it makes a floating kind: it is
NOP's F, a field specification or a unit (R115). -/
def OperandCode (c : Nat) : Prop := c ≤ 4 ∨ 8 ≤ c ∧ c ≤ 38 ∨ 56 ≤ c

/-- The opcode bytes `p` and `q` have one COST by R530: they name one kind and, for MOVE, have one F. -/
def SameCost (p q : OpCode) : Prop :=
  p.c = q.c ∧ (p.f = q.f ∨ OperandCode p.c.val ∧ ¬ FloatCode p ∧ ¬ FloatCode q)

/-- `blockBase(u)` of R390: the block of an IN or OUT begins at word `base` of the buffer. -/
def BlockAt (s : State) (u : Unit21) (base : Nat) : Prop :=
  if (s.unit u).kind = .disk then
    0 ≤ s.rX.val ∧ (s.rX.val + 1) * (s.unit u).block ≤ (s.unit u).cap ∧
      (base : Int) = s.rX.val * (s.unit u).block
  else base = s.dev[u].cursor ∧ s.dev[u].cursor + (s.unit u).block ≤ (s.unit u).cap

/-- The cursor after a transfer at `base` (R386, R387): a disk's is unchanged. -/
def cursorPast (s : State) (u : Unit21) (base : Nat) : Nat :=
  if (s.unit u).kind = .disk then s.dev[u].cursor else base + (s.unit u).block

/-- `defined(kind, M)` of R388. -/
def ControlDefined (k : UnitKind) (m : Int) : Prop :=
  k = .tape ∨ ((k = .disk ∨ k = .linePrinter ∨ k = .paperTape) ∧ m = 0)

/-- The cursor `c` of a control operation of R388, where it is defined. -/
def ControlCursor (s : State) (u : Unit21) (m : Int) (c : Nat) : Prop :=
  match (s.unit u).kind with
  | .tape =>
    (m = 0 → c = 0) ∧
      (0 < m → (c : Int) = s.dev[u].cursor + m * (s.unit u).block) ∧
      (m < 0 → (c : Int) = max 0 (s.dev[u].cursor + m * (s.unit u).block))
  | .linePrinter => c = (s.dev[u].cursor / (24 * s.cfg.linesPerPage) + 1) * (24 * s.cfg.linesPerPage)
  | .paperTape => c = 0
  | .disk | .cardReader | .cardPunch | .terminal => c = s.dev[u].cursor

/-- The control operations that CAP[u] bounds (R388): a tape's skip forward and the printer's page skip. -/
def ControlForward (k : UnitKind) (m : Int) : Prop := (k = .tape ∧ 0 < m) ∨ k = .linePrinter

end Sys2Proof.Machine
end

