-- ==== Sys2Proof/Machine/Text.lean ====
section
/-! DEFINITION. The character table of 10_state.md R48 and the host's text conversion for the textual units
(47_io.md R392). No instruction uses them. -/

namespace Sys2Proof.Machine

/-- The characters of the codes 0..55, the glyphs of 10, 20 and 21 being parameters (R48, decision D42). -/
def characters (cfg : Config) : List Char :=
  [' ', 'A', 'B', 'C', 'D', 'E', 'F', 'G', 'H', 'I', cfg.glyph10] ++
    ['J', 'K', 'L', 'M', 'N', 'O', 'P', 'Q', 'R', cfg.glyph20, cfg.glyph21] ++
    ['S', 'T', 'U', 'V', 'W', 'X', 'Y', 'Z'] ++
    ['0', '1', '2', '3', '4', '5', '6', '7', '8', '9'] ++
    ['.', ',', '(', ')', '+', '-', '*', '/', '=', '$', '<', '>', '@', ';', ':', '\'']

/-- The character of a byte; codes 56..63 have none and are refused (R48). -/
def charOfByte (cfg : Config) (b : Byte) : Option Char := (characters cfg)[b.val]?

/-- The byte of a character; a character not in the table is refused (R48). -/
def byteOfChar (cfg : Config) (c : Char) : Option Byte :=
  match (characters cfg).findIdx? (· == c) with
  | some n => if h : n < 64 then some ⟨n, h⟩ else none
  | none => none

/-- The five characters of a word, byte 1 first (R392). DESIGN CHOICE (notes/assumptions/16.md): the spec does not
say what becomes of the sign, and the text leaves it out, so that w and −w have one text. -/
def textOfWord (cfg : Config) (w : Word) : Option (List Char) :=
  [w.b1, w.b2, w.b3, w.b4, w.b5].mapM (charOfByte cfg)

/-- The word of five characters, byte 1 first (R392). DESIGN CHOICE (notes/assumptions/16.md): its sign is +, as
R126 has it for ALF. -/
def wordOfText (cfg : Config) (cs : List Char) : Option Word :=
  match cs.mapM (byteOfChar cfg) with
  | some [b1, b2, b3, b4, b5] => some ⟨.plus, b1, b2, b3, b4, b5⟩
  | _ => none

end Sys2Proof.Machine
end

