-- ==== Sys2Proof/Certificates/Slice0/Obligations.lean ====
section
/-! DEFINITION. The statements for the provers, O1.. of OBLIGATIONS.json. Each docstring says which rule of spec/
the statement formalises. -/

open Sys2Proof Sys2Proof.Machine

/-- The value of a word is its sign times the base-64 number of its bytes, at most W − 1 in magnitude. (R31) -/
def Obligations.WordValue : Prop :=
  ∀ w : Word,
    w.val = (if w.sign = .minus then -1 else 1) *
      ((w.b1.val * 64 ^ 4 + w.b2.val * 64 ^ 3 + w.b3.val * 64 ^ 2 + w.b4.val * 64 + w.b5.val : Nat) : Int) ∧
    w.val.natAbs ≤ 1073741823

/-- Two words have one value exactly when their magnitudes agree and, unless zero, their signs; −0 and +0 differ
as words. (10_state.md R32, 10_state.md R33, 00_scope.md R11) -/
def Obligations.NegativeZero : Prop :=
  (∀ v w : Word, v.val = w.val ↔ v.mag = w.mag ∧ (v.sign = w.sign ∨ v.mag = 0)) ∧
    Word.ofMag .minus 0 ≠ Word.plusZero ∧ (Word.ofMag .minus 0).val = 0 ∧ Word.plusZero.val = 0 ∧
    (∀ (g : Sign) (m : Nat), m < W → (Word.ofMag g m).sign = g ∧ (Word.ofMag g m).mag = m) ∧
    ∀ w : Word, Word.ofMag w.sign w.mag = w

/-- An integer of magnitude at most W − 1 becomes a word of that value, 0 becomes +0, and a larger one is
refused. (10_state.md R34, 70_reset_and_hazards.md R514) -/
def Obligations.IntegerRoundTrip : Prop :=
  (∀ v : Int, v.natAbs ≤ W - 1 →
      ∃ w : Word, Word.fromInt? v = some w ∧ w.val = v ∧ (w.sign = .minus ↔ v < 0)) ∧
    ∀ v : Int, W ≤ v.natAbs → Word.fromInt? v = none

/-- A field takes its bytes to the right end of a word with zeros to the left, and the sign only when L = 0.
(R35) -/
def Obligations.FieldExtraction : Prop :=
  ∀ (w : Word) (f : Field), f.valid = true →
    (field w f).sign = (if f.l.val = 0 then w.sign else .plus) ∧
    (∀ k : Nat, max f.l.val 1 ≤ k → k ≤ f.r.val → (field w f).byte (5 - f.r.val + k) = w.byte k) ∧
    ∀ j : Nat, 1 ≤ j → j ≤ 5 → j < 5 - f.r.val + max f.l.val 1 → (field w f).byte j = 0

/-- Storing a field replaces its bytes by the rightmost bytes of the source, and the sign only when L = 0;
storing back a field read changes nothing. (R36) -/
def Obligations.FieldInjection : Prop :=
  ∀ (w src : Word) (f : Field), f.valid = true →
    (setfield w f src).sign = (if f.l.val = 0 then src.sign else w.sign) ∧
    (∀ k : Nat, max f.l.val 1 ≤ k → k ≤ f.r.val → (setfield w f src).byte k = src.byte (5 - f.r.val + k)) ∧
    (∀ k : Nat, 1 ≤ k → k ≤ 5 → (k < max f.l.val 1 ∨ f.r.val < k) → (setfield w f src).byte k = w.byte k) ∧
    setfield w f (field w f) = w

/-- A two-byte register is the word with bytes 1..3 zero, and a word fits one exactly when its magnitude is at
most 4095. (10_state.md R37, 10_state.md R38, 00_scope.md R11) -/
def Obligations.TwoByteRegisters : Prop :=
  (∀ r : Register2, r.asWord.sign = r.sign ∧ r.asWord.val = r.val ∧ r.val.natAbs ≤ 4095) ∧
    (∀ (w : Word) (r : Register2), toReg2 w = some r ↔ r.asWord = w) ∧
    (∀ w : Word, (∃ r, toReg2 w = some r) ↔ w.val.natAbs ≤ 4095) ∧
    (∀ (v : Int) (s0 : Sign), v.natAbs ≤ 4095 → (reg2 v s0).val = v) ∧
    ∀ s0 : Sign, (reg2 0 s0).sign = s0

/-- Decoding the word of a well-formed instruction gives that instruction back, for all 157 kinds and all
operands. (30_encoding.md R100, 30_encoding.md R103, 30_encoding.md R115, 30_encoding.md R119) -/
def Obligations.DecodeEncode : Prop :=
  ∀ (ext : Bool) (i : Instr), i.wf = true → (i.isBinaryExt = true → ext = true) →
    decode ext (encode i) = .ok i

/-- A word that decodes is the word of the instruction it decodes to, which is well-formed: no bit of a word is
dropped. (30_encoding.md R100, 30_encoding.md R106, 30_encoding.md R115, 30_encoding.md R118) -/
def Obligations.EncodeDecode : Prop :=
  ∀ (ext : Bool) (w : Word) (i : Instr), decode ext w = .ok i →
    encode i = w ∧ i.wf = true ∧ (i.isBinaryExt = true → ext = true)

/-- The words that do not decode are exactly those of R117, reported by (C, F) first and by I second.
(30_encoding.md R103, 30_encoding.md R116, 30_encoding.md R117, 10_state.md R40) -/
def Obligations.IllegalEncodings : Prop :=
  ∀ (ext : Bool) (w : Word),
    let c := w.b5.val
    let f := w.b4.val
    let fields : List Nat := [0, 1, 2, 3, 4, 5, 9, 10, 11, 12, 13, 18, 19, 20, 21, 27, 28, 29, 36, 37, 45]
    let illegal : Prop :=
      (1 ≤ c ∧ c ≤ 4 ∧ f ∉ fields ∧ f ≠ 6) ∨ (c = 5 ∧ (f = 3 ∨ f = 4 ∨ f = 5 ∨ 8 ≤ f)) ∨
      (c = 6 ∧ (8 ≤ f ∨ ((f = 6 ∨ f = 7) ∧ ext = false))) ∨
      (8 ≤ c ∧ c ≤ 33 ∧ f ∉ fields) ∨ (c = 39 ∧ 10 ≤ f) ∨
      ((c = 40 ∨ c = 47) ∧ (8 ≤ f ∨ ((f = 6 ∨ f = 7) ∧ ext = false))) ∨
      (41 ≤ c ∧ c ≤ 46 ∧ 6 ≤ f) ∨ (48 ≤ c ∧ c ≤ 55 ∧ 4 ≤ f) ∨
      (c = 56 ∧ f ∉ fields ∧ f ≠ 6) ∨ (57 ≤ c ∧ f ∉ fields)
    (decode ext w = .error (.opcode ⟨w.b5, w.b4⟩) ↔ illegal) ∧
    (decode ext w = .error (.index ⟨w.b5, w.b4⟩ w.b3) ↔ ¬ illegal ∧ 7 ≤ w.b3.val)

/-- Words written out from the opcode map decode to the instructions they stand for, one of each family.
(30_encoding.md R100, 30_encoding.md R101, 30_encoding.md R119) -/
def Obligations.EncodedWords : Prop :=
  decode false ⟨.plus, 31, 16, 2, 3, 8⟩ = .ok (.lda ⟨.plus, 2000, some .i2⟩ ⟨0, 3⟩) ∧
    decode false ⟨.minus, 31, 16, 0, 5, 24⟩ = .ok (.sta ⟨.minus, 2000, none⟩ ⟨0, 5⟩) ∧
    decode false ⟨.plus, 15, 40, 0, 5, 1⟩ = .ok (.add ⟨.plus, 1000, none⟩ ⟨0, 5⟩) ∧
    decode false ⟨.plus, 15, 40, 0, 6, 1⟩ = .ok (.fadd ⟨.plus, 1000, none⟩) ∧
    decode false ⟨.plus, 0, 2, 0, 3, 6⟩ = .ok (.srax ⟨.plus, 2, none⟩) ∧
    decode false ⟨.plus, 15, 40, 1, 45, 63⟩ = .ok (.cmpx ⟨.plus, 1000, some .i1⟩ ⟨5, 5⟩) ∧
    decode false ⟨.plus, 46, 56, 0, 9, 39⟩ = .ok (.jle ⟨.plus, 3000, none⟩) ∧
    decode false ⟨.plus, 46, 56, 0, 4, 43⟩ = .ok (.j3nz ⟨.plus, 3000, none⟩) ∧
    decode false ⟨.minus, 0, 0, 6, 2, 55⟩ = .ok (.entx ⟨.minus, 0, some .i6⟩) ∧
    decode false ⟨.plus, 15, 40, 0, 16, 36⟩ = .ok (.ioIn ⟨.plus, 1000, none⟩ 16) ∧
    decode false ⟨.plus, 0, 0, 0, 2, 5⟩ = .ok (.hlt ⟨.plus, 0, none⟩) ∧
    decode false ⟨.plus, 15, 40, 0, 63, 7⟩ = .ok (.move ⟨.plus, 1000, none⟩ 63)

/-- A running engine with PC in memory executes exactly the instruction that the word at PC decodes to.
(30_encoding.md R120, 30_encoding.md R121, 70_reset_and_hazards.md R516) -/
def Obligations.StepRunsDecodedInstruction : Prop :=
  ∀ (s : State) (i : Instr), s.es = .running → InMemory s.pc →
    (decode s.cfg.extBinaryOps (s.mem.read s.pc.toNat) = .ok i → step s = exec i s) ∧
    (s.decodes i → s.mem.read s.pc.toNat = encode i → step s = exec i s)

/-- A fetch outside memory is MemBounds(PC) without C and F, and an undecodable word is DecodeFailure on (C, F)
or on I. (30_encoding.md R103, 30_encoding.md R116, 30_encoding.md R120, 60_exceptions.md R462,
60_exceptions.md R464) -/
def Obligations.FetchFaults : Prop :=
  ∀ s : State, s.es = .running →
    (¬ InMemory s.pc →
      step s = .next { s with es := .faulted, fr := some ⟨.memBounds, s.pc, none, .value s.pc⟩ }) ∧
    (InMemory s.pc →
      ∀ op : OpCode, decode s.cfg.extBinaryOps (s.mem.read s.pc.toNat) = .error (.opcode op) →
        step s = .next { s with es := .faulted, fr := some ⟨.decodeFailure, s.pc, some op, .opcode op⟩ }) ∧
    (InMemory s.pc →
      ∀ (op : OpCode) (b : Byte), decode s.cfg.extBinaryOps (s.mem.read s.pc.toNat) = .error (.index op b) →
        step s = .next { s with es := .faulted, fr := some ⟨.decodeFailure, s.pc, some op, .value b.val⟩ })

/-- A halted or faulted engine changes nothing on a step, and both runs return its status at once.
(70_reset_and_hazards.md R516, 60_exceptions.md R467) -/
def Obligations.StoppedEngine : Prop :=
  ∀ s : State, s.es ≠ .running → step s = .next s ∧
    ∀ n : Nat,
      (s.es = .halted → runToHalt n s = some (.halted, s) ∧ runToSelfLoop n s = some (.halted, s)) ∧
      (s.es = .faulted → runToHalt n s = some (.faulted, s) ∧ runToSelfLoop n s = some (.faulted, s))

/-- Run-to-self-loop stops, writing nothing, exactly before a JMP to its own address; a plain step executes that
JMP. (R261) -/
def Obligations.SelfLoopStop : Prop :=
  ∀ s : State,
    (stepSelfLoop s = none ↔
      s.es = .running ∧ InMemory s.pc ∧
        ∃ a : Addr, decode s.cfg.extBinaryOps (s.mem.read s.pc.toNat) = .ok (.jmp a) ∧ s.effAddr a = s.pc) ∧
    (stepSelfLoop s = none → ∀ n : Nat, runToSelfLoop n s = some (.selfLoop, s)) ∧
    (stepSelfLoop s ≠ none → stepSelfLoop s = some (step s)) ∧
    ∀ a : Addr, s.es = .running → InMemory s.pc →
      decode s.cfg.extBinaryOps (s.mem.read s.pc.toNat) = .ok (.jmp a) → s.effAddr a = s.pc →
      step s = .next (s.afterJump s (.jmp a) s.pc)

/-- An effective address beyond 4095 in magnitude is AddressRange for every instruction, before its own checks.
(R111) -/
def Obligations.AddressRange : Prop :=
  (∀ (s : State) (a : Addr),
      s.effAddr a =
        (if a.sign = .minus then -(a.a.val : Int) else a.a.val) +
          (match a.idx with
           | none => 0
           | some k => (s.index k).val) ∧
      (s.effAddr a).natAbs ≤ 8190) ∧
    ∀ (s : State) (i : Instr), s.decodes i → 4095 < (s.effAddr i.addr).natAbs →
      exec i s = .next (s.stopped i .addressRange (.value (s.effAddr i.addr)))

/-- An instruction with a one-word memory operand raises MemBounds(M) when M is outside 0..3999, before any
other check of its own. (20_memory.md R80, 30_encoding.md R112, 60_exceptions.md R464) -/
def Obligations.OperandOutsideMemory : Prop :=
  ∀ (s : State) (i : Instr), s.decodes i → (s.effAddr i.addr).natAbs ≤ 4095 → ¬ InMemory (s.effAddr i.addr) →
    (1 ≤ i.code.c.val ∧ i.code.c.val ≤ 4 ∨ 8 ≤ i.code.c.val ∧ i.code.c.val ≤ 33 ∨ 56 ≤ i.code.c.val) →
    (i.code.f.val = 6 → s.cfg.floatUnit ≠ none) →
    exec i s = .next (s.stopped i .memBounds (.value (s.effAddr i.addr)))

/-- Every step and every instruction answers a next state, a fatal condition among them: the model's choice of
outcome (log entries 5 and 10). That a fatal condition is a next state rests on notes/assumptions/5.md
(DEDUCED), that exec answers on terms no word decodes to on notes/assumptions/10.md (DESIGN CHOICE).
(60_exceptions.md R462, 60_exceptions.md R463, 70_reset_and_hazards.md R516) -/
def Obligations.EveryStepAnswers : Prop :=
  (∀ s : State, ∃ t, step s = .next t) ∧ ∀ (i : Instr) (s : State), ∃ t, exec i s = .next t

/-- Every step keeps the data-model invariant: memory and buffers canonical and in range, rJ positive, PC in
0..4000, FR filled exactly when FAULTED. (10_state.md R43, 10_state.md R47, 10_state.md R50, 10_state.md
R53, 10_state.md R56, 70_reset_and_hazards.md R512) -/
def Obligations.StepKeepsInvariant : Prop :=
  ∀ s t : State, s.Inv → step s = .next t → t.Inv

/-- The state after reset meets the invariant, under every configuration the parameters allow. (10_state.md R58,
70_reset_and_hazards.md R510, 70_reset_and_hazards.md R512) -/
def Obligations.ResetInvariant : Prop :=
  (∀ c : Config, configOk c = true → (State.resetOf c).Inv) ∧ State.reset.Inv

/-- Reset gives every piece of state the value of R58 and keeps the configuration. (R58) -/
def Obligations.ResetValues : Prop :=
  ∀ s : State,
    s.hostReset.rA = Word.plusZero ∧ s.hostReset.rX = Word.plusZero ∧
    (∀ k : IxReg, s.hostReset.index k = Register2.plusZero) ∧ s.hostReset.rJ = Register2.plusZero ∧
    s.hostReset.ov = false ∧ s.hostReset.ci = s.cfg.ciReset ∧
    (∀ x : Nat, s.hostReset.mem.read x = Word.plusZero) ∧
    s.hostReset.pc = 0 ∧ s.hostReset.elapsed = 0 ∧ s.hostReset.es = .running ∧ s.hostReset.fr = none ∧
    (∀ (u : Unit21) (x : Nat), s.hostReset.dev[u].buf.read x = Word.plusZero ∧ s.hostReset.dev[u].cursor = 0 ∧
      s.hostReset.dev[u].status = .ready ∧ s.hostReset.dev[u].deadline = 0) ∧
    s.hostReset.cfg = s.cfg

/-- A step that ends in FAULTED changes ES and FR alone, and FR names the PC and the C and F of the faulting
word. (R463) -/
def Obligations.PreciseFaults : Prop :=
  ∀ s t : State, s.es = .running → step s = .next t → t.es = .faulted →
    ∃ r : FaultRecord, t = { s with es := .faulted, fr := some r } ∧ r.pc = s.pc ∧
      (¬ InMemory s.pc → r.op = none) ∧
      (InMemory s.pc → r.op = some ⟨(s.mem.read s.pc.toNat).b5, (s.mem.read s.pc.toNat).b4⟩)

/-- A completed instruction adds its cost to E, counted from the later start of a WAIT; a faulting one adds
nothing. (70_reset_and_hazards.md R531, 70_reset_and_hazards.md R530, 47_io.md R384, 10_state.md R54) -/
def Obligations.ElapsedAccounting : Prop :=
  ∀ (i : Instr) (s t : State), s.es ≠ .faulted → exec i s = .next t →
    s.elapsed ≤ t.elapsed ∧
    (t.es = .faulted → t.elapsed = s.elapsed) ∧
    (t.es ≠ .faulted → ((∀ u : Unit21, ¬ s.WaitsFor i u) → t.elapsed = s.elapsed + costOf s.cfg i.code) ∧
      ∀ u : Unit21, s.WaitsFor i u → t.elapsed = s.dev[u].deadline + 1 + costOf s.cfg i.code)

/-- COST depends on the kind and MOVE's F alone; its first row for a kind decides (rows: log entry 3), else the
default of R530, and it is at least 1. The rows of COST are the form notes/assumptions/3.md (DEDUCED) gives
the parameter. (70_reset_and_hazards.md R530, 30_encoding.md R115, 30_encoding.md R119) -/
def Obligations.DefaultCosts : Prop :=
  (∀ (cfg : Config) (p q : OpCode), SameCost p q → costOf cfg p = costOf cfg q) ∧
    (∀ (cfg : Config) (op : OpCode) (pre rest : List CostRow) (r : CostRow), cfg.costs = pre ++ r :: rest →
      SameCost r.code op → (∀ x ∈ pre, ¬ SameCost x.code op) → costOf cfg op = r.cost) ∧
    (∀ (cfg : Config) (op : OpCode), (∀ x ∈ cfg.costs, ¬ SameCost x.code op) →
      costOf cfg op = costOf { cfg with costs := [] } op) ∧
    (∀ cfg : Config, configOk cfg = true → ∀ op : OpCode, 1 ≤ costOf cfg op) ∧
    ∀ (cfg : Config), cfg.costs = [] → ∀ (a : Addr) (f : Field) (b : Byte), f.valid = true →
      costOf cfg (Instr.nop a b).code = 1 ∧
      costOf cfg (Instr.add a f).code = 2 ∧ costOf cfg (Instr.sub a f).code = 2 ∧
      costOf cfg (Instr.mul a f).code = 10 ∧ costOf cfg (Instr.div a f).code = 12 ∧
      costOf cfg (Instr.fadd a).code = 4 ∧ costOf cfg (Instr.fsub a).code = 4 ∧
      costOf cfg (Instr.fmul a).code = 9 ∧ costOf cfg (Instr.fdiv a).code = 11 ∧
      costOf cfg (Instr.flot a).code = 3 ∧ costOf cfg (Instr.fix a).code = 3 ∧
      costOf cfg (Instr.fcmp a).code = 4 ∧ costOf cfg (Instr.num a).code = 10 ∧
      costOf cfg (Instr.char a).code = 10 ∧ costOf cfg (Instr.hlt a).code = 10 ∧
      costOf cfg (Instr.move a b).code = 1 + 2 * b.val ∧
      (∀ i : Instr, i.code.c.val = 6 → costOf cfg i.code = 2) ∧
      (∀ i : Instr, 8 ≤ i.code.c.val → i.code.c.val ≤ 33 → costOf cfg i.code = 2) ∧
      (∀ i : Instr, 34 ≤ i.code.c.val → i.code.c.val ≤ 55 → costOf cfg i.code = 1) ∧
      costOf cfg (Instr.cmpa a f).code = 2 ∧
      ∀ i : Instr, 57 ≤ i.code.c.val → costOf cfg i.code = 2

/-- Each register changes only under the instructions R59 lists as its writers. That no floating kind writes rX
or an index register rests on notes/assumptions/17.md (DEDUCED). (10_state.md R59, 10_state.md R43,
49_special.md R442) -/
def Obligations.RegisterWriters : Prop :=
  ∀ (i : Instr) (s t : State), exec i s = .next t →
    (t.rA ≠ s.rA → 1 ≤ i.code.c.val ∧ i.code.c.val ≤ 4 ∨ i.code.c.val = 5 ∧ i.code.f.val ≠ 2 ∨
      i.code.c.val ∈ [6, 8, 16, 48]) ∧
    (t.rX ≠ s.rX → (i.code.c.val = 3 ∨ i.code.c.val = 4) ∧ i.code.f.val ≠ 6 ∨
      i.code.c.val = 5 ∧ i.code.f.val = 1 ∨ i.code.c.val = 6 ∧ 2 ≤ i.code.f.val ∨
      i.code.c.val ∈ [15, 23, 55]) ∧
    (∀ k : IxReg, t.index k ≠ s.index k →
      i.code.c.val = 8 + indexNumber k ∨ i.code.c.val = 16 + indexNumber k ∨
        i.code.c.val = 48 + indexNumber k ∨ k = .i1 ∧ i.code.c.val = 7) ∧
    (t.rJ ≠ s.rJ → i.code.c.val = 34 ∨ i.code.c.val = 38 ∨ i.code.c.val = 39 ∧ i.code.f.val ≠ 1 ∨
      40 ≤ i.code.c.val ∧ i.code.c.val ≤ 47)

/-- Only stores, MOVE and IN change memory, and only the words they store to; memory stays canonical.
(20_memory.md R84, 20_memory.md R90, 41_load_store.md R142, 47_io.md R386, 49_special.md R442) -/
def Obligations.MemoryFrame : Prop :=
  ∀ (i : Instr) (s t : State), s.mem.wf memSize = true → exec i s = .next t →
    t.mem.wf memSize = true ∧
    ∀ x : Nat, ¬ ((s.storedRun i).1 ≤ x ∧ (x : Int) < (s.storedRun i).1 + (s.storedRun i).2) →
      t.mem.read x = s.mem.read x

/-- Only the five I/O instructions change a unit, and only the unit they name; only OUT changes a buffer, only
IN, OUT and IOC a cursor or a deadline. (47_io.md R393, 47_io.md R383, 10_state.md R52) -/
def Obligations.DeviceFrame : Prop :=
  ∀ (i : Instr) (s t : State), exec i s = .next t → ∀ u : Unit21,
    (¬ (34 ≤ i.code.c.val ∧ i.code.c.val ≤ 38 ∧ i.code.f.val = u.val) → t.dev[u] = s.dev[u]) ∧
    (i.code.c.val ≠ 37 → t.dev[u].buf = s.dev[u].buf) ∧
    (¬ (35 ≤ i.code.c.val ∧ i.code.c.val ≤ 37) →
      t.dev[u].cursor = s.dev[u].cursor ∧ t.dev[u].deadline = s.dev[u].deadline ∧
        (t.dev[u].status = s.dev[u].status ∨ t.dev[u].status = .ready))

/-- OV turns on and off, CI changes and the engine halts only under the instructions the spec names; the
configuration never changes. (10_state.md R44, 10_state.md R45, 10_state.md R55, 48_control.md R431,
42_arithmetic.md R195) -/
def Obligations.FlagsAndStatus : Prop :=
  ∀ (i : Instr) (s t : State), exec i s = .next t →
    (s.ov = false → t.ov = true →
      i.code.c.val = 1 ∨ i.code.c.val = 2 ∨ (i.code.c.val = 3 ∨ i.code.c.val = 4) ∧ i.code.f.val = 6 ∨
      i.code.c.val = 5 ∧ i.code.f.val ∈ [0, 6, 7] ∨
      (i.code.c.val = 48 ∨ i.code.c.val = 55) ∧ i.code.f.val < 2) ∧
    (s.ov = true → t.ov = false → i.code.c.val = 39 ∧ (i.code.f.val = 2 ∨ i.code.f.val = 3)) ∧
    (t.ci ≠ s.ci → 56 ≤ i.code.c.val) ∧
    (t.es = s.es ∨ t.es = .faulted ∨ t.es = .halted ∧ i.code.c.val = 5 ∧ i.code.f.val = 2) ∧
    (t.fr ≠ s.fr → t.es = .faulted) ∧ t.cfg = s.cfg

/-- LDA, LDX and LD1..LD6 load the field of CONTENTS(M) and change nothing else but PC and E; a value too large
for an index register is IndexOverflow. (R140) -/
def Obligations.Load : Prop :=
  ∀ (a : Addr) (f : Field) (s : State), f.valid = true →
    (InMemory (s.effAddr a) →
      let v := field (s.mem.read (s.effAddr a).toNat) f
      exec (.lda a f) s = .next (State.after { s with rA := v } s (.lda a f)) ∧
      exec (.ldx a f) s = .next (State.after { s with rX := v } s (.ldx a f)) ∧
      ∀ k : IxReg,
        (v.val.natAbs ≤ 4095 →
          ∃ r : Register2, r.asWord = v ∧
            exec (loadIndex k a f) s = .next (State.after (s.setIndex k r) s (loadIndex k a f))) ∧
        (4095 < v.val.natAbs →
          exec (loadIndex k a f) s = .next (s.stopped (loadIndex k a f) .indexOverflow (.value v.val)))) ∧
    (¬ InMemory (s.effAddr a) → (s.effAddr a).natAbs ≤ 4095 →
      ∀ i : Instr, (i = .lda a f ∨ i = .ldx a f ∨ ∃ k, i = loadIndex k a f) →
        exec i s = .next (s.stopped i .memBounds (.value (s.effAddr a))))

/-- LDAN, LDXN and LD1N..LD6N load the field of CONTENTS(M) with its sign inverted; a magnitude too large for an
index register is IndexOverflow. The sign of the operand that IndexOverflow records rests on
notes/assumptions/8.md (DEDUCED). (41_load_store.md R141, 60_exceptions.md R461) -/
def Obligations.LoadNegated : Prop :=
  ∀ (a : Addr) (f : Field) (s : State), f.valid = true →
    (InMemory (s.effAddr a) →
      let w := field (s.mem.read (s.effAddr a).toNat) f
      let v : Word := { w with sign := w.sign.neg }
      exec (.ldan a f) s = .next (State.after { s with rA := v } s (.ldan a f)) ∧
      exec (.ldxn a f) s = .next (State.after { s with rX := v } s (.ldxn a f)) ∧
      ∀ k : IxReg,
        (v.val.natAbs ≤ 4095 →
          ∃ r : Register2, r.asWord = v ∧
            exec (loadIndexNegated k a f) s =
              .next (State.after (s.setIndex k r) s (loadIndexNegated k a f))) ∧
        (4095 < v.val.natAbs →
          exec (loadIndexNegated k a f) s =
            .next (s.stopped (loadIndexNegated k a f) .indexOverflow (.value v.val)))) ∧
    (¬ InMemory (s.effAddr a) → (s.effAddr a).natAbs ≤ 4095 →
      ∀ i : Instr, (i = .ldan a f ∨ i = .ldxn a f ∨ ∃ k, i = loadIndexNegated k a f) →
        exec i s = .next (s.stopped i .memBounds (.value (s.effAddr a))))

/-- STA, ST1..ST6, STX, STJ and STZ put the source into the field of CONTENTS(M) and change no other word and no
register. (R142) -/
def Obligations.Store : Prop :=
  ∀ (a : Addr) (f : Field) (s : State), f.valid = true → s.mem.wf memSize = true →
    ∀ (i : Instr) (src : Word),
      (i, src) ∈ [(.sta a f, s.rA), (.st1 a f, s.rI1.asWord), (.st2 a f, s.rI2.asWord), (.st3 a f, s.rI3.asWord),
        (.st4 a f, s.rI4.asWord), (.st5 a f, s.rI5.asWord), (.st6 a f, s.rI6.asWord), (.stx a f, s.rX),
        (.stj a f, s.rJ.asWord), (.stz a f, Word.plusZero)] →
      (InMemory (s.effAddr a) →
        ∃ m : Memory, exec i s = .next (State.after { s with mem := m } s i) ∧ m.wf memSize = true ∧
          ∀ x : Nat, m.read x =
            if (x : Int) = s.effAddr a then setfield (s.mem.read x) f src else s.mem.read x) ∧
      (¬ InMemory (s.effAddr a) → (s.effAddr a).natAbs ≤ 4095 →
        exec i s = .next (s.stopped i .memBounds (.value (s.effAddr a))))

/-- ADD, SUB, INCA, DECA, INCX and DECX give the register and OV by the add law, and change nothing else but PC
and E. (R181, R331) -/
def Obligations.AddLaws : Prop :=
  ∀ (a : Addr) (s : State),
    (∀ f : Field, f.valid = true → InMemory (s.effAddr a) →
      ∀ (i : Instr) (d : Int),
        (i, d) ∈ [(.add a f, (field (s.mem.read (s.effAddr a).toNat) f).val),
          (.sub a f, -(field (s.mem.read (s.effAddr a).toNat) f).val)] →
        ∃ (r : Word) (o : Bool), AddLaw s.rA s.ov d r o ∧
          exec i s = .next (State.after { s with rA := r, ov := o } s i)) ∧
    ((s.effAddr a).natAbs ≤ 4095 →
      (∀ (i : Instr) (d : Int), (i, d) ∈ [(.inca a, s.effAddr a), (.deca a, -s.effAddr a)] →
        ∃ (r : Word) (o : Bool), AddLaw s.rA s.ov d r o ∧
          exec i s = .next (State.after { s with rA := r, ov := o } s i)) ∧
      ∀ (i : Instr) (d : Int), (i, d) ∈ [(.incx a, s.effAddr a), (.decx a, -s.effAddr a)] →
        ∃ (r : Word) (o : Bool), AddLaw s.rX s.ov d r o ∧
          exec i s = .next (State.after { s with rX := r, ov := o } s i))

/-- MUL leaves the exact product in rA:rX with the algebraic sign in both, and changes nothing else but PC and
E. (42_arithmetic.md R184, 42_arithmetic.md R180) -/
def Obligations.Multiply : Prop :=
  ∀ (a : Addr) (f : Field) (s : State), f.valid = true → InMemory (s.effAddr a) →
    let v := field (s.mem.read (s.effAddr a).toNat) f
    ∃ x y : Word, exec (.mul a f) s = .next (State.after { s with rA := x, rX := y } s (.mul a f)) ∧
      x.mag * W + y.mag = s.rA.mag * v.mag ∧
      x.sign = (if s.rA.sign = v.sign then .plus else .minus) ∧ y.sign = x.sign

/-- DIV leaves quotient and remainder of rA:rX by the field, or raises DivideError(M) for a zero divisor or a
quotient past W − 1. (42_arithmetic.md R185, 42_arithmetic.md R180, 60_exceptions.md R464) -/
def Obligations.Divide : Prop :=
  ∀ (a : Addr) (f : Field) (s : State), f.valid = true → InMemory (s.effAddr a) →
    let v := field (s.mem.read (s.effAddr a).toNat) f
    (v.mag ≠ 0 → s.rA.mag < v.mag →
      ∃ q r : Word, exec (.div a f) s = .next (State.after { s with rA := q, rX := r } s (.div a f)) ∧
        q.mag * v.mag + r.mag = s.rA.mag * W + s.rX.mag ∧ r.mag < v.mag ∧
        q.sign = (if s.rA.sign = v.sign then .plus else .minus) ∧ r.sign = s.rA.sign) ∧
    (v.mag = 0 ∨ v.mag ≤ s.rA.mag →
      exec (.div a f) s = .next (s.stopped (.div a f) .divideError (.value (s.effAddr a))))

/-- The floating kinds write what FLOAT_UNIT answers and nothing else, raise DivideError where it faults, and
RefusedFloat where it is absent. The form of FLOAT_UNIT's results is notes/assumptions/2.md (DESIGN CHOICE);
that rX and the index registers are unchanged rests on notes/assumptions/17.md (DEDUCED). (42_arithmetic.md
R195, 10_state.md R59) -/
def Obligations.Floating : Prop :=
  ∀ (a : Addr) (s : State), (s.effAddr a).natAbs ≤ 4095 →
    (s.cfg.floatUnit = none →
      ∀ i ∈ [Instr.fadd a, .fsub a, .fmul a, .fdiv a, .flot a, .fix a, .fcmp a],
        exec i s = .next (s.stopped i .refusedFloat (.opcode i.code))) ∧
    ∀ u : FloatUnit, s.cfg.floatUnit = some u →
      (∀ (i : Instr) (r : FloatResult),
        (i, r) ∈ [(.flot a, floatConv u .flot s.rA), (.fix a, floatConv u .fix s.rA)] ∨
          (InMemory (s.effAddr a) ∧
            (i, r) ∈ [(.fadd a, floatArith u .fadd s.rA (s.mem.read (s.effAddr a).toNat)),
              (.fsub a, floatArith u .fsub s.rA (s.mem.read (s.effAddr a).toNat)),
              (.fmul a, floatArith u .fmul s.rA (s.mem.read (s.effAddr a).toNat)),
              (.fdiv a, floatArith u .fdiv s.rA (s.mem.read (s.effAddr a).toNat))]) →
        (∀ (w : Word) (b : Bool), r = .ok w b →
          exec i s = .next (State.after { s with rA := w, ov := s.ov || b } s i)) ∧
        (r = .fault → exec i s = .next (s.stopped i .divideError (.value (s.effAddr a))))) ∧
      (InMemory (s.effAddr a) →
        (∀ c : Comparison, floatCompare u s.rA (s.mem.read (s.effAddr a).toNat) s.mem = .ok c →
          exec (.fcmp a) s = .next (State.after { s with ci := c } s (.fcmp a))) ∧
        (floatCompare u s.rA (s.mem.read (s.effAddr a).toNat) s.mem = .fault →
          exec (.fcmp a) s = .next (s.stopped (.fcmp a) .divideError (.value (s.effAddr a)))))

/-- SLA and SRA move rA's bytes by M places with zeros shifted in, keep its sign, and change nothing else but PC
and E. (43_shift.md R211, 43_shift.md R212, 43_shift.md R210) -/
def Obligations.ShiftAccumulator : Prop :=
  ∀ (a : Addr) (s : State), 0 ≤ s.effAddr a → s.effAddr a ≤ 4095 →
    let m := (s.effAddr a).toNat
    (∃ w : Word, exec (.sla a) s = .next (State.after { s with rA := w } s (.sla a)) ∧ w.sign = s.rA.sign ∧
      ∀ k : Nat, 1 ≤ k → k ≤ 5 → w.byte k = if k + m ≤ 5 then s.rA.byte (k + m) else 0) ∧
    (∃ w : Word, exec (.sra a) s = .next (State.after { s with rA := w } s (.sra a)) ∧ w.sign = s.rA.sign ∧
      ∀ k : Nat, 1 ≤ k → k ≤ 5 → w.byte k = if 1 + m ≤ k then s.rA.byte (k - m) else 0)

/-- SLAX and SRAX move the ten bytes of rA:rX by M places with zeros shifted in, keep both signs, and change
nothing else but PC and E. (43_shift.md R213, 43_shift.md R214, 10_state.md R41) -/
def Obligations.ShiftPair : Prop :=
  ∀ (a : Addr) (s : State), 0 ≤ s.effAddr a → s.effAddr a ≤ 4095 →
    let m := (s.effAddr a).toNat
    (∃ x y : Word, exec (.slax a) s = .next (State.after { s with rA := x, rX := y } s (.slax a)) ∧
      x.sign = s.rA.sign ∧ y.sign = s.rX.sign ∧
      ∀ i : Nat, 1 ≤ i → i ≤ 10 →
        pairByte x y i = if i + m ≤ 10 then pairByte s.rA s.rX (i + m) else 0) ∧
    (∃ x y : Word, exec (.srax a) s = .next (State.after { s with rA := x, rX := y } s (.srax a)) ∧
      x.sign = s.rA.sign ∧ y.sign = s.rX.sign ∧
      ∀ i : Nat, 1 ≤ i → i ≤ 10 →
        pairByte x y i = if 1 + m ≤ i then pairByte s.rA s.rX (i - m) else 0)

/-- SLC and SRC rotate the ten bytes of rA:rX by M mod 10 places, keep both signs, and undo one another.
(43_shift.md R215, 43_shift.md R216, 43_shift.md R217) -/
def Obligations.RotatePair : Prop :=
  ∀ (a : Addr) (s : State), 0 ≤ s.effAddr a → s.effAddr a ≤ 4095 →
    let m := (s.effAddr a).toNat
    (∃ x y : Word, exec (.slc a) s = .next (State.after { s with rA := x, rX := y } s (.slc a)) ∧
      x.sign = s.rA.sign ∧ y.sign = s.rX.sign ∧
      ∀ i : Nat, i < 10 → pairByte x y (i + 1) = pairByte s.rA s.rX ((i + m) % 10 + 1)) ∧
    (∃ x y : Word, exec (.src a) s = .next (State.after { s with rA := x, rX := y } s (.src a)) ∧
      x.sign = s.rA.sign ∧ y.sign = s.rX.sign ∧
      ∀ i : Nat, i < 10 → pairByte x y ((i + m) % 10 + 1) = pairByte s.rA s.rX (i + 1)) ∧
    (∃ t u : State, exec (.slc a) s = .next t ∧ exec (.src a) t = .next u ∧ u.rA = s.rA ∧ u.rX = s.rX)

/-- With EXT_BINARY_OPS, SLB and SRB shift the 60-bit magnitude of rA:rX by M bits and keep both signs; without
it they are DecodeFailure. (43_shift.md R219, 43_shift.md R220, 43_shift.md R218) -/
def Obligations.ShiftBinary : Prop :=
  ∀ (a : Addr) (s : State),
    (s.cfg.extBinaryOps = true → 0 ≤ s.effAddr a → s.effAddr a ≤ 4095 →
      ∀ (i : Instr) (d : Nat),
        (i, d) ∈ [(.slb a, (s.rA.mag * W + s.rX.mag) * 2 ^ (s.effAddr a).toNat % 2 ^ 60),
          (.srb a, (s.rA.mag * W + s.rX.mag) / 2 ^ (s.effAddr a).toNat)] →
        ∃ x y : Word, exec i s = .next (State.after { s with rA := x, rX := y } s i) ∧
          x.sign = s.rA.sign ∧ y.sign = s.rX.sign ∧ x.mag * W + y.mag = d) ∧
    (s.cfg.extBinaryOps = true → -4095 ≤ s.effAddr a → s.effAddr a < 0 →
      ∀ i ∈ [Instr.slb a, .srb a], exec i s = .next (s.stopped i .negativeShift (.value (s.effAddr a)))) ∧
    (s.cfg.extBinaryOps = false →
      ∀ i ∈ [Instr.slb a, .srb a], exec i s = .next (s.stopped i .decodeFailure (.opcode i.code)))

/-- Shifting rA or rA:rX by M bytes multiplies or divides its magnitude by 64^M. (43_shift.md R217) -/
def Obligations.ShiftLaws : Prop :=
  ∀ (a : Addr) (s t : State), 0 ≤ s.effAddr a →
    let m := (s.effAddr a).toNat
    (m ≤ 4 → exec (.sla a) s = .next t → t.rA.mag = s.rA.mag * 64 ^ m % W) ∧
    (m ≤ 4 → exec (.sra a) s = .next t → t.rA.mag = s.rA.mag / 64 ^ m) ∧
    (m ≤ 9 → exec (.slax a) s = .next t →
      t.rA.mag * W + t.rX.mag = (s.rA.mag * W + s.rX.mag) * 64 ^ m % (W * W)) ∧
    (m ≤ 9 → exec (.srax a) s = .next t →
      t.rA.mag * W + t.rX.mag = (s.rA.mag * W + s.rX.mag) / 64 ^ m)

/-- A shift with a negative count is NegativeShift(M) and writes nothing. (43_shift.md R210, 60_exceptions.md
R464) -/
def Obligations.NegativeShift : Prop :=
  ∀ (a : Addr) (s : State), -4095 ≤ s.effAddr a → s.effAddr a < 0 →
    ∀ i ∈ [Instr.sla a, .sra a, .slax a, .srax a, .slc a, .src a],
      exec i s = .next (s.stopped i .negativeShift (.value (s.effAddr a)))

/-- CMPA, CMP1..CMP6 and CMPX set CI by comparing the same field of the register and of CONTENTS(M) by value,
and change nothing else but PC and E. That CMPA compares bytes 1..3 of rA itself rests on
notes/assumptions/15.md (DEDUCED). (44_compare.md R230, 44_compare.md R239) -/
def Obligations.Compare : Prop :=
  ∀ (a : Addr) (f : Field) (s : State), f.valid = true →
    ∀ (i : Instr) (r : Word),
      (i, r) ∈ [(.cmpa a f, s.rA), (.cmp1 a f, s.rI1.asWord), (.cmp2 a f, s.rI2.asWord),
        (.cmp3 a f, s.rI3.asWord), (.cmp4 a f, s.rI4.asWord), (.cmp5 a f, s.rI5.asWord),
        (.cmp6 a f, s.rI6.asWord), (.cmpx a f, s.rX)] →
      (InMemory (s.effAddr a) →
        ∃ c : Comparison, exec i s = .next (State.after { s with ci := c } s i) ∧
          (c = .less ↔ (field r f).val < (field (s.mem.read (s.effAddr a).toNat) f).val) ∧
          (c = .equal ↔ (field r f).val = (field (s.mem.read (s.effAddr a).toNat) f).val) ∧
          (c = .greater ↔ (field (s.mem.read (s.effAddr a).toNat) f).val < (field r f).val) ∧
          (f.r.val = 0 → c = .equal)) ∧
      (¬ InMemory (s.effAddr a) → (s.effAddr a).natAbs ≤ 4095 →
        exec i s = .next (s.stopped i .memBounds (.value (s.effAddr a))))

/-- JMP and JSJ go to M, JMP alone saving PC + 1 in rJ, or raise MemBounds(M) for a target outside memory.
(45_jump.md R251, 45_jump.md R252, 45_jump.md R250) -/
def Obligations.UnconditionalJumps : Prop :=
  ∀ (a : Addr) (s : State), InMemory s.pc →
    (InMemory (s.effAddr a) →
      exec (.jmp a) s = .next (s.afterJump s (.jmp a) (s.effAddr a)) ∧
      exec (.jsj a) s =
        .next { s with pc := s.effAddr a, elapsed := s.elapsed + costOf s.cfg (Instr.jsj a).code }) ∧
    (¬ InMemory (s.effAddr a) → (s.effAddr a).natAbs ≤ 4095 →
      ∀ i ∈ [Instr.jmp a, .jsj a], exec i s = .next (s.stopped i .memBounds (.value (s.effAddr a))))

/-- JOV jumps when OV is on and turns it off; JNOV jumps when OV is off and turns it off otherwise; a taken jump
outside memory faults and keeps OV. (45_jump.md R253, 45_jump.md R254, 45_jump.md R250, 60_exceptions.md
R463) -/
def Obligations.OverflowJumps : Prop :=
  ∀ (a : Addr) (s : State), InMemory s.pc →
    (s.ov = true → InMemory (s.effAddr a) →
      exec (.jov a) s = .next (State.afterJump { s with ov := false } s (.jov a) (s.effAddr a))) ∧
    (s.ov = false → (s.effAddr a).natAbs ≤ 4095 → exec (.jov a) s = .next (s.after s (.jov a))) ∧
    (s.ov = false → InMemory (s.effAddr a) →
      exec (.jnov a) s = .next (s.afterJump s (.jnov a) (s.effAddr a))) ∧
    (s.ov = true → (s.effAddr a).natAbs ≤ 4095 →
      exec (.jnov a) s = .next (State.after { s with ov := false } s (.jnov a))) ∧
    ∀ (i : Instr) (taken : Bool), (i, taken) ∈ [(.jov a, s.ov), (.jnov a, !s.ov)] → taken = true →
      ¬ InMemory (s.effAddr a) → (s.effAddr a).natAbs ≤ 4095 →
      exec i s = .next (s.stopped i .memBounds (.value (s.effAddr a)))

/-- JL, JE, JG, JGE, JNE and JLE jump exactly on the values of CI they name, and change nothing when not taken.
(45_jump.md R255, 45_jump.md R256, 45_jump.md R257, 45_jump.md R258, 45_jump.md R259, 45_jump.md R260,
45_jump.md R250) -/
def Obligations.ComparisonJumps : Prop :=
  ∀ (a : Addr) (s : State), InMemory s.pc →
    ∀ (i : Instr) (taken : Bool),
      (i, taken) ∈ [(.jl a, decide (s.ci = .less)), (.je a, decide (s.ci = .equal)),
        (.jg a, decide (s.ci = .greater)), (.jge a, decide (s.ci = .greater ∨ s.ci = .equal)),
        (.jne a, decide (s.ci = .less ∨ s.ci = .greater)), (.jle a, decide (s.ci = .less ∨ s.ci = .equal))] →
      (taken = true → InMemory (s.effAddr a) → exec i s = .next (s.afterJump s i (s.effAddr a))) ∧
      (taken = false → (s.effAddr a).natAbs ≤ 4095 → exec i s = .next (s.after s i)) ∧
      (taken = true → ¬ InMemory (s.effAddr a) → (s.effAddr a).natAbs ≤ 4095 →
        exec i s = .next (s.stopped i .memBounds (.value (s.effAddr a))))

/-- The register jumps on rA, rI1..rI6 and rX jump exactly when the register's value meets the test, −0 counting
as 0; the parity jumps need EXT_BINARY_OPS. (R265) -/
def Obligations.RegisterJumps : Prop :=
  ∀ (a : Addr) (s : State), InMemory s.pc →
    (∀ (r : TestedRegister) (q : SignTest),
      let i := registerJump r q a
      (q.holds (r.value s) → InMemory (s.effAddr a) → exec i s = .next (s.afterJump s i (s.effAddr a))) ∧
      (¬ q.holds (r.value s) → (s.effAddr a).natAbs ≤ 4095 → exec i s = .next (s.after s i)) ∧
      (q.holds (r.value s) → ¬ InMemory (s.effAddr a) → (s.effAddr a).natAbs ≤ 4095 →
        exec i s = .next (s.stopped i .memBounds (.value (s.effAddr a))))) ∧
    ∀ (i : Instr) (taken : Bool),
      (i, taken) ∈ [(.jae a, decide (s.rA.val % 2 = 0)), (.jao a, decide (s.rA.val % 2 ≠ 0)),
        (.jxe a, decide (s.rX.val % 2 = 0)), (.jxo a, decide (s.rX.val % 2 ≠ 0))] →
      (s.cfg.extBinaryOps = true → taken = true → InMemory (s.effAddr a) →
        exec i s = .next (s.afterJump s i (s.effAddr a))) ∧
      (s.cfg.extBinaryOps = true → taken = false → (s.effAddr a).natAbs ≤ 4095 →
        exec i s = .next (s.after s i)) ∧
      (s.cfg.extBinaryOps = true → taken = true → ¬ InMemory (s.effAddr a) → (s.effAddr a).natAbs ≤ 4095 →
        exec i s = .next (s.stopped i .memBounds (.value (s.effAddr a)))) ∧
      (s.cfg.extBinaryOps = false → exec i s = .next (s.stopped i .decodeFailure (.opcode i.code)))

/-- INC1..INC6 and DEC1..DEC6 add M or −M to the index register, a zero keeping its sign, and raise
IndexOverflow past 4095. (R332) -/
def Obligations.IncreaseIndex : Prop :=
  ∀ (k : IxReg) (a : Addr) (s : State), (s.effAddr a).natAbs ≤ 4095 →
    ∀ (i : Instr) (t : Int),
      (i, t) ∈ [(increaseIndex k a, (s.index k).val + s.effAddr a),
        (decreaseIndex k a, (s.index k).val - s.effAddr a)] →
      (t.natAbs ≤ 4095 →
        ∃ r : Register2, r.val = t ∧ (t = 0 → r.sign = (s.index k).sign) ∧
          exec i s = .next (State.after (s.setIndex k r) s i)) ∧
      (4095 < t.natAbs → exec i s = .next (s.stopped i .indexOverflow (.value t)))

/-- ENT and ENN put M or −M into rA, rI1..rI6 or rX, a zero taking the sign of the instruction word or its
opposite. (R333) -/
def Obligations.EnterRegister : Prop :=
  ∀ (a : Addr) (s : State), (s.effAddr a).natAbs ≤ 4095 →
    (∃ w : Word, w.val = s.effAddr a ∧ (s.effAddr a = 0 → w.sign = a.sign) ∧
      exec (.enta a) s = .next (State.after { s with rA := w } s (.enta a)) ∧
      exec (.entx a) s = .next (State.after { s with rX := w } s (.entx a))) ∧
    (∃ w : Word, w.val = -s.effAddr a ∧ (s.effAddr a = 0 → w.sign = a.sign.neg) ∧
      exec (.enna a) s = .next (State.after { s with rA := w } s (.enna a)) ∧
      exec (.ennx a) s = .next (State.after { s with rX := w } s (.ennx a))) ∧
    ∀ k : IxReg,
      (∃ r : Register2, r.val = s.effAddr a ∧ (s.effAddr a = 0 → r.sign = a.sign) ∧
        exec (enterIndex k a) s = .next (State.after (s.setIndex k r) s (enterIndex k a))) ∧
      (∃ r : Register2, r.val = -s.effAddr a ∧ (s.effAddr a = 0 → r.sign = a.sign.neg) ∧
        exec (enterIndexNegated k a) s = .next (State.after (s.setIndex k r) s (enterIndexNegated k a)))

/-- JBUS jumps when the unit is busy at E0 and JRED when it is ready; a unit found ready has its status written
READY. (47_io.md R385, 47_io.md R389, 47_io.md R383, 47_io.md R380) -/
def Obligations.BusyJumps : Prop :=
  ∀ (a : Addr) (u : Byte) (s : State), InMemory s.pc →
    (20 < u.val → (s.effAddr a).natAbs ≤ 4095 →
      ∀ i ∈ [Instr.jbus a u, .jred a u], exec i s = .next (s.stopped i .deviceBounds (.value u.val))) ∧
    ∀ n : Unit21, n.val = u.val →
      (ReadyAt s.dev[n] s.elapsed → (s.effAddr a).natAbs ≤ 4095 →
        exec (.jbus a u) s =
          .next (State.after (s.setDev n { s.dev[n] with status := .ready }) s (.jbus a u))) ∧
      (ReadyAt s.dev[n] s.elapsed → InMemory (s.effAddr a) →
        exec (.jred a u) s =
          .next (State.afterJump (s.setDev n { s.dev[n] with status := .ready }) s (.jred a u)
            (s.effAddr a))) ∧
      (¬ ReadyAt s.dev[n] s.elapsed → InMemory (s.effAddr a) →
        exec (.jbus a u) s = .next (s.afterJump s (.jbus a u) (s.effAddr a))) ∧
      (¬ ReadyAt s.dev[n] s.elapsed → (s.effAddr a).natAbs ≤ 4095 →
        exec (.jred a u) s = .next (s.after s (.jred a u))) ∧
      (¬ InMemory (s.effAddr a) → (s.effAddr a).natAbs ≤ 4095 →
        (ReadyAt s.dev[n] s.elapsed →
          exec (.jred a u) s = .next (s.stopped (.jred a u) .memBounds (.value (s.effAddr a)))) ∧
        (¬ ReadyAt s.dev[n] s.elapsed →
          exec (.jbus a u) s = .next (s.stopped (.jbus a u) .memBounds (.value (s.effAddr a)))))

/-- IN copies the unit's block into CONTENTS(M..M+BLOCK−1), moves a sequential cursor past it and makes the unit
busy, and changes nothing else but PC and E. (47_io.md R386, 47_io.md R384, 47_io.md R390, 47_io.md R391,
20_memory.md R91) -/
def Obligations.InputBlock : Prop :=
  ∀ (a : Addr) (u : Byte) (s : State) (n : Unit21) (e0 base : Nat), n.val = u.val → (s.unit n).canIn = true →
    StartsAt s n e0 → 0 ≤ s.effAddr a → s.effAddr a + (s.unit n).block ≤ 4000 → BlockAt s n base →
    s.mem.wf memSize = true →
    ∃ m : Memory,
      exec (.ioIn a u) s =
        .next { (s.setDev n ⟨s.dev[n].buf, cursorPast s n base, .busyRead,
            e0 + costOf s.cfg (Instr.ioIn a u).code + (s.unit n).lat⟩) with
          mem := m
          pc := s.pc + 1
          elapsed := e0 + costOf s.cfg (Instr.ioIn a u).code } ∧
      m.wf memSize = true ∧
      (∀ j : Nat, j < (s.unit n).block → m.read ((s.effAddr a).toNat + j) = s.dev[n].buf.read (base + j)) ∧
      ∀ x : Nat, ((x : Int) < s.effAddr a ∨ s.effAddr a + (s.unit n).block ≤ x) → m.read x = s.mem.read x

/-- OUT copies CONTENTS(M..M+BLOCK−1) into the unit's block, moves a sequential cursor past it and makes the
unit busy, and changes no memory and no register. (47_io.md R387, 47_io.md R384, 47_io.md R390, 47_io.md
R391) -/
def Obligations.OutputBlock : Prop :=
  ∀ (a : Addr) (u : Byte) (s : State) (n : Unit21) (e0 base : Nat), n.val = u.val → (s.unit n).canOut = true →
    StartsAt s n e0 → 0 ≤ s.effAddr a → s.effAddr a + (s.unit n).block ≤ 4000 → BlockAt s n base →
    s.dev[n].buf.wf (s.unit n).cap = true →
    ∃ b : Memory,
      exec (.ioOut a u) s =
        .next { (s.setDev n ⟨b, cursorPast s n base, .busyWrite,
            e0 + costOf s.cfg (Instr.ioOut a u).code + (s.unit n).lat⟩) with
          pc := s.pc + 1
          elapsed := e0 + costOf s.cfg (Instr.ioOut a u).code } ∧
      b.wf (s.unit n).cap = true ∧
      (∀ j : Nat, j < (s.unit n).block → b.read (base + j) = s.mem.read ((s.effAddr a).toNat + j)) ∧
      ∀ x : Nat, (x < base ∨ base + (s.unit n).block ≤ x) → b.read x = s.dev[n].buf.read x

/-- IOC rewinds or skips a tape, skips the printer to a new page, rewinds the paper tape and accepts 0 on a
disk, changing the cursor and the status alone. (47_io.md R388, 47_io.md R384) -/
def Obligations.ControlOperation : Prop :=
  ∀ (a : Addr) (u : Byte) (s : State) (n : Unit21) (e0 c : Nat), n.val = u.val → (s.effAddr a).natAbs ≤ 4095 →
    ControlDefined (s.unit n).kind (s.effAddr a) → StartsAt s n e0 → ControlCursor s n (s.effAddr a) c →
    (ControlForward (s.unit n).kind (s.effAddr a) → c ≤ (s.unit n).cap) →
    exec (.ioc a u) s =
      .next { (s.setDev n
          (if s.cfg.iocSetsBusy then
            ⟨s.dev[n].buf, c, .busyWrite, e0 + costOf s.cfg (Instr.ioc a u).code + (s.unit n).lat⟩
          else ⟨s.dev[n].buf, c, .ready, s.dev[n].deadline⟩)) with
        pc := s.pc + 1
        elapsed := e0 + costOf s.cfg (Instr.ioc a u).code }

/-- IN, OUT and IOC fault in the order of R464: DeviceBounds, direction or undefined operation, busy, MemBounds,
DeviceRange. (60_exceptions.md R464, 47_io.md R380, 47_io.md R384, 47_io.md R386, 47_io.md R387, 47_io.md
R388, 47_io.md R390) -/
def Obligations.InputOutputFaults : Prop :=
  ∀ (a : Addr) (u : Byte) (s : State), (s.effAddr a).natAbs ≤ 4095 →
    (20 < u.val → ∀ i ∈ [Instr.ioIn a u, .ioOut a u, .ioc a u],
      exec i s = .next (s.stopped i .deviceBounds (.value u.val))) ∧
    ∀ n : Unit21, n.val = u.val →
      (∀ (i : Instr) (allowed : Prop),
        (i = .ioIn a u ∧ (allowed ↔ (s.unit n).canIn = true)) ∨
          (i = .ioOut a u ∧ (allowed ↔ (s.unit n).canOut = true)) ∨
          (i = .ioc a u ∧ (allowed ↔ ControlDefined (s.unit n).kind (s.effAddr a))) →
        (¬ allowed → exec i s = .next (s.stopped i .deviceMisuse (.value u.val))) ∧
        (allowed → ¬ ReadyAt s.dev[n] s.elapsed → s.cfg.busyPolicy = .fatal →
          exec i s = .next (s.stopped i .deviceMisuse (.value u.val)))) ∧
      (∀ e0 : Nat, StartsAt s n e0 →
        (∀ (i : Instr) (allowed : Bool),
          (i, allowed) ∈ [(.ioIn a u, (s.unit n).canIn), (.ioOut a u, (s.unit n).canOut)] → allowed = true →
          (s.effAddr a < 0 ∨ 3999 < s.effAddr a + (s.unit n).block - 1 →
            exec i s = .next (s.stopped i .memBounds (.value (s.effAddr a)))) ∧
          (0 ≤ s.effAddr a → s.effAddr a + (s.unit n).block - 1 ≤ 3999 → (∀ base : Nat, ¬ BlockAt s n base) →
            exec i s = .next (s.stopped i .deviceRange (.value u.val)))) ∧
        (ControlDefined (s.unit n).kind (s.effAddr a) → ControlForward (s.unit n).kind (s.effAddr a) →
          ∀ c : Nat, ControlCursor s n (s.effAddr a) c → (s.unit n).cap < c →
          exec (.ioc a u) s = .next (s.stopped (.ioc a u) .deviceRange (.value u.val))))

/-- NOP changes only PC and E, whatever its F; HLT sets ES = HALTED, keeps PC and adds its cost. (48_control.md
R430, 48_control.md R431) -/
def Obligations.NoOperationAndHalt : Prop :=
  ∀ (a : Addr) (b : Byte) (s : State), (s.effAddr a).natAbs ≤ 4095 →
    exec (.nop a b) s = .next (s.after s (.nop a b)) ∧
    exec (.hlt a) s =
      .next { s with es := .halted, elapsed := s.elapsed + costOf s.cfg (Instr.hlt a).code }

/-- NUM reads the ten bytes of rA:rX as decimal digits into rA, CHAR writes the digits of rA as codes into
rA:rX, and NUM after CHAR restores rA's magnitude. (49_special.md R440, 49_special.md R441) -/
def Obligations.DecimalConversion : Prop :=
  ∀ (a : Addr) (s : State), (s.effAddr a).natAbs ≤ 4095 →
    (∀ n : Nat, n = ∑ i ∈ Finset.range 10, (pairByte s.rA s.rX (i + 1)).val % 10 * 10 ^ (9 - i) →
      ∃ (w : Word) (o : Bool), exec (.num a) s = .next (State.after { s with rA := w, ov := o } s (.num a)) ∧
        w.sign = s.rA.sign ∧ w.mag = n % W ∧
        (o = true ↔ s.ov = true ∨ (s.cfg.numSetsOverflow = true ∧ W ≤ n))) ∧
    (∃ x y : Word, exec (.char a) s = .next (State.after { s with rA := x, rX := y } s (.char a)) ∧
      x.sign = s.rA.sign ∧ y.sign = s.rX.sign ∧
      ∀ i : Nat, i < 10 → (pairByte x y (i + 1)).val = 30 + s.rA.mag / 10 ^ (9 - i) % 10) ∧
    (∃ t v : State, exec (.char a) s = .next t ∧ exec (.num a) t = .next v ∧ v.rA = s.rA ∧ v.ov = s.ov)

/-- MOVE copies F words from M to val(rI1) one at a time from low to high and advances rI1 past them, all bounds
checked first. (49_special.md R442, 70_reset_and_hazards.md R524, 20_memory.md R80) -/
def Obligations.Move : Prop :=
  ∀ (a : Addr) (b : Byte) (s : State), s.mem.wf memSize = true → (s.effAddr a).natAbs ≤ 4095 →
    let m := s.effAddr a
    let d := s.rI1.val
    let i := Instr.move a b
    (¬ InMemory m → exec i s = .next (s.stopped i .memBounds (.value m))) ∧
    (InMemory m → b.val = 0 → exec i s = .next (s.after s i)) ∧
    (InMemory m → 0 < b.val → 3999 < m + b.val - 1 →
      exec i s = .next (s.stopped i .memBounds (.value (m + b.val - 1)))) ∧
    (InMemory m → 0 < b.val → m + b.val - 1 ≤ 3999 → (d < 0 ∨ 3999 < d + b.val - 1) →
      exec i s = .next (s.stopped i .memBounds (.value d))) ∧
    (InMemory m → 0 < b.val → m + b.val - 1 ≤ 3999 → 0 ≤ d → d + b.val - 1 ≤ 3999 →
      ∃ (q : Memory) (r : Register2), exec i s = .next (State.after { s with mem := q, rI1 := r } s i) ∧
        q.wf memSize = true ∧ r.sign = .plus ∧ r.val = d + b.val ∧
        (∀ j : Nat, j < b.val →
          q.read (d.toNat + j) =
            if d ≤ m + j ∧ m + j < d + j then q.read (m.toNat + j) else s.mem.read (m.toNat + j)) ∧
        ∀ x : Nat, ((x : Int) < d ∨ d + b.val ≤ x) → q.read x = s.mem.read x)

/-- Loading an image sets the words it lists and PC and nothing else, and is refused as a whole if an address or
a byte is out of range. (70_reset_and_hazards.md R511, 20_memory.md R88) -/
def Obligations.LoadImage : Prop :=
  ∀ (s : State) (img : List (Int × RawWord)) (start : Int), s.mem.wf memSize = true →
    ((img.map Prod.fst).Nodup → (∀ p ∈ img, InMemory p.1 ∧ p.2.check ≠ none) →
      ∃ m : Memory, s.loadImage img start = some { s with mem := m, pc := start } ∧ m.wf memSize = true ∧
        (∀ p ∈ img, some (m.read p.1.toNat) = p.2.check) ∧
        ∀ x : Nat, (∀ p ∈ img, p.1 ≠ x) → m.read x = s.mem.read x) ∧
    ((∃ p ∈ img, ¬ InMemory p.1 ∨ p.2.check = none) → s.loadImage img start = none)

/-- The character table maps the codes 0..55 one to one to characters and gives the codes 56..63 none.
(10_state.md R48, 93_implementation_defined.md) -/
def Obligations.CharacterTable : Prop :=
  ∀ cfg : Config, (characters cfg).Nodup →
    (∀ b : Byte, b.val < 56 → ∃ c : Char, charOfByte cfg b = some c ∧ byteOfChar cfg c = some b) ∧
    (∀ b : Byte, 56 ≤ b.val → charOfByte cfg b = none) ∧
    (∀ (c : Char) (b : Byte), byteOfChar cfg c = some b → charOfByte cfg b = some c) ∧
    ∀ n : Nat, n < 10 → charOfByte cfg (Byte.ofNat (30 + n)) = some (Char.ofNat (48 + n))

/-- The host's seed of a memory or buffer word is read back, leaves every other word alone, and is refused
outside the store or for a byte outside 0..63. (70_reset_and_hazards.md R514, 70_reset_and_hazards.md R515,
10_state.md R39) -/
def Obligations.HostSeeding : Prop :=
  ∀ (s : State) (w : RawWord), s.mem.wf memSize = true →
    (∀ a : Int, InMemory a → ∀ v : Word, w.check = some v →
      ∃ m : Memory, s.seedMemory a w = some { s with mem := m } ∧ m.wf memSize = true ∧
        ∀ x : Nat, m.read x = if (x : Int) = a then v else s.mem.read x) ∧
    (∀ a : Int, ¬ InMemory a ∨ w.check = none → s.seedMemory a w = none) ∧
    (∀ (u : Unit21) (i : Nat) (v : Word), i < (s.unit u).cap → s.dev[u].buf.wf (s.unit u).cap = true →
      w.check = some v →
      ∃ b : Memory, s.seedDevice u.val i w = some (s.setDev u { s.dev[u] with buf := b }) ∧
        ∀ x : Nat, b.read x = if x = i then v else s.dev[u].buf.read x) ∧
    (∀ u i : Int, (u < 0 ∨ 20 < u) ∨ w.check = none → s.seedDevice u i w = none) ∧
    ∀ (u : Unit21) (i : Int), (i < 0 ∨ (s.unit u).cap ≤ i) → s.seedDevice u.val i w = none

/-- Reset and then any sequence of host operations that does not seed rJ with sign − gives a state that meets
the launch premises. (R512) -/
def Obligations.LaunchPremises : Prop :=
  ∀ (s : State) (ops : List HostOp), (∀ o ∈ ops, o.keepsJump) →
    (s.hostReset.hostOps ops).Launch
end

