-- ==== Sys2Proof/Laws/Codec.lean ====
section
/-! SUPPORT. The laws of the word codec (10_state.md R30..R40): magnitudes and values, words from magnitudes,
bytes, fields and two-byte registers. -/

namespace Sys2Proof

@[simp] theorem Byte.val_ofNat (n : Nat) : (Byte.ofNat n).val = n % 64 := rfl

theorem Word.ext_bytes {v w : Word} (hs : v.sign = w.sign) (h1 : v.b1.val = w.b1.val)
    (h2 : v.b2.val = w.b2.val) (h3 : v.b3.val = w.b3.val) (h4 : v.b4.val = w.b4.val)
    (h5 : v.b5.val = w.b5.val) : v = w := by
  cases v; cases w
  simp only [Word.mk.injEq, Fin.ext_iff]
  exact ⟨hs, h1, h2, h3, h4, h5⟩

theorem Register2.ext_bytes {q r : Register2} (hs : q.sign = r.sign) (h1 : q.c1.val = r.c1.val)
    (h2 : q.c2.val = r.c2.val) : q = r := by
  cases q; cases r
  simp only [Register2.mk.injEq, Fin.ext_iff]
  exact ⟨hs, h1, h2⟩

/-- Every magnitude is at most W − 1 (R31). -/
theorem Word.mag_lt (w : Word) : w.mag < W := by
  have := w.b1.isLt; have := w.b2.isLt; have := w.b3.isLt; have := w.b4.isLt; have := w.b5.isLt
  simp only [Word.mag, W]; omega

@[simp] theorem Word.sign_ofMag (s : Sign) (m : Nat) : (Word.ofMag s m).sign = s := rfl

@[simp] theorem Word.sign_ofBytes (s : Sign) (f : Nat → Byte) : (Word.ofBytes s f).sign = s := rfl

/-- A number below 64^5 is the sum of its five base-64 digits. -/
theorem base64_digits {m : Nat} (h : m / 16777216 < 64) :
    m / 16777216 % 64 * 16777216 + m / 262144 % 64 * 262144 + m / 4096 % 64 * 4096 + m / 64 % 64 * 64 + m % 64
      = m := by omega

/-- `word(s, m)` has the magnitude m, for m ≤ W − 1. -/
theorem Word.mag_ofMag {s : Sign} {m : Nat} (h : m < W) : (Word.ofMag s m).mag = m :=
  base64_digits (Nat.div_lt_of_lt_mul h)

/-- The magnitude by Horner's rule. -/
theorem Word.mag_horner (w : Word) :
    w.mag = (((w.b1.val * 64 + w.b2.val) * 64 + w.b3.val) * 64 + w.b4.val) * 64 + w.b5.val := by
  unfold Word.mag; ring

theorem base64_head (a : Nat) (b : Byte) : (a * 64 + b.val) / 64 = a := by
  have := b.isLt; omega

theorem base64_last (a : Nat) (b : Byte) : (a * 64 + b.val) % 64 = b.val := by
  have := b.isLt; omega

theorem Word.mag_b5 (w : Word) : w.mag % 64 = w.b5.val := by
  rw [Word.mag_horner, base64_last]

theorem Word.mag_b4 (w : Word) : w.mag / 64 % 64 = w.b4.val := by
  rw [Word.mag_horner, base64_head, base64_last]

theorem Word.mag_b3 (w : Word) : w.mag / 4096 % 64 = w.b3.val := by
  have h : w.mag / 4096 = w.mag / 64 / 64 := by simp only [Nat.div_div_eq_div_mul, Nat.reduceMul]
  rw [h, Word.mag_horner, base64_head, base64_head, base64_last]

theorem Word.mag_b2 (w : Word) : w.mag / 262144 % 64 = w.b2.val := by
  have h : w.mag / 262144 = w.mag / 64 / 64 / 64 := by simp only [Nat.div_div_eq_div_mul, Nat.reduceMul]
  rw [h, Word.mag_horner, base64_head, base64_head, base64_head, base64_last]

theorem Word.mag_b1 (w : Word) : w.mag / 16777216 % 64 = w.b1.val := by
  have h : w.mag / 16777216 = w.mag / 64 / 64 / 64 / 64 := by
    simp only [Nat.div_div_eq_div_mul, Nat.reduceMul]
  rw [h, Word.mag_horner, base64_head, base64_head, base64_head, base64_head]
  exact Nat.mod_eq_of_lt w.b1.isLt

/-- A word is its sign and its magnitude. -/
theorem Word.ofMag_mag (w : Word) : Word.ofMag w.sign w.mag = w := by
  refine Word.ext_bytes (Word.sign_ofMag _ _) ?_ ?_ ?_ ?_ ?_ <;> simp only [Word.ofMag, Byte.val_ofNat]
  · exact w.mag_b1
  · exact w.mag_b2
  · exact w.mag_b3
  · exact w.mag_b4
  · exact w.mag_b5

theorem Word.ext_mag {v w : Word} (hs : v.sign = w.sign) (hm : v.mag = w.mag) : v = w := by
  rw [← v.ofMag_mag, ← w.ofMag_mag, hs, hm]

@[simp] theorem Sign.natAbs_apply (s : Sign) (m : Nat) : (s.apply m).natAbs = m := by
  cases s <;> simp [Sign.apply]

@[simp] theorem Word.natAbs_val (w : Word) : w.val.natAbs = w.mag := by simp [Word.val]

@[simp] theorem Register2.natAbs_val (r : Register2) : r.val.natAbs = r.mag := by simp [Register2.val]

/-- |val(w)| ≤ W − 1 (R31). -/
theorem Word.natAbs_val_lt (w : Word) : w.val.natAbs < W := by simpa using w.mag_lt

/-- `sgnof(v, s0)` applied to |v| is v. -/
theorem sgnof_apply (v : Int) (s0 : Sign) : (sgnof v s0).apply v.natAbs = v := by
  unfold sgnof
  split
  · simp only [Sign.apply]; omega
  · split
    · simp only [Sign.apply]; omega
    · have : v = 0 := by omega
      subst this; cases s0 <;> rfl

@[simp] theorem sgnof_zero (s0 : Sign) : sgnof 0 s0 = s0 := rfl

theorem sgnof_pos {v : Int} (h : 0 < v) (s0 : Sign) : sgnof v s0 = .plus := by simp [sgnof, h]

theorem sgnof_neg {v : Int} (h : v < 0) (s0 : Sign) : sgnof v s0 = .minus := by
  have : ¬ 0 < v := by omega
  simp [sgnof, h, this]

/-- `toWord(v, s0)` has the value v, for |v| ≤ W − 1 (R34). -/
theorem val_toWord {v : Int} (h : v.natAbs < W) (s0 : Sign) : (toWord v s0).val = v := by
  simp only [toWord, Word.val, Word.sign_ofMag, Word.mag_ofMag h, sgnof_apply]

@[simp] theorem sign_toWord_zero (s0 : Sign) : (toWord 0 s0).sign = s0 := rfl

/-- A word is determined by its value and, for a zero, its sign. -/
theorem toWord_val (w : Word) : toWord w.val w.sign = w := by
  refine Word.ext_mag ?_ ?_
  · simp only [toWord, Word.sign_ofMag, Word.val]
    rcases Nat.eq_zero_or_pos w.mag with h | h
    · rw [h]; cases w.sign <;> rfl
    · cases hs : w.sign
      · exact sgnof_pos (by simp [Sign.apply, h]) _
      · exact sgnof_neg (by simp [Sign.apply, h]) _
  · simp only [toWord, Word.natAbs_val, Word.mag_ofMag w.mag_lt]

theorem Word.val_eq_zero_iff (w : Word) : w.val = 0 ↔ w.mag = 0 := by
  rw [← Int.natAbs_eq_zero, Word.natAbs_val]

/-- Byte k of `ofBytes s f` is f k, 1 ≤ k ≤ 5. -/
theorem Word.byte_ofBytes {k : Nat} (s : Sign) (f : Nat → Byte) (h1 : 1 ≤ k) (h5 : k ≤ 5) :
    (Word.ofBytes s f).byte k = f k := by
  rcases (by omega : k = 1 ∨ k = 2 ∨ k = 3 ∨ k = 4 ∨ k = 5) with h | h | h | h | h <;> subst h <;> rfl

/-- A word is its sign and its bytes. -/
theorem Word.ofBytes_byte (w : Word) : Word.ofBytes w.sign w.byte = w := rfl

theorem Word.ext_byte {v w : Word} (hs : v.sign = w.sign) (h : ∀ k, 1 ≤ k → k ≤ 5 → v.byte k = w.byte k) :
    v = w := by
  refine Word.ext_bytes hs ?_ ?_ ?_ ?_ ?_
  · exact congrArg Fin.val (h 1 (by omega) (by omega))
  · exact congrArg Fin.val (h 2 (by omega) (by omega))
  · exact congrArg Fin.val (h 3 (by omega) (by omega))
  · exact congrArg Fin.val (h 4 (by omega) (by omega))
  · exact congrArg Fin.val (h 5 (by omega) (by omega))

/-- The magnitude as a sum over byte positions. -/
theorem Word.mag_ofBytes (s : Sign) (f : Nat → Byte) :
    (Word.ofBytes s f).mag =
      (f 1).val * 16777216 + (f 2).val * 262144 + (f 3).val * 4096 + (f 4).val * 64 + (f 5).val := rfl

theorem Field.ofByte_byte (f : Field) : Field.ofByte f.byte = f := by
  have := f.l.isLt; have := f.r.isLt
  cases f
  simp only [Field.ofByte, Field.byte, Byte.val_ofNat, Field.mk.injEq, Fin.ext_iff] at *
  omega

theorem Field.byte_ofByte (b : Byte) : (Field.ofByte b).byte = b := by
  have := b.isLt
  refine Fin.ext ?_
  simp only [Field.ofByte, Field.byte, Byte.val_ofNat]
  omega

theorem Field.valid_iff (f : Field) : f.valid = true ↔ f.l.val ≤ f.r.val ∧ f.r.val ≤ 5 := by
  simp [Field.valid]

/-- No valid field specification has the byte 6, F = 6 of the floating kinds. -/
theorem Field.byte_ne_six {f : Field} (h : f.valid = true) : f.byte.val ≠ 6 := by
  rw [Field.valid_iff] at h
  simp only [Field.byte, Byte.val_ofNat]
  omega

theorem Register2.mag_lt (r : Register2) : r.mag < 4096 := by
  have := r.c1.isLt; have := r.c2.isLt
  simp only [Register2.mag]; omega

@[simp] theorem Register2.sign_ofMag (s : Sign) (m : Nat) : (Register2.ofMag s m).sign = s := rfl

theorem Register2.mag_ofMag {s : Sign} {m : Nat} (h : m ≤ 4095) : (Register2.ofMag s m).mag = m := by
  simp only [Register2.mag, Register2.ofMag, Byte.val_ofNat]; omega

theorem Register2.ofMag_mag (r : Register2) : Register2.ofMag r.sign r.mag = r := by
  have := r.c1.isLt; have := r.c2.isLt
  refine Register2.ext_bytes rfl ?_ ?_ <;>
    simp only [Register2.mag, Register2.ofMag, Byte.val_ofNat] <;> omega

theorem Register2.ext_mag {q r : Register2} (hs : q.sign = r.sign) (hm : q.mag = r.mag) : q = r := by
  rw [← q.ofMag_mag, ← r.ofMag_mag, hs, hm]

/-- `val(asWord(r)) = val(r)` (R37). -/
@[simp] theorem Register2.val_asWord (r : Register2) : r.asWord.val = r.val := by
  simp [Register2.asWord, Word.val, Word.mag, Register2.val, Register2.mag]

/-- `toReg2(w)` is the register seen as w, and exists exactly for |val(w)| ≤ 4095 (R38). -/
theorem toReg2_eq_some_iff {w : Word} {r : Register2} : toReg2 w = some r ↔ r.asWord = w := by
  obtain ⟨s, b1, b2, b3, b4, b5⟩ := w
  obtain ⟨s', c1, c2⟩ := r
  simp only [toReg2, Register2.asWord, Option.ite_none_right_eq_some, Option.some.injEq,
    Register2.mk.injEq, Word.mk.injEq]
  constructor
  · rintro ⟨⟨rfl, rfl, rfl⟩, rfl, rfl, rfl⟩; exact ⟨rfl, rfl, rfl, rfl, rfl, rfl⟩
  · rintro ⟨rfl, rfl, rfl, rfl, rfl, rfl⟩; exact ⟨⟨rfl, rfl, rfl⟩, rfl, rfl, rfl⟩

theorem toReg2_isSome_iff (w : Word) : (toReg2 w).isSome = true ↔ w.mag ≤ 4095 := by
  have := w.b1.isLt; have := w.b2.isLt; have := w.b3.isLt; have := w.b4.isLt; have := w.b5.isLt
  unfold toReg2
  simp only [Option.isSome_ite, Word.mag, Fin.ext_iff, Fin.val_zero]
  omega

theorem toReg2_eq_none_iff (w : Word) : toReg2 w = none ↔ 4095 < w.mag := by
  have := toReg2_isSome_iff w
  cases h : toReg2 w <;> simp [h] at this ⊢ <;> omega

/-- `reg2(v, s0)` has the value v, for |v| ≤ 4095 (R38). -/
theorem val_reg2 {v : Int} (h : v.natAbs ≤ 4095) (s0 : Sign) : (reg2 v s0).val = v := by
  simp only [reg2, Register2.val, Register2.sign_ofMag, Register2.mag_ofMag h, sgnof_apply]

/-- The packed view goes both ways (R101). -/
theorem Word.unpack_pack (w : Word) : Word.unpack w.pack = w := by
  have h := w.mag_lt
  simp only [W] at h
  refine Word.ext_mag ?_ ?_
  · cases hs : w.sign <;> simp only [Word.unpack, Word.pack, hs, Word.sign_ofMag] <;>
      split <;> first | rfl | omega
  · cases hs : w.sign <;> simp only [Word.unpack, Word.pack, hs] <;>
      rw [Word.mag_ofMag (by simp only [W]; omega)] <;> omega

end Sys2Proof

namespace Sys2Proof.Machine

/-- The add law's register below the bound (R181). -/
theorem addWord_small {r : Word} {d : Int} (h : (r.val + d).natAbs ≤ W - 1) :
    addWord r d = toWord (r.val + d) r.sign := by simp only [addWord, h, if_true]

/-- The add law's register past the bound (R181). -/
theorem addWord_large {r : Word} {d : Int} (h : W ≤ (r.val + d).natAbs) :
    addWord r d = Word.ofMag (sgnof (r.val + d) .plus) ((r.val + d).natAbs - W) := by
  have : ¬ (r.val + d).natAbs ≤ W - 1 := by simp only [W] at *; omega
  simp only [addWord, this, if_false]

theorem addOverflow_small {r : Word} {d : Int} (h : (r.val + d).natAbs ≤ W - 1) (ov : Bool) :
    addOverflow r d ov = ov := by simp only [addOverflow, h, if_true]

theorem addOverflow_large {r : Word} {d : Int} (h : W ≤ (r.val + d).natAbs) (ov : Bool) :
    addOverflow r d ov = true := by
  have : ¬ (r.val + d).natAbs ≤ W - 1 := by simp only [W] at *; omega
  simp only [addOverflow, this, if_false]

/-- The add law never turns OV off (decision D11). -/
theorem addOverflow_of_on (r : Word) (d : Int) : addOverflow r d true = true := by
  unfold addOverflow; split <;> rfl

theorem compareValues_less_iff (a v : Int) : compareValues a v = .less ↔ a < v := by
  unfold compareValues; split
  · simp [*]
  · split <;> simp [*]

theorem compareValues_equal_iff (a v : Int) : compareValues a v = .equal ↔ a = v := by
  unfold compareValues; split
  · simp; omega
  · split <;> simp [*]

theorem compareValues_greater_iff (a v : Int) : compareValues a v = .greater ↔ v < a := by
  unfold compareValues; split
  · simp; omega
  · split <;> simp <;> omega

/-- Byte i of the pair is a byte of rA for i ≤ 5. -/
theorem pairByte_low {i : Nat} (a x : Word) (h : i ≤ 5) : pairByte a x i = a.byte i := by
  simp [pairByte, h]

/-- Byte 5 + i of the pair is byte i of rX. -/
theorem pairByte_high {i : Nat} (a x : Word) (h : 1 ≤ i) : pairByte a x (i + 5) = x.byte i := by
  have : ¬ i + 5 ≤ 5 := by omega
  simp [pairByte, this]

/-- The pair's magnitude is below W². -/
theorem pairMag_lt (s : State) : s.pairMag < W * W := by
  have h1 := s.rA.mag_lt
  have h2 := s.rX.mag_lt
  simp only [State.pairMag, W] at *
  omega

end Sys2Proof.Machine
end

