-- ==== Sys2Proof/Laws/Costs.lean ====
section
/-! SUPPORT. What COST depends on: the key of its rows, and the cases of `costOf`. -/

namespace Sys2Proof.Machine

/-- Two opcodes have one key exactly when they have one COST by R530. -/
theorem costKey_eq_iff {p q : OpCode} : costKey p = costKey q ↔ SameCost p q := by
  obtain ⟨c, f⟩ := p
  obtain ⟨d, g⟩ := q
  have hc : c.val < 64 := c.isLt
  simp only [costKey, SameCost, OperandCode, FloatCode, List.mem_cons, List.not_mem_nil, or_false]
  split <;> split <;> simp only [OpCode.mk.injEq, and_congr_right_iff] <;> rintro rfl
  · refine ⟨.inl, fun h => h.resolve_right fun k => ?_⟩
    omega
  · refine ⟨fun h => ?_, fun h => ?_⟩
    · subst h; omega
    · obtain rfl | k := h <;> omega
  · refine ⟨fun h => ?_, fun h => ?_⟩
    · subst h; omega
    · obtain rfl | k := h <;> omega
  · exact ⟨fun _ => .inr (by omega), fun _ => trivial⟩

theorem SameCost.symm {p q : OpCode} (h : SameCost p q) : SameCost q p :=
  costKey_eq_iff.1 (costKey_eq_iff.2 h).symm

/-- Opcodes of one kind have one default cost. -/
theorem defaultCost_congr {p q : OpCode} (h : SameCost p q) :
    defaultCost p.c.val p.f.val = defaultCost q.c.val q.f.val := by
  obtain ⟨hc, hf⟩ := h
  rw [← hc]
  obtain hf | ⟨ho, hp, hq⟩ := hf
  · rw [hf]
  · unfold FloatCode at hp hq
    unfold OperandCode at ho
    rw [← hc] at hq
    unfold defaultCost
    split <;> first | rfl | (rw [if_neg (by omega), if_neg (by omega)]) | omega

/-- With no row for the kind, the default. -/
theorem costOf_default {cfg : Config} {op : OpCode} (h : ∀ r ∈ cfg.costs, ¬ SameCost r.code op) :
    costOf cfg op = defaultCost op.c.val op.f.val := by
  have : (cfg.costs.find? fun r => decide (costKey r.code = costKey op)) = none :=
    List.find?_eq_none.2 fun r hr => by simpa [costKey_eq_iff] using h r hr
  rw [costOf, this]

/-- The first row for the kind decides. -/
theorem costOf_row {cfg : Config} {op : OpCode} {pre rest : List CostRow} {r : CostRow}
    (h : cfg.costs = pre ++ r :: rest) (hr : SameCost r.code op) (hp : ∀ x ∈ pre, ¬ SameCost x.code op) :
    costOf cfg op = r.cost := by
  have hn : (pre.find? fun x => decide (costKey x.code = costKey op)) = none :=
    List.find?_eq_none.2 fun x hx => by simpa [costKey_eq_iff] using hp x hx
  have : (cfg.costs.find? fun x => decide (costKey x.code = costKey op)) = some r := by
    rw [h, List.find?_append, hn, Option.none_or, List.find?_cons_of_pos (by simpa [costKey_eq_iff] using hr)]
  rw [costOf, this]

theorem one_le_defaultCost (c f : Nat) : 1 ≤ defaultCost c f := by
  unfold defaultCost
  split <;> try split
  all_goals omega

/-- Every cost is that of a row or the default. -/
theorem costOf_cases (cfg : Config) (op : OpCode) :
    (∃ r ∈ cfg.costs, costOf cfg op = r.cost) ∨ costOf cfg op = defaultCost op.c.val op.f.val := by
  unfold costOf
  split
  · next r hr => exact .inl ⟨r, List.mem_of_find?_eq_some hr, rfl⟩
  · exact .inr rfl

end Sys2Proof.Machine
end

