-- ==== Sys2Proof/Laws/Decode.lean ====
section
/-! SUPPORT. The laws of the decoder and the encoder (30_encoding.md R100..R119): the parts of an instruction word
round trip, and each kind of the opcode map has the code the encoder gives it. -/

namespace Sys2Proof

theorem decodeIndex_encodeIndex (x : Option IxReg) : decodeIndex (encodeIndex x) = some x := by
  cases x with
  | none => rfl
  | some k => cases k <;> rfl

/-- The index specifiers that select are 0..6 (R103). -/
theorem decodeIndex_eq_none_iff (i : Byte) : decodeIndex i = none ↔ 7 ≤ i.val := by
  revert i; decide

theorem encodeIndex_of_decodeIndex {i : Byte} {x : Option IxReg} (h : decodeIndex i = some x) :
    encodeIndex x = i := by
  have key : ∀ j : Byte, (decodeIndex j).map encodeIndex = none ∨ (decodeIndex j).map encodeIndex = some j := by
    decide
  rcases key i with hk | hk <;> rw [h] at hk
  · cases hk
  · exact Option.some.inj hk

theorem addressMag_ofNat (a : Fin 4096) (s : Sign) (x y z : Byte) :
    (⟨s, Byte.ofNat (a.val / 64), Byte.ofNat a.val, x, y, z⟩ : Word).addressMag = a := by
  have := a.isLt
  refine Fin.ext ?_
  simp only [Word.addressMag, Byte.val_ofNat]
  omega

theorem ofNat_addressMag_high (w : Word) : Byte.ofNat (w.addressMag.val / 64) = w.b1 := by
  have := w.b1.isLt; have := w.b2.isLt
  refine Fin.ext ?_
  simp only [Word.addressMag, Byte.val_ofNat]
  omega

theorem ofNat_addressMag_low (w : Word) : Byte.ofNat w.addressMag.val = w.b2 := by
  have := w.b1.isLt; have := w.b2.isLt
  refine Fin.ext ?_
  simp only [Word.addressMag, Byte.val_ofNat]
  omega

theorem fieldRole_byte {k : Addr → Field → Instr} {f : Field} (h : f.valid = true) :
    fieldRole k f.byte = some (k · f) := by
  simp only [fieldRole, Field.ofByte_byte, h, if_true]

theorem fieldRole_eq_some {k : Addr → Field → Instr} {b : Byte} {g : Addr → Instr} (h : fieldRole k b = some g) :
    ∃ f : Field, f.byte = b ∧ f.valid = true ∧ g = (k · f) := by
  unfold fieldRole at h
  split at h
  · exact ⟨Field.ofByte b, Field.byte_ofByte b, ‹_›, (Option.some.inj h).symm⟩
  · cases h

theorem fieldRole_eq_none_iff {k : Addr → Field → Instr} {b : Byte} :
    fieldRole k b = none ↔ (Field.ofByte b).valid = false := by
  unfold fieldRole; split <;> simp_all

theorem binaryExt_eq_some {ext : Bool} {k g : Addr → Instr} (h : binaryExt ext k = some g) :
    ext = true ∧ g = k := by
  cases ext
  · cases h
  · exact ⟨rfl, (Option.some.inj h).symm⟩

theorem fieldRole_map {k : Addr → Field → Instr} {f : Field} (a : Addr) (h : f.valid = true) :
    (fieldRole k f.byte).map (· a) = some (k a f) := by
  rw [fieldRole_byte h]; rfl

theorem fieldRole_map_six {k : Addr → Field → Instr} {g : Option (Addr → Instr)} {f : Field} (a : Addr)
    (h : f.valid = true) :
    (match f.byte.val with
      | 6 => g
      | _ => fieldRole k f.byte : Option (Addr → Instr)).map (· a) = some (k a f) := by
  have h6 := Field.byte_ne_six h
  split
  · exact absurd ‹_› h6
  · exact fieldRole_map a h

/-- The opcode map names each instruction's kind at its code. -/
theorem decodeKind_code {ext : Bool} {i : Instr} (h : i.wf = true) (hx : i.isBinaryExt = true → ext = true) :
    (decodeKind ext i.code.c i.code.f).map (· i.addr) = some i := by
  cases hf : i.field? with
  | none =>
    cases i <;> first
      | cases hf; done
      | rfl
      | (obtain rfl := hx rfl; rfl)
  | some f =>
    simp only [Instr.wf, hf] at h
    cases i <;> cases hf <;> first
      | exact fieldRole_map _ h
      | exact fieldRole_map_six _ h

/-- A kind of the opcode map gives instructions with its own code and address, which are well-formed. -/
def KindOk (ext : Bool) (c f : Byte) (k : Addr → Instr) : Prop :=
  ∀ a, (k a).code.c.val = c.val ∧ (k a).code.f.val = f.val ∧ (k a).addr = a ∧ (k a).wf = true ∧
    ((k a).isBinaryExt = true → ext = true)

theorem fieldRole_ok {ext : Bool} {c b : Byte} {k : Addr → Field → Instr} {g : Addr → Instr}
    (h : fieldRole k b = some g)
    (hk : ∀ a f, c.val = (k a f).code.c.val ∧ (k a f).code.f = f.byte ∧ (k a f).addr = a ∧
      (k a f).wf = f.valid ∧ (k a f).isBinaryExt = false) : KindOk ext c b g := by
  obtain ⟨f, rfl, hv, rfl⟩ := fieldRole_eq_some h
  intro a
  obtain ⟨h0, h1, h2, h3, h4⟩ := hk a f
  exact ⟨h0.symm, congrArg Fin.val h1, h2, h3.trans hv, by rw [h4]; exact Bool.noConfusion⟩

theorem variant_ok {ext : Bool} {c f : Byte} {k g : Addr → Instr} (h : some k = some g)
    (hk : ∀ a, c.val = (k a).code.c.val ∧ f.val = (k a).code.f.val ∧ (k a).addr = a ∧ (k a).wf = true ∧
      (k a).isBinaryExt = false) : KindOk ext c f g := by
  obtain rfl := Option.some.inj h
  intro a
  obtain ⟨h0, h1, h2, h3, h4⟩ := hk a
  exact ⟨h0.symm, h1.symm, h2, h3, by rw [h4]; exact Bool.noConfusion⟩

theorem binaryExt_ok {ext : Bool} {c f : Byte} {k g : Addr → Instr} (h : binaryExt ext k = some g)
    (hk : ∀ a, c.val = (k a).code.c.val ∧ f.val = (k a).code.f.val ∧ (k a).addr = a ∧ (k a).wf = true) :
    KindOk ext c f g := by
  obtain ⟨hx, rfl⟩ := binaryExt_eq_some h
  intro a
  obtain ⟨h0, h1, h2, h3⟩ := hk a
  exact ⟨h0.symm, h1.symm, h2, h3, fun _ => hx⟩

/-- A kind the opcode map gives for (C, F) has that code. -/
theorem decodeKind_ok {ext : Bool} {c f : Byte} {k : Addr → Instr} (h : decodeKind ext c f = some k) :
    KindOk ext c f k := by
  unfold decodeKind at h
  split at h <;> rename_i hc <;> first
    | exact fieldRole_ok h fun _ _ => ⟨hc, rfl, rfl, rfl, rfl⟩
    | exact variant_ok h fun _ => ⟨hc, rfl, rfl, rfl, rfl⟩
    | (split at h <;> first
        | exact variant_ok h fun _ => ⟨hc, ‹_›, rfl, rfl, rfl⟩
        | exact fieldRole_ok h fun _ _ => ⟨hc, rfl, rfl, rfl, rfl⟩
        | exact binaryExt_ok h fun _ => ⟨hc, ‹_›, rfl, rfl⟩
        | cases h)
    | cases h

end Sys2Proof
end

