-- ==== Sys2Proof/Laws/State.lean ====
section
/-! SUPPORT. One lemma per field of State for each named update of Machine/Ops.lean and Machine/Operands.lean,
so that no later proof unfolds a record update. -/

namespace Sys2Proof.Machine

-- Taking a fault writes ES and FR alone (R463).
@[simp] theorem State.takeFault_rA (s : State) (op : Option OpCode) (r : Raise) : (s.takeFault op r).rA = s.rA := rfl
@[simp] theorem State.takeFault_rX (s : State) (op : Option OpCode) (r : Raise) : (s.takeFault op r).rX = s.rX := rfl
@[simp] theorem State.takeFault_rI1 (s : State) (op : Option OpCode) (r : Raise) : (s.takeFault op r).rI1 = s.rI1 := rfl
@[simp] theorem State.takeFault_rI2 (s : State) (op : Option OpCode) (r : Raise) : (s.takeFault op r).rI2 = s.rI2 := rfl
@[simp] theorem State.takeFault_rI3 (s : State) (op : Option OpCode) (r : Raise) : (s.takeFault op r).rI3 = s.rI3 := rfl
@[simp] theorem State.takeFault_rI4 (s : State) (op : Option OpCode) (r : Raise) : (s.takeFault op r).rI4 = s.rI4 := rfl
@[simp] theorem State.takeFault_rI5 (s : State) (op : Option OpCode) (r : Raise) : (s.takeFault op r).rI5 = s.rI5 := rfl
@[simp] theorem State.takeFault_rI6 (s : State) (op : Option OpCode) (r : Raise) : (s.takeFault op r).rI6 = s.rI6 := rfl
@[simp] theorem State.takeFault_rJ (s : State) (op : Option OpCode) (r : Raise) : (s.takeFault op r).rJ = s.rJ := rfl
@[simp] theorem State.takeFault_ov (s : State) (op : Option OpCode) (r : Raise) : (s.takeFault op r).ov = s.ov := rfl
@[simp] theorem State.takeFault_ci (s : State) (op : Option OpCode) (r : Raise) : (s.takeFault op r).ci = s.ci := rfl
@[simp] theorem State.takeFault_mem (s : State) (op : Option OpCode) (r : Raise) : (s.takeFault op r).mem = s.mem := rfl
@[simp] theorem State.takeFault_pc (s : State) (op : Option OpCode) (r : Raise) : (s.takeFault op r).pc = s.pc := rfl
@[simp] theorem State.takeFault_elapsed (s : State) (op : Option OpCode) (r : Raise) : (s.takeFault op r).elapsed = s.elapsed := rfl
@[simp] theorem State.takeFault_es (s : State) (op : Option OpCode) (r : Raise) : (s.takeFault op r).es = .faulted := rfl
@[simp] theorem State.takeFault_fr (s : State) (op : Option OpCode) (r : Raise) : (s.takeFault op r).fr = some ⟨r.cause, s.pc, op, r.operand⟩ := rfl
@[simp] theorem State.takeFault_dev (s : State) (op : Option OpCode) (r : Raise) : (s.takeFault op r).dev = s.dev := rfl
@[simp] theorem State.takeFault_cfg (s : State) (op : Option OpCode) (r : Raise) : (s.takeFault op r).cfg = s.cfg := rfl

-- The commit writes E and PC alone.
@[simp] theorem State.commit_rA (s : State) (op : OpCode) (pc : Int) : (s.commit op pc).rA = s.rA := rfl
@[simp] theorem State.commit_rX (s : State) (op : OpCode) (pc : Int) : (s.commit op pc).rX = s.rX := rfl
@[simp] theorem State.commit_rI1 (s : State) (op : OpCode) (pc : Int) : (s.commit op pc).rI1 = s.rI1 := rfl
@[simp] theorem State.commit_rI2 (s : State) (op : OpCode) (pc : Int) : (s.commit op pc).rI2 = s.rI2 := rfl
@[simp] theorem State.commit_rI3 (s : State) (op : OpCode) (pc : Int) : (s.commit op pc).rI3 = s.rI3 := rfl
@[simp] theorem State.commit_rI4 (s : State) (op : OpCode) (pc : Int) : (s.commit op pc).rI4 = s.rI4 := rfl
@[simp] theorem State.commit_rI5 (s : State) (op : OpCode) (pc : Int) : (s.commit op pc).rI5 = s.rI5 := rfl
@[simp] theorem State.commit_rI6 (s : State) (op : OpCode) (pc : Int) : (s.commit op pc).rI6 = s.rI6 := rfl
@[simp] theorem State.commit_rJ (s : State) (op : OpCode) (pc : Int) : (s.commit op pc).rJ = s.rJ := rfl
@[simp] theorem State.commit_ov (s : State) (op : OpCode) (pc : Int) : (s.commit op pc).ov = s.ov := rfl
@[simp] theorem State.commit_ci (s : State) (op : OpCode) (pc : Int) : (s.commit op pc).ci = s.ci := rfl
@[simp] theorem State.commit_mem (s : State) (op : OpCode) (pc : Int) : (s.commit op pc).mem = s.mem := rfl
@[simp] theorem State.commit_pc (s : State) (op : OpCode) (pc : Int) : (s.commit op pc).pc = pc := rfl
@[simp] theorem State.commit_elapsed (s : State) (op : OpCode) (pc : Int) : (s.commit op pc).elapsed = s.elapsed + costOf s.cfg op := rfl
@[simp] theorem State.commit_es (s : State) (op : OpCode) (pc : Int) : (s.commit op pc).es = s.es := rfl
@[simp] theorem State.commit_fr (s : State) (op : OpCode) (pc : Int) : (s.commit op pc).fr = s.fr := rfl
@[simp] theorem State.commit_dev (s : State) (op : OpCode) (pc : Int) : (s.commit op pc).dev = s.dev := rfl
@[simp] theorem State.commit_cfg (s : State) (op : OpCode) (pc : Int) : (s.commit op pc).cfg = s.cfg := rfl

-- A store writes memory alone.
@[simp] theorem State.store_rA (s : State) (m : Int) (w : Word) : (s.store m w).rA = s.rA := rfl
@[simp] theorem State.store_rX (s : State) (m : Int) (w : Word) : (s.store m w).rX = s.rX := rfl
@[simp] theorem State.store_rI1 (s : State) (m : Int) (w : Word) : (s.store m w).rI1 = s.rI1 := rfl
@[simp] theorem State.store_rI2 (s : State) (m : Int) (w : Word) : (s.store m w).rI2 = s.rI2 := rfl
@[simp] theorem State.store_rI3 (s : State) (m : Int) (w : Word) : (s.store m w).rI3 = s.rI3 := rfl
@[simp] theorem State.store_rI4 (s : State) (m : Int) (w : Word) : (s.store m w).rI4 = s.rI4 := rfl
@[simp] theorem State.store_rI5 (s : State) (m : Int) (w : Word) : (s.store m w).rI5 = s.rI5 := rfl
@[simp] theorem State.store_rI6 (s : State) (m : Int) (w : Word) : (s.store m w).rI6 = s.rI6 := rfl
@[simp] theorem State.store_rJ (s : State) (m : Int) (w : Word) : (s.store m w).rJ = s.rJ := rfl
@[simp] theorem State.store_ov (s : State) (m : Int) (w : Word) : (s.store m w).ov = s.ov := rfl
@[simp] theorem State.store_ci (s : State) (m : Int) (w : Word) : (s.store m w).ci = s.ci := rfl
@[simp] theorem State.store_mem (s : State) (m : Int) (w : Word) : (s.store m w).mem = s.mem.write m.toNat w := rfl
@[simp] theorem State.store_pc (s : State) (m : Int) (w : Word) : (s.store m w).pc = s.pc := rfl
@[simp] theorem State.store_elapsed (s : State) (m : Int) (w : Word) : (s.store m w).elapsed = s.elapsed := rfl
@[simp] theorem State.store_es (s : State) (m : Int) (w : Word) : (s.store m w).es = s.es := rfl
@[simp] theorem State.store_fr (s : State) (m : Int) (w : Word) : (s.store m w).fr = s.fr := rfl
@[simp] theorem State.store_dev (s : State) (m : Int) (w : Word) : (s.store m w).dev = s.dev := rfl
@[simp] theorem State.store_cfg (s : State) (m : Int) (w : Word) : (s.store m w).cfg = s.cfg := rfl

-- setDev writes the units alone.
@[simp] theorem State.setDev_rA (s : State) (u : Unit21) (d : Device) : (s.setDev u d).rA = s.rA := rfl
@[simp] theorem State.setDev_rX (s : State) (u : Unit21) (d : Device) : (s.setDev u d).rX = s.rX := rfl
@[simp] theorem State.setDev_rI1 (s : State) (u : Unit21) (d : Device) : (s.setDev u d).rI1 = s.rI1 := rfl
@[simp] theorem State.setDev_rI2 (s : State) (u : Unit21) (d : Device) : (s.setDev u d).rI2 = s.rI2 := rfl
@[simp] theorem State.setDev_rI3 (s : State) (u : Unit21) (d : Device) : (s.setDev u d).rI3 = s.rI3 := rfl
@[simp] theorem State.setDev_rI4 (s : State) (u : Unit21) (d : Device) : (s.setDev u d).rI4 = s.rI4 := rfl
@[simp] theorem State.setDev_rI5 (s : State) (u : Unit21) (d : Device) : (s.setDev u d).rI5 = s.rI5 := rfl
@[simp] theorem State.setDev_rI6 (s : State) (u : Unit21) (d : Device) : (s.setDev u d).rI6 = s.rI6 := rfl
@[simp] theorem State.setDev_rJ (s : State) (u : Unit21) (d : Device) : (s.setDev u d).rJ = s.rJ := rfl
@[simp] theorem State.setDev_ov (s : State) (u : Unit21) (d : Device) : (s.setDev u d).ov = s.ov := rfl
@[simp] theorem State.setDev_ci (s : State) (u : Unit21) (d : Device) : (s.setDev u d).ci = s.ci := rfl
@[simp] theorem State.setDev_mem (s : State) (u : Unit21) (d : Device) : (s.setDev u d).mem = s.mem := rfl
@[simp] theorem State.setDev_pc (s : State) (u : Unit21) (d : Device) : (s.setDev u d).pc = s.pc := rfl
@[simp] theorem State.setDev_elapsed (s : State) (u : Unit21) (d : Device) : (s.setDev u d).elapsed = s.elapsed := rfl
@[simp] theorem State.setDev_es (s : State) (u : Unit21) (d : Device) : (s.setDev u d).es = s.es := rfl
@[simp] theorem State.setDev_fr (s : State) (u : Unit21) (d : Device) : (s.setDev u d).fr = s.fr := rfl
@[simp] theorem State.setDev_dev (s : State) (u : Unit21) (d : Device) : (s.setDev u d).dev = s.dev.set u d := rfl
@[simp] theorem State.setDev_cfg (s : State) (u : Unit21) (d : Device) : (s.setDev u d).cfg = s.cfg := rfl

-- setPair writes rA and rX alone.
@[simp] theorem State.setPair_rA (s : State) (t : Nat → Byte) : (s.setPair t).rA = Word.ofBytes s.rA.sign t := rfl
@[simp] theorem State.setPair_rX (s : State) (t : Nat → Byte) : (s.setPair t).rX = Word.ofBytes s.rX.sign fun i => t (i + 5) := rfl
@[simp] theorem State.setPair_rI1 (s : State) (t : Nat → Byte) : (s.setPair t).rI1 = s.rI1 := rfl
@[simp] theorem State.setPair_rI2 (s : State) (t : Nat → Byte) : (s.setPair t).rI2 = s.rI2 := rfl
@[simp] theorem State.setPair_rI3 (s : State) (t : Nat → Byte) : (s.setPair t).rI3 = s.rI3 := rfl
@[simp] theorem State.setPair_rI4 (s : State) (t : Nat → Byte) : (s.setPair t).rI4 = s.rI4 := rfl
@[simp] theorem State.setPair_rI5 (s : State) (t : Nat → Byte) : (s.setPair t).rI5 = s.rI5 := rfl
@[simp] theorem State.setPair_rI6 (s : State) (t : Nat → Byte) : (s.setPair t).rI6 = s.rI6 := rfl
@[simp] theorem State.setPair_rJ (s : State) (t : Nat → Byte) : (s.setPair t).rJ = s.rJ := rfl
@[simp] theorem State.setPair_ov (s : State) (t : Nat → Byte) : (s.setPair t).ov = s.ov := rfl
@[simp] theorem State.setPair_ci (s : State) (t : Nat → Byte) : (s.setPair t).ci = s.ci := rfl
@[simp] theorem State.setPair_mem (s : State) (t : Nat → Byte) : (s.setPair t).mem = s.mem := rfl
@[simp] theorem State.setPair_pc (s : State) (t : Nat → Byte) : (s.setPair t).pc = s.pc := rfl
@[simp] theorem State.setPair_elapsed (s : State) (t : Nat → Byte) : (s.setPair t).elapsed = s.elapsed := rfl
@[simp] theorem State.setPair_es (s : State) (t : Nat → Byte) : (s.setPair t).es = s.es := rfl
@[simp] theorem State.setPair_fr (s : State) (t : Nat → Byte) : (s.setPair t).fr = s.fr := rfl
@[simp] theorem State.setPair_dev (s : State) (t : Nat → Byte) : (s.setPair t).dev = s.dev := rfl
@[simp] theorem State.setPair_cfg (s : State) (t : Nat → Byte) : (s.setPair t).cfg = s.cfg := rfl

-- setPairMag writes rA and rX alone.
@[simp] theorem State.setPairMag_rA (s : State) (d : Nat) : (s.setPairMag d).rA = Word.ofMag s.rA.sign (d / W) := rfl
@[simp] theorem State.setPairMag_rX (s : State) (d : Nat) : (s.setPairMag d).rX = Word.ofMag s.rX.sign (d % W) := rfl
@[simp] theorem State.setPairMag_rI1 (s : State) (d : Nat) : (s.setPairMag d).rI1 = s.rI1 := rfl
@[simp] theorem State.setPairMag_rI2 (s : State) (d : Nat) : (s.setPairMag d).rI2 = s.rI2 := rfl
@[simp] theorem State.setPairMag_rI3 (s : State) (d : Nat) : (s.setPairMag d).rI3 = s.rI3 := rfl
@[simp] theorem State.setPairMag_rI4 (s : State) (d : Nat) : (s.setPairMag d).rI4 = s.rI4 := rfl
@[simp] theorem State.setPairMag_rI5 (s : State) (d : Nat) : (s.setPairMag d).rI5 = s.rI5 := rfl
@[simp] theorem State.setPairMag_rI6 (s : State) (d : Nat) : (s.setPairMag d).rI6 = s.rI6 := rfl
@[simp] theorem State.setPairMag_rJ (s : State) (d : Nat) : (s.setPairMag d).rJ = s.rJ := rfl
@[simp] theorem State.setPairMag_ov (s : State) (d : Nat) : (s.setPairMag d).ov = s.ov := rfl
@[simp] theorem State.setPairMag_ci (s : State) (d : Nat) : (s.setPairMag d).ci = s.ci := rfl
@[simp] theorem State.setPairMag_mem (s : State) (d : Nat) : (s.setPairMag d).mem = s.mem := rfl
@[simp] theorem State.setPairMag_pc (s : State) (d : Nat) : (s.setPairMag d).pc = s.pc := rfl
@[simp] theorem State.setPairMag_elapsed (s : State) (d : Nat) : (s.setPairMag d).elapsed = s.elapsed := rfl
@[simp] theorem State.setPairMag_es (s : State) (d : Nat) : (s.setPairMag d).es = s.es := rfl
@[simp] theorem State.setPairMag_fr (s : State) (d : Nat) : (s.setPairMag d).fr = s.fr := rfl
@[simp] theorem State.setPairMag_dev (s : State) (d : Nat) : (s.setPairMag d).dev = s.dev := rfl
@[simp] theorem State.setPairMag_cfg (s : State) (d : Nat) : (s.setPairMag d).cfg = s.cfg := rfl

-- setIndex writes one index register.
@[simp] theorem State.setIndex_rA (s : State) (k : IxReg) (r : Register2) : (s.setIndex k r).rA = s.rA := by
  cases k <;> rfl
@[simp] theorem State.setIndex_rX (s : State) (k : IxReg) (r : Register2) : (s.setIndex k r).rX = s.rX := by
  cases k <;> rfl
@[simp] theorem State.setIndex_rJ (s : State) (k : IxReg) (r : Register2) : (s.setIndex k r).rJ = s.rJ := by
  cases k <;> rfl
@[simp] theorem State.setIndex_ov (s : State) (k : IxReg) (r : Register2) : (s.setIndex k r).ov = s.ov := by
  cases k <;> rfl
@[simp] theorem State.setIndex_ci (s : State) (k : IxReg) (r : Register2) : (s.setIndex k r).ci = s.ci := by
  cases k <;> rfl
@[simp] theorem State.setIndex_mem (s : State) (k : IxReg) (r : Register2) : (s.setIndex k r).mem = s.mem := by
  cases k <;> rfl
@[simp] theorem State.setIndex_pc (s : State) (k : IxReg) (r : Register2) : (s.setIndex k r).pc = s.pc := by
  cases k <;> rfl
@[simp] theorem State.setIndex_elapsed (s : State) (k : IxReg) (r : Register2) : (s.setIndex k r).elapsed = s.elapsed := by
  cases k <;> rfl
@[simp] theorem State.setIndex_es (s : State) (k : IxReg) (r : Register2) : (s.setIndex k r).es = s.es := by
  cases k <;> rfl
@[simp] theorem State.setIndex_fr (s : State) (k : IxReg) (r : Register2) : (s.setIndex k r).fr = s.fr := by
  cases k <;> rfl
@[simp] theorem State.setIndex_dev (s : State) (k : IxReg) (r : Register2) : (s.setIndex k r).dev = s.dev := by
  cases k <;> rfl
@[simp] theorem State.setIndex_cfg (s : State) (k : IxReg) (r : Register2) : (s.setIndex k r).cfg = s.cfg := by
  cases k <;> rfl

@[simp] theorem State.index_setIndex_same (s : State) (k : IxReg) (r : Register2) :
    (s.setIndex k r).index k = r := by
  cases k <;> rfl

theorem State.index_setIndex_ne (s : State) {k j : IxReg} (r : Register2) (h : j ≠ k) :
    (s.setIndex k r).index j = s.index j := by
  cases k <;> cases j <;> first | rfl | exact absurd rfl h

/-- Writing an index register's own value changes nothing. -/
@[simp] theorem State.setIndex_index (s : State) (k : IxReg) : s.setIndex k (s.index k) = s := by
  cases k <;> rfl

-- The index registers are untouched by every other update.
@[simp] theorem State.index_takeFault (s : State) (op : Option OpCode) (r : Raise) (k : IxReg) : (s.takeFault op r).index k = s.index k := by
  cases k <;> rfl
@[simp] theorem State.index_commit (s : State) (op : OpCode) (pc : Int) (k : IxReg) : (s.commit op pc).index k = s.index k := by
  cases k <;> rfl
@[simp] theorem State.index_store (s : State) (m : Int) (w : Word) (k : IxReg) : (s.store m w).index k = s.index k := by
  cases k <;> rfl
@[simp] theorem State.index_setDev (s : State) (u : Unit21) (d : Device) (k : IxReg) : (s.setDev u d).index k = s.index k := by
  cases k <;> rfl
@[simp] theorem State.index_setPair (s : State) (t : Nat → Byte) (k : IxReg) : (s.setPair t).index k = s.index k := by
  cases k <;> rfl
@[simp] theorem State.index_setPairMag (s : State) (d : Nat) (k : IxReg) : (s.setPairMag d).index k = s.index k := by
  cases k <;> rfl

/-- The unit written. -/
@[simp] theorem State.dev_setDev_same (s : State) (u : Unit21) (d : Device) : (s.setDev u d).dev[u] = d := by
  simp [State.setDev]

/-- Every other unit. -/
theorem State.dev_setDev_ne (s : State) {u v : Unit21} (d : Device) (h : v ≠ u) :
    (s.setDev u d).dev[v] = s.dev[v] := by
  have : (u : Nat) ≠ v := fun e => h (Fin.ext e.symm)
  simp [State.setDev, this]

/-- A unit's configuration depends on the configuration alone. -/
theorem State.unit_eq_of_cfg {s t : State} (h : t.cfg = s.cfg) (u : Unit21) : t.unit u = s.unit u := by
  simp [State.unit, h]

@[simp] theorem State.unit_setDev (s : State) (u v : Unit21) (d : Device) :
    (s.setDev u d).unit v = s.unit v := rfl

end Sys2Proof.Machine
end

