-- ==== Sys2Proof/Laws/Ops.lean ====
section
/-! SUPPORT. One lemma per shared operation of Machine/Ops.lean, for the cases of its checks, and one inversion
per operation that ends an instruction: what an answered next state can be. Proofs cite these and never
unfold the operations. -/

namespace Sys2Proof.Machine

variable {s t : State} {op : OpCode} {a : Addr} {c : Byte} {f : Field} {m : Int}

-- The end of a step.

@[simp] theorem finish_error (op : OpCode) (s : State) (r : Raise) :
    finish op s (.error r) = .next (s.takeFault (some op) r) := rfl

@[simp] theorem finish_raise (op : OpCode) (s : State) (k : Cause) (v : Int) :
    finish op s (raise k v) = .next (s.takeFault (some op) ⟨k, .value v⟩) := rfl

@[simp] theorem finish_ok (op : OpCode) (s t : State) (pc : Int) :
    finish op s (.ok (t, pc)) = .next (t.commit op pc) := rfl

@[simp] theorem finish_done (op : OpCode) (s t : State) : finish op s (done t) = .next (t.commit op (t.pc + 1)) := rfl

/-- The end of a step answers a next state: the fault's, or the commit of the rule's writes. -/
theorem finish_next {r : Rule} (h : finish op s r = .next t) :
    (∃ e, r = .error e ∧ t = s.takeFault (some op) e) ∨ ∃ u pc, r = .ok (u, pc) ∧ t = u.commit op pc := by
  cases r with
  | error e => exact .inl ⟨e, rfl, by simpa using h.symm⟩
  | ok p => exact .inr ⟨p.1, p.2, rfl, by simpa [finish] using h.symm⟩

-- The checks before a rule.

theorem perform_of_le {rule : Int → Sign → Rule} (h : (s.effAddr a).natAbs ≤ 4095) :
    perform op a s rule = finish op s (rule (s.effAddr a) (sgnof (s.effAddr a) a.sign)) := by
  simp only [perform, h, if_true]

theorem perform_of_gt {rule : Int → Sign → Rule} (h : 4095 < (s.effAddr a).natAbs) :
    perform op a s rule = .next (s.takeFault (some op) ⟨.addressRange, .value (s.effAddr a)⟩) := by
  have : ¬ (s.effAddr a).natAbs ≤ 4095 := by omega
  simp only [perform, this, if_false]

/-- An instruction answers a next state: its fault's, or the commit of its rule's writes with |M| ≤ 4095. -/
theorem perform_next {rule : Int → Sign → Rule} (h : perform op a s rule = .next t) :
    (∃ e, t = s.takeFault (some op) e) ∨
      ∃ u pc, (s.effAddr a).natAbs ≤ 4095 ∧
        rule (s.effAddr a) (sgnof (s.effAddr a) a.sign) = .ok (u, pc) ∧ t = u.commit op pc := by
  by_cases hm : (s.effAddr a).natAbs ≤ 4095
  · rw [perform_of_le hm] at h
    obtain ⟨e, -, rfl⟩ | ⟨u, pc, hr, rfl⟩ := finish_next h
    · exact .inl ⟨e, rfl⟩
    · exact .inr ⟨u, pc, hm, hr, rfl⟩
  · rw [perform_of_gt (by omega)] at h
    exact .inl ⟨_, by simpa using h.symm⟩

theorem performField_valid {rule : Int → Rule} (h : f.valid = true) :
    performField c f a s rule = perform ⟨c, f.byte⟩ a s fun m _ => rule m := by
  simp only [performField, h, if_true]

theorem performField_next {rule : Int → Rule} (h : performField c f a s rule = .next t) :
    (∃ e, t = s.takeFault (some ⟨c, f.byte⟩) e) ∨
      ∃ u pc, f.valid = true ∧ rule (s.effAddr a) = .ok (u, pc) ∧ t = u.commit ⟨c, f.byte⟩ pc := by
  unfold performField at h
  split at h
  · obtain he | ⟨u, pc, -, hr, ht⟩ := perform_next h
    · exact .inl he
    · exact .inr ⟨u, pc, ‹_›, hr, ht⟩
  · exact .inl ⟨_, by simpa [decodeFailure] using h.symm⟩

theorem performExt_on {rule : Int → Rule} (h : s.cfg.extBinaryOps = true) :
    performExt op a s rule = perform op a s fun m _ => rule m := by
  simp only [performExt, h, if_true]

theorem performExt_off {rule : Int → Rule} (h : s.cfg.extBinaryOps = false) :
    performExt op a s rule = .next (s.takeFault (some op) ⟨.decodeFailure, .opcode op⟩) := by
  simp [performExt, h, decodeFailure]

theorem performExt_next {rule : Int → Rule} (h : performExt op a s rule = .next t) :
    (∃ e, t = s.takeFault (some op) e) ∨
      ∃ u pc, rule (s.effAddr a) = .ok (u, pc) ∧ t = u.commit op pc := by
  unfold performExt at h
  split at h
  · obtain he | ⟨u, pc, -, hr, ht⟩ := perform_next h
    · exact .inl he
    · exact .inr ⟨u, pc, hr, ht⟩
  · exact .inl ⟨_, by simpa [decodeFailure] using h.symm⟩

theorem performFloat_next {rule : FloatUnit → Int → Rule} (h : performFloat op a s rule = .next t) :
    (∃ e, t = s.takeFault (some op) e) ∨
      ∃ v u pc, s.cfg.floatUnit = some v ∧ rule v (s.effAddr a) = .ok (u, pc) ∧ t = u.commit op pc := by
  obtain he | ⟨u, pc, -, hr, ht⟩ := perform_next h
  · exact .inl he
  · cases hv : s.cfg.floatUnit with
    | none => simp [hv] at hr
    | some v => rw [hv] at hr; exact .inr ⟨v, u, pc, rfl, hr, ht⟩

-- One memory word.

theorem natAbs_le_of_inMemory (h : InMemory m) : m.natAbs ≤ 4095 := by
  obtain ⟨h1, h2⟩ := h; omega

theorem withWord_in {k : Word → Rule} (h : InMemory m) : withWord s m k = k (s.mem.read m.toNat) := if_pos h

theorem withWord_out {k : Word → Rule} (h : ¬ InMemory m) : withWord s m k = raise .memBounds m := if_neg h

theorem withWord_ok {k : Word → Rule} {p : State × Int} (h : withWord s m k = .ok p) :
    InMemory m ∧ k (s.mem.read m.toNat) = .ok p := by
  by_cases hm : InMemory m
  · exact ⟨hm, by rwa [withWord_in hm] at h⟩
  · rw [withWord_out hm] at h; simp [raise] at h

theorem done_ok {u : State} {pc : Int} (h : done t = .ok (u, pc)) : u = t ∧ pc = t.pc + 1 := by
  simp only [done, Except.ok.injEq, Prod.mk.injEq] at h
  exact ⟨h.1.symm, h.2.symm⟩

-- Jumps.

theorem takeNoSave_in (h : InMemory m) : takeNoSave m t = .ok (t, m) := if_pos h

theorem takeNoSave_out (h : ¬ InMemory m) : takeNoSave m t = raise .memBounds m := if_neg h

theorem takeNoSave_ok {u : State} {pc : Int} (h : takeNoSave m t = .ok (u, pc)) : InMemory m ∧ u = t ∧ pc = m := by
  by_cases hm : InMemory m
  · rw [takeNoSave_in hm] at h
    simp only [Except.ok.injEq, Prod.mk.injEq] at h
    exact ⟨hm, h.1.symm, h.2.symm⟩
  · rw [takeNoSave_out hm] at h; simp [raise] at h

theorem take_in (h : InMemory m) : take m t = .ok ({ t with rJ := returnAddress t.pc }, m) := takeNoSave_in h

theorem take_out (h : ¬ InMemory m) : take m t = raise .memBounds m := takeNoSave_out h

theorem take_ok {u : State} {pc : Int} (h : take m t = .ok (u, pc)) :
    InMemory m ∧ u = { t with rJ := returnAddress t.pc } ∧ pc = m := takeNoSave_ok h

theorem jumpIf_true : jumpIf true m t = take m t := rfl

theorem jumpIf_false : jumpIf false m t = done t := rfl

/-- A conditional jump that faults not: taken to a target in memory, or not taken. -/
theorem jumpIf_ok {b : Bool} {u : State} {pc : Int} (h : jumpIf b m t = .ok (u, pc)) :
    (b = true ∧ InMemory m ∧ u = { t with rJ := returnAddress t.pc } ∧ pc = m) ∨
      (b = false ∧ u = t ∧ pc = t.pc + 1) := by
  cases b
  · exact .inr ⟨rfl, done_ok h⟩
  · exact .inl ⟨rfl, take_ok h⟩

/-- The return address has sign + (R43). -/
@[simp] theorem returnAddress_sign (pc : Int) : (returnAddress pc).sign = .plus := rfl

-- Units.

theorem withUnit_lt {u : Byte} {k : Unit21 → Rule} {n : Unit21} (h : n.val = u.val) : withUnit u k = k n := by
  have hu : u.val < 21 := by have := n.isLt; omega
  have hn : (⟨u.val, hu⟩ : Unit21) = n := Fin.ext h.symm
  simp only [withUnit, hu, dif_pos, hn]

theorem withUnit_ge {u : Byte} {k : Unit21 → Rule} (h : 20 < u.val) :
    withUnit u k = raise .deviceBounds u.val := by
  have hu : ¬ u.val < 21 := by omega
  simp only [withUnit, hu, dif_neg, not_false_eq_true]

theorem withUnit_ok {u : Byte} {k : Unit21 → Rule} {p : State × Int} (h : withUnit u k = .ok p) :
    ∃ n : Unit21, n.val = u.val ∧ k n = .ok p := by
  by_cases hu : u.val < 21
  · exact ⟨⟨u.val, hu⟩, rfl, by simpa only [withUnit, hu, dif_pos] using h⟩
  · rw [withUnit_ge (by omega)] at h; simp [raise] at h

theorem Device.isReady_iff (d : Device) (e : Nat) : d.isReady e = true ↔ d.status = .ready ∨ d.deadline < e := by
  simp [Device.isReady]

theorem Device.poll_ready {d : Device} {e : Nat} (h : d.isReady e = true) :
    d.poll e = { d with status := .ready } := by simp only [Device.poll, h, if_true]

@[simp] theorem Device.poll_buf (d : Device) (e : Nat) : (d.poll e).buf = d.buf := by
  unfold Device.poll; split <;> rfl

@[simp] theorem Device.poll_cursor (d : Device) (e : Nat) : (d.poll e).cursor = d.cursor := by
  unfold Device.poll; split <;> rfl

@[simp] theorem Device.poll_deadline (d : Device) (e : Nat) : (d.poll e).deadline = d.deadline := by
  unfold Device.poll; split <;> rfl

theorem setDev_same (s : State) (u : Unit21) (d : Device) : (s.setDev u d).dev[u] = d := by
  simp [State.setDev]

theorem setDev_other {u v : Unit21} (s : State) (d : Device) (h : v ≠ u) : (s.setDev u d).dev[v] = s.dev[v] := by
  have : u.val ≠ v.val := fun e => h (Fin.ext e.symm)
  simp [State.setDev, this]

theorem setDev_setDev (s : State) (u : Unit21) (d e : Device) : (s.setDev u d).setDev u e = s.setDev u e := by
  simp [State.setDev]

end Sys2Proof.Machine
end

