-- ==== Sys2Proof/Laws/Exec.lean ====
section
/-! SUPPORT. What an instruction can do, said once: `exec_next` inverts exec over all 157 instructions into a fault
or one of the writes of `Writes`. Frames and invariants are case analyses of `Writes`. -/

namespace Sys2Proof.Machine

/-- The state in which IN, OUT and IOC make their writes: the unit READY and E0 where it starts (R384). -/
def State.startAt (s : State) (u : Unit21) (e0 : Nat) : State :=
  { s.setDev u { s.dev[u] with status := .ready } with elapsed := e0 }

theorem readyAt_iff {d : Device} {e : Nat} : ReadyAt d e ↔ d.isReady e = true := (d.isReady_iff e).symm

theorem withReady_start {s : State} {u : Unit21} {e0 : Nat} {k : State → Rule} (h : StartsAt s u e0) :
    withReady s u k = k (s.startAt u e0) := by
  obtain ⟨hr, rfl⟩ | ⟨hr, hp, rfl⟩ := h <;> rw [readyAt_iff] at hr
  · simp only [withReady, hr, if_true, Device.poll_ready hr]; rfl
  · simp only [withReady, hr, hp]; rfl

theorem withReady_fatal {s : State} {u : Unit21} {k : State → Rule} (h : ¬ ReadyAt s.dev[u] s.elapsed)
    (hp : s.cfg.busyPolicy = .fatal) : withReady s u k = raise .deviceMisuse u.val := by
  rw [readyAt_iff] at h
  simp only [withReady, h, hp]
  rfl

theorem withReady_ok {s : State} {u : Unit21} {k : State → Rule} {p : State × Int}
    (h : withReady s u k = .ok p) : ∃ e0, StartsAt s u e0 ∧ k (s.startAt u e0) = .ok p := by
  by_cases hr : ReadyAt s.dev[u] s.elapsed
  · have hs : StartsAt s u s.elapsed := .inl ⟨hr, rfl⟩
    exact ⟨_, hs, by rwa [withReady_start hs] at h⟩
  · cases hp : s.cfg.busyPolicy with
    | fatal => rw [withReady_fatal hr hp] at h; simp [raise] at h
    | wait =>
      have hs : StartsAt s u (s.dev[u].deadline + 1) := .inr ⟨hr, hp, rfl⟩
      exact ⟨_, hs, by rwa [withReady_start hs] at h⟩

/-- The start is never before the elapsed count. -/
theorem StartsAt.le {s : State} {u : Unit21} {e0 : Nat} (h : StartsAt s u e0) : s.elapsed ≤ e0 := by
  obtain ⟨-, rfl⟩ | ⟨hr, -, rfl⟩ := h
  · exact le_rfl
  · simp only [ReadyAt, not_or] at hr; omega

theorem blockBase_iff {s : State} {u : Unit21} {base : Nat} :
    s.blockBase u = some base ↔ BlockAt s u base := by
  unfold State.blockBase BlockAt
  split
  · split
    · rename_i h
      constructor
      · intro hh; cases hh
      · rintro ⟨h0, h1, -⟩; omega
    · rename_i h
      rw [not_or, not_lt, not_lt] at h
      have hn : ((s.rX.val.toNat * (s.unit u).block : Nat) : Int) = s.rX.val * (s.unit u).block := by
        rw [Nat.cast_mul, Int.toNat_of_nonneg h.1]
      constructor
      · intro hh; cases hh; exact ⟨h.1, h.2, hn⟩
      · rintro ⟨-, -, hb⟩
        rw [← hn] at hb
        exact congrArg some (Nat.cast_injective hb).symm
  · split
    · constructor
      · intro hh; cases hh
      · rintro ⟨-, h1⟩; omega
    · constructor
      · intro hh; cases hh; exact ⟨rfl, by omega⟩
      · rintro ⟨rfl, -⟩; rfl

/-- The block fits the buffer. -/
theorem BlockAt.le {s : State} {u : Unit21} {base : Nat} (h : BlockAt s u base) :
    base + (s.unit u).block ≤ (s.unit u).cap := by
  unfold BlockAt at h
  split at h
  · obtain ⟨-, h1, h2⟩ := h
    rw [Int.add_mul, one_mul, ← h2] at h1
    omega
  · omega

theorem withBlock_in {s : State} {u : Unit21} {m : Int} {base : Nat} {k : Nat → Rule} (h0 : 0 ≤ m)
    (h1 : m + (s.unit u).block - 1 ≤ 3999) (hb : BlockAt s u base) : withBlock s u m k = k base := by
  have h : ¬ (m < 0 ∨ m + (s.unit u).block - 1 > 3999) := by omega
  simp only [withBlock, h, if_false, blockBase_iff.2 hb]

theorem withBlock_out {s : State} {u : Unit21} {m : Int} {k : Nat → Rule}
    (h : m < 0 ∨ 3999 < m + (s.unit u).block - 1) : withBlock s u m k = raise .memBounds m := if_pos h

theorem withBlock_none {s : State} {u : Unit21} {m : Int} {k : Nat → Rule} (h0 : 0 ≤ m)
    (h1 : m + (s.unit u).block - 1 ≤ 3999) (hb : ∀ base, ¬ BlockAt s u base) :
    withBlock s u m k = raise .deviceRange u.val := by
  have h : ¬ (m < 0 ∨ m + (s.unit u).block - 1 > 3999) := by omega
  have hn : s.blockBase u = none := by
    cases hs : s.blockBase u with
    | none => rfl
    | some base => exact absurd (blockBase_iff.1 hs) (hb base)
  simp only [withBlock, h, if_false, hn]

theorem withBlock_ok {s : State} {u : Unit21} {m : Int} {k : Nat → Rule} {p : State × Int}
    (h : withBlock s u m k = .ok p) :
    ∃ base, 0 ≤ m ∧ m + (s.unit u).block - 1 ≤ 3999 ∧ BlockAt s u base ∧ k base = .ok p := by
  by_cases hm : m < 0 ∨ m + (s.unit u).block - 1 > 3999
  · simp [withBlock, hm, raise] at h
  · simp only [withBlock, hm, if_false] at h
    cases hb : s.blockBase u with
    | none => simp [hb, raise] at h
    | some base => rw [hb] at h; exact ⟨base, by omega, by omega, blockBase_iff.1 hb, h⟩

theorem startAt_blockAt {s : State} {u : Unit21} {e0 base : Nat} :
    BlockAt (s.startAt u e0) u base ↔ BlockAt s u base := by
  unfold BlockAt State.startAt
  simp only [State.setDev, State.unit, Fin.getElem_fin, Vector.getElem_set_self]
  exact Iff.rfl

theorem inputBlock_startAt (s : State) (u : Unit21) (e0 : Nat) (op : OpCode) (m : Int) (base : Nat) :
    inputBlock (s.startAt u e0) u op m base =
      { s with
        mem := Memory.copy s.dev[u].buf base s.mem m.toNat (s.unit u).block
        dev := s.dev.set u ⟨s.dev[u].buf, cursorPast s u base, .busyRead, e0 + costOf s.cfg op + (s.unit u).lat⟩
        elapsed := e0 } := by
  simp [inputBlock, State.startAt, State.setDev, State.cursorAfter, cursorPast, State.deadlineAfter, State.unit]
  rfl

theorem outputBlock_startAt (s : State) (u : Unit21) (e0 : Nat) (op : OpCode) (m : Int) (base : Nat) :
    outputBlock (s.startAt u e0) u op m base =
      { s with
        dev := s.dev.set u ⟨Memory.copy s.mem m.toNat s.dev[u].buf base (s.unit u).block, cursorPast s u base,
          .busyWrite, e0 + costOf s.cfg op + (s.unit u).lat⟩
        elapsed := e0 } := by
  simp [outputBlock, State.startAt, State.setDev, State.cursorAfter, cursorPast, State.deadlineAfter, State.unit]
  rfl

theorem iocCursor_startAt (s : State) (u : Unit21) (e0 : Nat) (m : Int) :
    iocCursor (s.startAt u e0) u m = iocCursor s u m := by
  simp [iocCursor, State.startAt, State.setDev, State.unit]

theorem control_startAt (s : State) (u : Unit21) (e0 : Nat) (op : OpCode) (m : Int) :
    control (s.startAt u e0) u op m =
      { s with
        dev := s.dev.set u
          (if s.cfg.iocSetsBusy then
            ⟨s.dev[u].buf, iocCursor s u m, .busyWrite, e0 + costOf s.cfg op + (s.unit u).lat⟩
          else ⟨s.dev[u].buf, iocCursor s u m, .ready, s.dev[u].deadline⟩)
        elapsed := e0 } := by
  unfold control
  rw [iocCursor_startAt]
  have hc : (s.startAt u e0).cfg = s.cfg := rfl
  rw [hc]
  split <;> simp [State.startAt, State.setDev, State.deadlineAfter, State.unit]

/-- A control operation that does not move forward leaves the cursor where it is or before. -/
theorem iocCursor_le {s : State} {u : Unit21} {m : Int} (h : iocForward (s.unit u).kind m = false) :
    iocCursor s u m ≤ s.dev[u].cursor := by
  unfold iocCursor
  unfold iocForward at h
  split <;> rename_i hk <;> rw [hk] at h <;> first
    | exact Nat.zero_le _
    | exact le_rfl
    | (simp at h; done)
    | skip
  have hm : ¬ 0 < m := of_decide_eq_false h
  unfold tapeCursor
  rw [if_neg hm]
  split
  · exact Nat.zero_le _
  · exact Nat.sub_le _ _

/-- What an instruction that faults not writes, before E and PC are committed: the state and the next PC. -/
inductive Writes (i : Instr) (s : State) : State → Int → Prop where
  | nothing (h : i.code.c.val < 35 ∨ 37 < i.code.c.val) : Writes i s s (s.pc + 1)
  | wordA (w : Word)
      (h : i.code.c.val = 8 ∨ i.code.c.val = 16 ∨ i.code.c.val = 6 ∧ i.code.f.val < 2 ∨
        i.code.c.val = 48 ∧ 2 ≤ i.code.f.val) :
      Writes i s { s with rA := w } (s.pc + 1)
  | wordX (w : Word) (h : i.code.c.val = 15 ∨ i.code.c.val = 23 ∨ i.code.c.val = 55 ∧ 2 ≤ i.code.f.val) :
      Writes i s { s with rX := w } (s.pc + 1)
  | sumA (w : Word) (o : Bool)
      (h : i.code.c.val = 1 ∨ i.code.c.val = 2 ∨ i.code.c.val = 48 ∧ i.code.f.val < 2 ∨
        (i.code.c.val = 3 ∨ i.code.c.val = 4) ∧ i.code.f.val = 6 ∨
        i.code.c.val = 5 ∧ (i.code.f.val = 0 ∨ i.code.f.val = 6 ∨ i.code.f.val = 7)) :
      Writes i s { s with rA := w, ov := s.ov || o } (s.pc + 1)
  | sumX (w : Word) (o : Bool) (h : i.code.c.val = 55 ∧ i.code.f.val < 2) :
      Writes i s { s with rX := w, ov := s.ov || o } (s.pc + 1)
  | index (k : IxReg) (r : Register2)
      (h : i.code.c.val = 8 + indexNumber k ∨ i.code.c.val = 16 + indexNumber k ∨
        i.code.c.val = 48 + indexNumber k) :
      Writes i s (s.setIndex k r) (s.pc + 1)
  | pair (x y : Word)
      (h : (i.code.c.val = 3 ∨ i.code.c.val = 4) ∧ i.code.f.val ≠ 6 ∨ i.code.c.val = 5 ∧ i.code.f.val = 1 ∨
        i.code.c.val = 6 ∧ 2 ≤ i.code.f.val) :
      Writes i s { s with rA := x, rX := y } (s.pc + 1)
  | compare (x : Comparison) (h : 56 ≤ i.code.c.val) : Writes i s { s with ci := x } (s.pc + 1)
  | store (w : Word) (hm : InMemory (s.effAddr i.addr)) (h : 24 ≤ i.code.c.val ∧ i.code.c.val ≤ 33) :
      Writes i s { s with mem := s.mem.write (s.effAddr i.addr).toNat w } (s.pc + 1)
  | move (h : i.code.c.val = 7) (hd : 0 ≤ s.rI1.val) (hn : s.rI1.val + i.code.f.val ≤ 4000) :
      Writes i s
        { s with
          mem := s.mem.move (s.effAddr i.addr).toNat s.rI1.val.toNat i.code.f.val
          rI1 := Register2.ofMag .plus (s.rI1.val.toNat + i.code.f.val) } (s.pc + 1)
  | jump (m : Int) (hm : InMemory m)
      (h : i.code.c.val = 39 ∧ i.code.f.val ≠ 1 ∨ 40 ≤ i.code.c.val ∧ i.code.c.val ≤ 47 ∨ i.code.c.val = 34) :
      Writes i s { s with rJ := returnAddress s.pc } m
  | jumpClear (m : Int) (hm : InMemory m) (h : i.code.c.val = 39 ∧ i.code.f.val = 2) :
      Writes i s { s with ov := false, rJ := returnAddress s.pc } m
  | goTo (m : Int) (hm : InMemory m) (h : i.code.c.val = 39 ∧ i.code.f.val = 1) : Writes i s s m
  | clear (h : i.code.c.val = 39 ∧ i.code.f.val = 3) : Writes i s { s with ov := false } (s.pc + 1)
  | poll (u : Unit21) (hu : u.val = i.code.f.val) (h : i.code.c.val = 34) :
      Writes i s { s with dev := s.dev.set u { s.dev[u] with status := .ready } } (s.pc + 1)
  | jumpPoll (u : Unit21) (hu : u.val = i.code.f.val) (m : Int) (hm : InMemory m) (h : i.code.c.val = 38) :
      Writes i s
        { s with dev := s.dev.set u { s.dev[u] with status := .ready }, rJ := returnAddress s.pc } m
  | input (u : Unit21) (hu : u.val = i.code.f.val) (e0 base : Nat) (hs : StartsAt s u e0)
      (hb : BlockAt s u base) (h0 : 0 ≤ s.effAddr i.addr)
      (h1 : s.effAddr i.addr + (s.unit u).block ≤ 4000) (h : i.code.c.val = 36) :
      Writes i s
        { s with
          mem := Memory.copy s.dev[u].buf base s.mem (s.effAddr i.addr).toNat (s.unit u).block
          dev := s.dev.set u ⟨s.dev[u].buf, cursorPast s u base, .busyRead,
            e0 + costOf s.cfg i.code + (s.unit u).lat⟩
          elapsed := e0 } (s.pc + 1)
  | output (u : Unit21) (hu : u.val = i.code.f.val) (e0 base : Nat) (hs : StartsAt s u e0)
      (hb : BlockAt s u base) (h : i.code.c.val = 37) :
      Writes i s
        { s with
          dev := s.dev.set u ⟨Memory.copy s.mem (s.effAddr i.addr).toNat s.dev[u].buf base (s.unit u).block,
            cursorPast s u base, .busyWrite, e0 + costOf s.cfg i.code + (s.unit u).lat⟩
          elapsed := e0 } (s.pc + 1)
  | control (u : Unit21) (hu : u.val = i.code.f.val) (e0 : Nat) (hs : StartsAt s u e0) (d : Device)
      (hbuf : d.buf = s.dev[u].buf)
      (hcur : s.dev[u].cursor ≤ (s.unit u).cap → d.cursor ≤ (s.unit u).cap) (h : i.code.c.val = 35) :
      Writes i s { s with dev := s.dev.set u d, elapsed := e0 } (s.pc + 1)
  | halt (h : i.code.c.val = 5 ∧ i.code.f.val = 2) : Writes i s { s with es := .halted } s.pc

/-- How an instruction ends: in its fault, or with the commit of writes of `Writes`. -/
def Ends (i : Instr) (s t : State) : Prop :=
  (∃ e, t = s.takeFault (some i.code) e) ∨ ∃ u pc, Writes i s u pc ∧ t = u.commit i.code pc

theorem perform_ends {i : Instr} {s t : State} {op : OpCode} {a : Addr} {rule : Int → Sign → Rule}
    (h : perform op a s rule = .next t) (hop : op = i.code) (ha : a = i.addr)
    (hr : ∀ u pc, rule (s.effAddr i.addr) (sgnof (s.effAddr i.addr) i.addr.sign) = .ok (u, pc) → Writes i s u pc) :
    Ends i s t := by
  subst hop ha
  obtain he | ⟨u, pc, -, hu, ht⟩ := perform_next h
  · exact .inl he
  · exact .inr ⟨u, pc, hr u pc hu, ht⟩

theorem performField_ends {i : Instr} {s t : State} {c : Byte} {f : Field} {a : Addr} {rule : Int → Rule}
    (h : performField c f a s rule = .next t) (hop : ⟨c, f.byte⟩ = i.code) (ha : a = i.addr)
    (hr : f.valid = true → ∀ u pc, rule (s.effAddr i.addr) = .ok (u, pc) → Writes i s u pc) : Ends i s t := by
  subst ha
  obtain he | ⟨u, pc, hv, hu, ht⟩ := performField_next h <;> rw [hop] at *
  · exact .inl he
  · exact .inr ⟨u, pc, hr hv u pc hu, ht⟩

theorem performExt_ends {i : Instr} {s t : State} {op : OpCode} {a : Addr} {rule : Int → Rule}
    (h : performExt op a s rule = .next t) (hop : op = i.code) (ha : a = i.addr)
    (hr : ∀ u pc, rule (s.effAddr i.addr) = .ok (u, pc) → Writes i s u pc) : Ends i s t := by
  subst hop ha
  obtain he | ⟨u, pc, hu, ht⟩ := performExt_next h
  · exact .inl he
  · exact .inr ⟨u, pc, hr u pc hu, ht⟩

theorem done_writes {i : Instr} {s t u : State} {pc : Int} (h : done t = .ok (u, pc)) (hpc : t.pc = s.pc)
    (hw : Writes i s t (s.pc + 1)) : Writes i s u pc := by
  obtain ⟨rfl, rfl⟩ := done_ok h
  rwa [hpc]

/-- A write of an index register that faults not is one register's. -/
theorem putIndex_writes {i : Instr} {s u : State} {k : IxReg} {w : Word} {pc : Int}
    (h : putIndex k s w = .ok (u, pc))
    (hc : i.code.c.val = 8 + indexNumber k ∨ i.code.c.val = 16 + indexNumber k ∨
      i.code.c.val = 48 + indexNumber k) : Writes i s u pc := by
  unfold putIndex at h
  split at h
  · exact done_writes h (by cases k <;> rfl) (.index k _ hc)
  · cases h

theorem putIndexValue_writes {i : Instr} {s u : State} {k : IxReg} {v : Int} {g : Sign} {pc : Int}
    (h : putIndexValue k s v g = .ok (u, pc))
    (hc : i.code.c.val = 8 + indexNumber k ∨ i.code.c.val = 16 + indexNumber k ∨
      i.code.c.val = 48 + indexNumber k) : Writes i s u pc := by
  unfold putIndexValue at h
  split at h
  · exact done_writes h (by cases k <;> rfl) (.index k _ hc)
  · cases h

theorem addOverflow_eq (r : Word) (d : Int) (ov : Bool) : addOverflow r d ov = (ov || addOverflow r d false) := by
  unfold addOverflow; split <;> simp

theorem addToA_writes {i : Instr} {s u : State} {d pc : Int} (h : addToA s d = .ok (u, pc))
    (hc : i.code.c.val = 1 ∨ i.code.c.val = 2 ∨ i.code.c.val = 48 ∧ i.code.f.val < 2) : Writes i s u pc := by
  unfold addToA at h
  rw [addOverflow_eq] at h
  exact done_writes h rfl (.sumA _ _ (by omega))

theorem addToX_writes {i : Instr} {s u : State} {d pc : Int} (h : addToX s d = .ok (u, pc))
    (hc : i.code.c.val = 55 ∧ i.code.f.val < 2) : Writes i s u pc := by
  unfold addToX at h
  rw [addOverflow_eq] at h
  exact done_writes h rfl (.sumX _ _ hc)

theorem load_ends {i : Instr} {s t : State} {c : Byte} {f : Field} {a : Addr} {put : Word → Rule}
    (h : load c f a s put = .next t) (hop : ⟨c, f.byte⟩ = i.code) (ha : a = i.addr)
    (hp : ∀ w u pc, put w = .ok (u, pc) → Writes i s u pc) : Ends i s t :=
  performField_ends h hop ha fun _ _ _ hu => hp _ _ _ (withWord_ok hu).2

theorem loadNegated_ends {i : Instr} {s t : State} {c : Byte} {f : Field} {a : Addr} {put : Word → Rule}
    (h : loadNegated c f a s put = .next t) (hop : ⟨c, f.byte⟩ = i.code) (ha : a = i.addr)
    (hp : ∀ w u pc, put w = .ok (u, pc) → Writes i s u pc) : Ends i s t :=
  performField_ends h hop ha fun _ _ _ hu => hp _ _ _ (withWord_ok hu).2

theorem store_ends {i : Instr} {s t : State} {c : Byte} {f : Field} {a : Addr} {w : Word}
    (h : store c f a s w = .next t) (hop : ⟨c, f.byte⟩ = i.code) (ha : a = i.addr)
    (hc : 24 ≤ i.code.c.val ∧ i.code.c.val ≤ 33) : Ends i s t :=
  performField_ends h hop ha fun _ _ _ hu =>
    have hw := withWord_ok hu
    done_writes (s := s) hw.2 rfl (.store _ hw.1 hc)

theorem compare_ends {i : Instr} {s t : State} {c : Byte} {f : Field} {a : Addr} {r : Word}
    (h : compare c f a s r = .next t) (hop : ⟨c, f.byte⟩ = i.code) (ha : a = i.addr)
    (hc : 56 ≤ i.code.c.val) : Ends i s t :=
  performField_ends h hop ha fun _ _ _ hu => done_writes (s := s) (withWord_ok hu).2 rfl (.compare _ hc)

theorem operand_ends {i : Instr} {s t : State} {c : Byte} {f : Field} {a : Addr} {k : Int → Word → Rule}
    (h : withOperand c f a s k = .next t) (hop : ⟨c, f.byte⟩ = i.code) (ha : a = i.addr)
    (hk : f.valid = true → ∀ w u pc, k (s.effAddr i.addr) w = .ok (u, pc) → Writes i s u pc) : Ends i s t :=
  performField_ends h hop ha fun hv u pc hu => hk hv _ u pc (withWord_ok hu).2

theorem float_ends {i : Instr} {s t : State} {op : OpCode} {a : Addr} {rule : FloatUnit → Int → Rule}
    (h : performFloat op a s rule = .next t) (hop : op = i.code) (ha : a = i.addr)
    (hr : ∀ v u pc, rule v (s.effAddr i.addr) = .ok (u, pc) → Writes i s u pc) : Ends i s t := by
  subst hop ha
  obtain he | ⟨v, u, pc, -, hu, ht⟩ := performFloat_next h
  · exact .inl he
  · exact .inr ⟨u, pc, hr v u pc hu, ht⟩

theorem putFloat_writes {i : Instr} {s u : State} {m pc : Int} {r : FloatResult} (h : putFloat s m r = .ok (u, pc))
    (hc : (1 ≤ i.code.c.val ∧ i.code.c.val ≤ 4) ∧ i.code.f.val = 6 ∨
      i.code.c.val = 5 ∧ (i.code.f.val = 6 ∨ i.code.f.val = 7)) : Writes i s u pc := by
  cases r with
  | ok w o => exact done_writes (s := s) h rfl (.sumA w o (by omega))
  | fault => cases h

theorem putFloatCompare_writes {i : Instr} {s u : State} {m pc : Int} {r : FloatCompare}
    (h : putFloatCompare s m r = .ok (u, pc)) (hc : 56 ≤ i.code.c.val) : Writes i s u pc := by
  cases r with
  | ok x => exact done_writes (s := s) h rfl (.compare x hc)
  | fault => cases h

theorem withCount_ok {m : Int} {k : Nat → Rule} {p : State × Int} (h : withCount m k = .ok p) :
    0 ≤ m ∧ k m.toNat = .ok p := by
  unfold withCount at h
  split at h
  · cases h
  · exact ⟨by omega, h⟩

theorem shiftA_ends {i : Instr} {s t : State} {op : OpCode} {a : Addr} {g : Nat → Nat → Byte}
    (h : shiftA op a s g = .next t) (hop : op = i.code) (ha : a = i.addr)
    (hc : i.code.c.val = 6 ∧ i.code.f.val < 2) : Ends i s t :=
  perform_ends h hop ha fun _ _ hu => done_writes (s := s) (withCount_ok hu).2 rfl (.wordA _ (by omega))

theorem setPair_writes {i : Instr} {s u : State} {g : Nat → Byte} {pc : Int} (h : done (s.setPair g) = .ok (u, pc))
    (hc : (i.code.c.val = 3 ∨ i.code.c.val = 4) ∧ i.code.f.val ≠ 6 ∨ i.code.c.val = 5 ∧ i.code.f.val = 1 ∨
      i.code.c.val = 6 ∧ 2 ≤ i.code.f.val) : Writes i s u pc :=
  done_writes h rfl (.pair _ _ hc)

theorem shiftPair_ends {i : Instr} {s t : State} {op : OpCode} {a : Addr} {g : Nat → Nat → Byte}
    (h : shiftPair op a s g = .next t) (hop : op = i.code) (ha : a = i.addr)
    (hc : i.code.c.val = 6 ∧ 2 ≤ i.code.f.val) : Ends i s t :=
  perform_ends h hop ha fun _ _ hu => done_writes (s := s) (withCount_ok hu).2 rfl (.pair _ _ (by omega))

theorem shiftBits_ends {i : Instr} {s t : State} {op : OpCode} {a : Addr} {g : Nat → Nat}
    (h : shiftBits op a s g = .next t) (hop : op = i.code) (ha : a = i.addr)
    (hc : i.code.c.val = 6 ∧ 2 ≤ i.code.f.val) : Ends i s t :=
  performExt_ends h hop ha fun _ _ hu => done_writes (s := s) (withCount_ok hu).2 rfl (.pair _ _ (by omega))

theorem jumpIf_writes {i : Instr} {s u : State} {b : Bool} {m pc : Int} (h : jumpIf b m s = .ok (u, pc))
    (hc : i.code.c.val = 39 ∧ i.code.f.val ≠ 1 ∨ 40 ≤ i.code.c.val ∧ i.code.c.val ≤ 47 ∨ i.code.c.val = 34) :
    Writes i s u pc := by
  obtain ⟨-, hm, rfl, rfl⟩ | ⟨-, rfl, rfl⟩ := jumpIf_ok h
  · exact .jump _ hm hc
  · exact .nothing (by omega)

theorem jump_ends {i : Instr} {s t : State} {op : OpCode} {a : Addr} {b : Bool}
    (h : jump op a s b = .next t) (hop : op = i.code) (ha : a = i.addr)
    (hc : i.code.c.val = 39 ∧ i.code.f.val ≠ 1 ∨ 40 ≤ i.code.c.val ∧ i.code.c.val ≤ 47 ∨ i.code.c.val = 34) :
    Ends i s t :=
  perform_ends h hop ha fun _ _ hu => jumpIf_writes hu hc

theorem jumpParity_ends {i : Instr} {s t : State} {op : OpCode} {a : Addr} {r : Word} {q : Nat}
    (h : jumpParity op a s r q = .next t) (hop : op = i.code) (ha : a = i.addr)
    (hc : i.code.c.val = 39 ∧ i.code.f.val ≠ 1 ∨ 40 ≤ i.code.c.val ∧ i.code.c.val ≤ 47 ∨ i.code.c.val = 34) :
    Ends i s t :=
  performExt_ends h hop ha fun _ _ hu => jumpIf_writes hu hc

theorem input_ends {a : Addr} {b : Byte} {s t : State} (h : execIoIn a b s = .next t) :
    Ends (.ioIn a b) s t :=
  perform_ends h rfl rfl fun u pc hu => by
    obtain ⟨n, hn, hu⟩ := withUnit_ok hu
    split at hu
    · obtain ⟨e0, hs, hu⟩ := withReady_ok hu
      obtain ⟨base, h0, h1, hb, hu⟩ := withBlock_ok hu
      rw [inputBlock_startAt] at hu
      refine done_writes (s := s) (i := .ioIn a b) hu rfl (Writes.input (i := .ioIn a b) n hn e0 base hs (startAt_blockAt.1 hb) h0 ?_ rfl)
      have : ((s.startAt n e0).unit n).block = (s.unit n).block := rfl
      rw [this] at h1
      have h2 : s.effAddr a + (s.unit n).block - 1 ≤ 3999 := h1
      show s.effAddr a + (s.unit n).block ≤ 4000
      omega
    · cases hu

theorem output_ends {a : Addr} {b : Byte} {s t : State} (h : execIoOut a b s = .next t) :
    Ends (.ioOut a b) s t :=
  perform_ends h rfl rfl fun u pc hu => by
    obtain ⟨n, hn, hu⟩ := withUnit_ok hu
    split at hu
    · obtain ⟨e0, hs, hu⟩ := withReady_ok hu
      obtain ⟨base, -, -, hb, hu⟩ := withBlock_ok hu
      rw [outputBlock_startAt] at hu
      exact done_writes (s := s) (i := .ioOut a b) hu rfl (Writes.output (i := .ioOut a b) n hn e0 base hs (startAt_blockAt.1 hb) rfl)
    · cases hu

theorem control_ends {a : Addr} {b : Byte} {s t : State} (h : execIoc a b s = .next t) :
    Ends (.ioc a b) s t :=
  perform_ends h rfl rfl fun u pc hu => by
    obtain ⟨n, hn, hu⟩ := withUnit_ok hu
    split at hu
    · obtain ⟨e0, hs, hu⟩ := withReady_ok hu
      split at hu
      · cases hu
      · rename_i hc
        rw [control_startAt] at hu
        refine done_writes (s := s) (i := .ioc a b) hu rfl
          (Writes.control (i := .ioc a b) n hn e0 hs _ (by split <;> rfl) (fun hle => ?_) rfl)
        have hcur : iocCursor s n (s.effAddr a) ≤ (s.unit n).cap := by
          cases hf : iocForward (s.unit n).kind (s.effAddr a) with
          | false => exact (iocCursor_le hf).trans hle
          | true =>
            rw [iocCursor_startAt] at hc
            exact not_lt.1 fun hlt => hc ⟨hf, hlt⟩
        split <;> exact hcur
    · cases hu

theorem busy_ends {a : Addr} {b : Byte} {s t : State} (h : execJbus a b s = .next t) : Ends (.jbus a b) s t :=
  perform_ends h rfl rfl fun u pc hu => by
    obtain ⟨n, hn, hu⟩ := withUnit_ok hu
    split at hu
    · rename_i hr
      rw [Device.poll_ready hr] at hu
      exact done_writes (s := s) (i := .jbus a b) hu rfl (Writes.poll (i := .jbus a b) n hn rfl)
    · obtain ⟨hm, rfl, rfl⟩ := take_ok hu
      exact .jump _ hm (.inr (.inr rfl))

theorem ready_ends {a : Addr} {b : Byte} {s t : State} (h : execJred a b s = .next t) : Ends (.jred a b) s t :=
  perform_ends h rfl rfl fun u pc hu => by
    obtain ⟨n, hn, hu⟩ := withUnit_ok hu
    split at hu
    · rename_i hr
      rw [Device.poll_ready hr] at hu
      obtain ⟨hm, rfl, rfl⟩ := take_ok hu
      exact Writes.jumpPoll (i := .jred a b) n hn _ hm rfl
    · exact done_writes hu rfl (.nothing (by simp [Instr.code]))

theorem move_ends {a : Addr} {b : Byte} {s t : State} (h : execMove a b s = .next t) : Ends (.move a b) s t :=
  perform_ends h rfl rfl fun u pc hu => by
    split at hu
    · cases hu
    · split at hu
      · exact done_writes hu rfl (.nothing (by simp [Instr.code]))
      · split at hu
        · cases hu
        · split at hu
          · cases hu
          · rename_i hd
            rw [not_or, not_lt, not_lt] at hd
            refine done_writes hu rfl (.move rfl hd.1 ?_)
            show s.rI1.val + b.val ≤ 4000
            omega

/-- Everything an instruction can do. -/
theorem exec_next {i : Instr} {s t : State} (h : exec i s = .next t) : Ends i s t := by
  cases i with
  | nop a b =>
    dsimp only [exec, execNop] at h
    exact perform_ends h rfl rfl fun _ _ hu => done_writes (s := s) hu rfl (.nothing (by simp [Instr.code]))
  | add a f
  | sub a f =>
    dsimp only [exec, execAdd, execSub] at h
    exact operand_ends h rfl rfl fun _ _ _ _ hu => addToA_writes hu (by simp [Instr.code])
  | mul a f =>
    dsimp only [exec, execMul] at h
    exact operand_ends h rfl rfl fun hv _ _ _ hu =>
      done_writes (s := s) hu rfl (.pair _ _ (.inl ⟨.inl rfl, Field.byte_ne_six hv⟩))
  | div a f =>
    dsimp only [exec, execDiv] at h
    refine operand_ends h rfl rfl fun hv w u pc hu => ?_
    split at hu
    · cases hu
    · split at hu
      · cases hu
      · exact done_writes (s := s) hu rfl (.pair _ _ (.inl ⟨.inr rfl, Field.byte_ne_six hv⟩))
  | fadd a
  | fsub a
  | fmul a
  | fdiv a =>
    dsimp only [exec, execFadd, execFsub, execFmul, execFdiv] at h
    exact float_ends h rfl rfl fun _ _ _ hu => putFloat_writes (withWord_ok hu).2 (by simp [Instr.code])
  | flot a
  | fix a =>
    dsimp only [exec, execFlot, execFix] at h
    exact float_ends h rfl rfl fun _ _ _ hu => putFloat_writes hu (by simp [Instr.code])
  | fcmp a =>
    dsimp only [exec, execFcmp] at h
    exact float_ends h rfl rfl fun _ _ _ hu => putFloatCompare_writes (withWord_ok hu).2 (by simp [Instr.code])
  | num a =>
    dsimp only [exec, execNum] at h
    exact perform_ends h rfl rfl fun _ _ hu => done_writes (s := s) hu rfl (.sumA _ _ (by simp [Instr.code]))
  | char a =>
    dsimp only [exec, execChar] at h
    exact perform_ends h rfl rfl fun _ _ hu => setPair_writes hu (by simp [Instr.code])
  | hlt a =>
    dsimp only [exec, execHlt] at h
    exact perform_ends h rfl rfl fun _ _ hu => by
      simp only [Except.ok.injEq, Prod.mk.injEq] at hu
      obtain ⟨rfl, rfl⟩ := hu
      exact .halt (by simp [Instr.code])
  | sla a
  | sra a =>
    dsimp only [exec, execSla, execSra] at h
    exact shiftA_ends h rfl rfl (by simp [Instr.code])
  | slax a
  | srax a
  | slc a
  | src a =>
    dsimp only [exec, execSlax, execSrax, execSlc, execSrc] at h
    exact shiftPair_ends h rfl rfl (by simp [Instr.code])
  | slb a
  | srb a =>
    dsimp only [exec, execSlb, execSrb] at h
    exact shiftBits_ends h rfl rfl (by simp [Instr.code])
  | move a b =>
    dsimp only [exec, execMove] at h
    exact move_ends h
  | lda a f =>
    dsimp only [exec, execLda] at h
    exact load_ends h rfl rfl fun w _ _ hp => done_writes (s := s) hp rfl (.wordA w (.inl rfl))
  | ldx a f =>
    dsimp only [exec, execLdx] at h
    exact load_ends h rfl rfl fun w _ _ hp => done_writes (s := s) hp rfl (.wordX w (.inl rfl))
  | ld1 a f
  | ld2 a f
  | ld3 a f
  | ld4 a f
  | ld5 a f
  | ld6 a f =>
    dsimp only [exec, execLd1, execLd2, execLd3, execLd4, execLd5, execLd6] at h
    exact load_ends h rfl rfl fun _ _ _ hp => putIndex_writes hp (.inl rfl)
  | ldan a f =>
    dsimp only [exec, execLdan] at h
    exact loadNegated_ends h rfl rfl fun w _ _ hp => done_writes (s := s) hp rfl (.wordA w (.inr (.inl rfl)))
  | ldxn a f =>
    dsimp only [exec, execLdxn] at h
    exact loadNegated_ends h rfl rfl fun w _ _ hp => done_writes (s := s) hp rfl (.wordX w (.inr (.inl rfl)))
  | ld1n a f
  | ld2n a f
  | ld3n a f
  | ld4n a f
  | ld5n a f
  | ld6n a f =>
    dsimp only [exec, execLd1n, execLd2n, execLd3n, execLd4n, execLd5n, execLd6n] at h
    exact loadNegated_ends h rfl rfl fun _ _ _ hp => putIndex_writes hp (.inr (.inl rfl))
  | sta a f
  | st1 a f
  | st2 a f
  | st3 a f
  | st4 a f
  | st5 a f
  | st6 a f
  | stx a f
  | stj a f
  | stz a f =>
    dsimp only [exec, execSta, execSt1, execSt2, execSt3, execSt4, execSt5, execSt6, execStx, execStj,
      execStz] at h
    exact store_ends h rfl rfl (by simp [Instr.code])
  | jbus a b =>
    dsimp only [exec, execJbus] at h
    exact busy_ends h
  | ioc a b =>
    dsimp only [exec, execIoc] at h
    exact control_ends h
  | ioIn a b =>
    dsimp only [exec, execIoIn] at h
    exact input_ends h
  | ioOut a b =>
    dsimp only [exec, execIoOut] at h
    exact output_ends h
  | jred a b =>
    dsimp only [exec, execJred] at h
    exact ready_ends h
  | jmp a =>
    dsimp only [exec, execJmp] at h
    exact perform_ends h rfl rfl fun _ _ hu => jumpIf_writes hu (by simp [Instr.code])
  | jsj a =>
    dsimp only [exec, execJsj] at h
    exact perform_ends h rfl rfl fun _ _ hu => by
      obtain ⟨hm, rfl, rfl⟩ := takeNoSave_ok hu
      exact .goTo _ hm (by simp [Instr.code])
  | jov a =>
    dsimp only [exec, execJov] at h
    refine perform_ends h rfl rfl fun u pc hu => ?_
    split at hu
    · obtain ⟨hm, rfl, rfl⟩ := take_ok hu
      exact .jumpClear _ hm (by simp [Instr.code])
    · exact done_writes (s := s) hu rfl (.nothing (by simp [Instr.code]))
  | jnov a =>
    dsimp only [exec, execJnov] at h
    refine perform_ends h rfl rfl fun u pc hu => ?_
    split at hu
    · exact done_writes (s := s) hu rfl (.clear (by simp [Instr.code]))
    · obtain ⟨hm, rfl, rfl⟩ := take_ok hu
      exact .jump _ hm (by simp [Instr.code])
  | jl a
  | je a
  | jg a
  | jge a
  | jne a
  | jle a
  | jan a
  | jaz a
  | jap a
  | jann a
  | janz a
  | janp a
  | j1n a
  | j1z a
  | j1p a
  | j1nn a
  | j1nz a
  | j1np a
  | j2n a
  | j2z a
  | j2p a
  | j2nn a
  | j2nz a
  | j2np a
  | j3n a
  | j3z a
  | j3p a
  | j3nn a
  | j3nz a
  | j3np a
  | j4n a
  | j4z a
  | j4p a
  | j4nn a
  | j4nz a
  | j4np a
  | j5n a
  | j5z a
  | j5p a
  | j5nn a
  | j5nz a
  | j5np a
  | j6n a
  | j6z a
  | j6p a
  | j6nn a
  | j6nz a
  | j6np a
  | jxn a
  | jxz a
  | jxp a
  | jxnn a
  | jxnz a
  | jxnp a =>
    dsimp only [exec, execJl, execJe, execJg, execJge, execJne, execJle, execJan, execJaz, execJap,
      execJann, execJanz, execJanp, execJ1n, execJ1z, execJ1p, execJ1nn, execJ1nz, execJ1np, execJ2n,
      execJ2z, execJ2p, execJ2nn, execJ2nz, execJ2np, execJ3n, execJ3z, execJ3p, execJ3nn, execJ3nz,
      execJ3np, execJ4n, execJ4z, execJ4p, execJ4nn, execJ4nz, execJ4np, execJ5n, execJ5z, execJ5p,
      execJ5nn, execJ5nz, execJ5np, execJ6n, execJ6z, execJ6p, execJ6nn, execJ6nz, execJ6np, execJxn,
      execJxz, execJxp, execJxnn, execJxnz, execJxnp] at h
    exact jump_ends h rfl rfl (by simp [Instr.code])
  | jae a
  | jao a
  | jxe a
  | jxo a =>
    dsimp only [exec, execJae, execJao, execJxe, execJxo] at h
    exact jumpParity_ends h rfl rfl (by simp [Instr.code])
  | inca a
  | deca a =>
    dsimp only [exec, execInca, execDeca] at h
    exact perform_ends h rfl rfl fun _ _ hu => addToA_writes hu (by simp [Instr.code])
  | incx a
  | decx a =>
    dsimp only [exec, execIncx, execDecx] at h
    exact perform_ends h rfl rfl fun _ _ hu => addToX_writes hu (by simp [Instr.code])
  | enta a
  | enna a =>
    dsimp only [exec, execEnta, execEnna] at h
    exact perform_ends h rfl rfl fun _ _ hu => done_writes (s := s) hu rfl (.wordA _ (by simp [Instr.code]))
  | entx a
  | ennx a =>
    dsimp only [exec, execEntx, execEnnx] at h
    exact perform_ends h rfl rfl fun _ _ hu => done_writes (s := s) hu rfl (.wordX _ (by simp [Instr.code]))
  | inc1 a
  | dec1 a
  | inc2 a
  | dec2 a
  | inc3 a
  | dec3 a
  | inc4 a
  | dec4 a
  | inc5 a
  | dec5 a
  | inc6 a
  | dec6 a =>
    dsimp only [exec, execInc1, execDec1, execInc2, execDec2, execInc3, execDec3, execInc4, execDec4,
      execInc5, execDec5, execInc6, execDec6] at h
    exact perform_ends h rfl rfl fun _ _ hu => putIndexValue_writes hu (.inr (.inr rfl))
  | ent1 a
  | enn1 a
  | ent2 a
  | enn2 a
  | ent3 a
  | enn3 a
  | ent4 a
  | enn4 a
  | ent5 a
  | enn5 a
  | ent6 a
  | enn6 a =>
    dsimp only [exec, execEnt1, execEnn1, execEnt2, execEnn2, execEnt3, execEnn3, execEnt4, execEnn4,
      execEnt5, execEnn5, execEnt6, execEnn6] at h
    exact perform_ends h rfl rfl fun _ _ hu => done_writes (s := s) hu rfl (.index _ _ (.inr (.inr rfl)))
  | cmpa a f
  | cmp1 a f
  | cmp2 a f
  | cmp3 a f
  | cmp4 a f
  | cmp5 a f
  | cmp6 a f
  | cmpx a f =>
    dsimp only [exec, execCmpa, execCmp1, execCmp2, execCmp3, execCmp4, execCmp5, execCmp6, execCmpx]
      at h
    exact compare_ends h rfl rfl (by simp [Instr.code])

theorem performField_shape {i : Instr} {s : State} {c : Byte} {f : Field} {a : Addr} {rule : Int → Rule}
    (hf : i.wf = f.valid) (hi : i.code = ⟨c, f.byte⟩ ∧ i.addr = a := by exact ⟨rfl, rfl⟩) :
    (∃ r, performField c f a s rule = perform i.code i.addr s r) ∨
      (¬ s.decodes i ∧ performField c f a s rule = decodeFailure i.code s) := by
  obtain ⟨hc, rfl⟩ := hi
  cases hv : f.valid with
  | true => exact .inl ⟨_, by rw [performField_valid hv, hc]⟩
  | false =>
    refine .inr ⟨fun hd => ?_, by simp [performField, hv, hc]⟩
    rw [hd.1, hv] at hf; cases hf

theorem performExt_shape {i : Instr} {s : State} {op : OpCode} {a : Addr} {rule : Int → Rule}
    (hx : i.isBinaryExt = true) (hi : i.code = op ∧ i.addr = a := by exact ⟨rfl, rfl⟩) :
    (∃ r, performExt op a s rule = perform i.code i.addr s r) ∨
      (¬ s.decodes i ∧ performExt op a s rule = decodeFailure i.code s) := by
  obtain ⟨rfl, rfl⟩ := hi
  cases hv : s.cfg.extBinaryOps with
  | true => exact .inl ⟨_, performExt_on hv⟩
  | false =>
    refine .inr ⟨fun hd => ?_, by simp [performExt, hv]⟩
    have := hd.2 hx
    rw [hv] at this; cases this

/-- Every instruction is the checks of `perform` around its rule, or the decode failure of a term the decoder
never hands over. -/
theorem exec_shape (i : Instr) (s : State) :
    (∃ r, exec i s = perform i.code i.addr s r) ∨ (¬ s.decodes i ∧ exec i s = decodeFailure i.code s) := by
  cases i with
  | nop a b
  | move a b =>
    dsimp only [exec, execNop, execMove]
    exact .inl ⟨_, rfl⟩
  | jbus a b
  | ioc a b
  | ioIn a b
  | ioOut a b
  | jred a b =>
    dsimp only [exec, execJbus, execIoc, execIoIn, execIoOut, execJred]
    exact .inl ⟨_, rfl⟩
  | add a f
  | sub a f
  | mul a f
  | div a f =>
    dsimp only [exec, execAdd, execSub, execMul, execDiv]
    exact performField_shape rfl
  | lda a f
  | ldx a f
  | ld1 a f
  | ld2 a f
  | ld3 a f
  | ld4 a f
  | ld5 a f
  | ld6 a f =>
    dsimp only [exec, execLda, execLdx, execLd1, execLd2, execLd3, execLd4, execLd5, execLd6]
    exact performField_shape rfl
  | ldan a f
  | ldxn a f
  | ld1n a f
  | ld2n a f
  | ld3n a f
  | ld4n a f
  | ld5n a f
  | ld6n a f =>
    dsimp only [exec, execLdan, execLdxn, execLd1n, execLd2n, execLd3n, execLd4n, execLd5n, execLd6n]
    exact performField_shape rfl
  | sta a f
  | st1 a f
  | st2 a f
  | st3 a f
  | st4 a f
  | st5 a f
  | st6 a f
  | stx a f
  | stj a f
  | stz a f =>
    dsimp only [exec, execSta, execSt1, execSt2, execSt3, execSt4, execSt5, execSt6, execStx, execStj,
      execStz]
    exact performField_shape rfl
  | cmpa a f
  | cmp1 a f
  | cmp2 a f
  | cmp3 a f
  | cmp4 a f
  | cmp5 a f
  | cmp6 a f
  | cmpx a f =>
    dsimp only [exec, execCmpa, execCmp1, execCmp2, execCmp3, execCmp4, execCmp5, execCmp6, execCmpx]
    exact performField_shape rfl
  | fadd a
  | fsub a
  | fmul a
  | fdiv a
  | flot a
  | fix a
  | fcmp a =>
    dsimp only [exec, execFadd, execFsub, execFmul, execFdiv, execFlot, execFix, execFcmp]
    exact .inl ⟨_, rfl⟩
  | num a
  | char a
  | hlt a
  | sla a
  | sra a
  | slax a
  | srax a
  | slc a
  | src a =>
    dsimp only [exec, execNum, execChar, execHlt, execSla, execSra, execSlax, execSrax, execSlc,
      execSrc]
    exact .inl ⟨_, rfl⟩
  | slb a
  | srb a
  | jae a
  | jao a
  | jxe a
  | jxo a =>
    dsimp only [exec, execSlb, execSrb, execJae, execJao, execJxe, execJxo]
    exact performExt_shape (by rfl)
  | jmp a
  | jsj a
  | jov a
  | jnov a
  | jl a
  | je a
  | jg a
  | jge a
  | jne a
  | jle a =>
    dsimp only [exec, execJmp, execJsj, execJov, execJnov, execJl, execJe, execJg, execJge, execJne,
      execJle]
    exact .inl ⟨_, rfl⟩
  | jan a
  | jaz a
  | jap a
  | jann a
  | janz a
  | janp a
  | j1n a
  | j1z a
  | j1p a
  | j1nn a
  | j1nz a
  | j1np a
  | j2n a
  | j2z a
  | j2p a
  | j2nn a
  | j2nz a
  | j2np a
  | j3n a
  | j3z a
  | j3p a
  | j3nn a
  | j3nz a
  | j3np a
  | j4n a
  | j4z a
  | j4p a
  | j4nn a
  | j4nz a
  | j4np a
  | j5n a
  | j5z a
  | j5p a
  | j5nn a
  | j5nz a
  | j5np a
  | j6n a
  | j6z a
  | j6p a
  | j6nn a
  | j6nz a
  | j6np a
  | jxn a
  | jxz a
  | jxp a
  | jxnn a
  | jxnz a
  | jxnp a =>
    dsimp only [exec, execJan, execJaz, execJap, execJann, execJanz, execJanp, execJ1n, execJ1z,
      execJ1p, execJ1nn, execJ1nz, execJ1np, execJ2n, execJ2z, execJ2p, execJ2nn, execJ2nz, execJ2np,
      execJ3n, execJ3z, execJ3p, execJ3nn, execJ3nz, execJ3np, execJ4n, execJ4z, execJ4p, execJ4nn,
      execJ4nz, execJ4np, execJ5n, execJ5z, execJ5p, execJ5nn, execJ5nz, execJ5np, execJ6n, execJ6z,
      execJ6p, execJ6nn, execJ6nz, execJ6np, execJxn, execJxz, execJxp, execJxnn, execJxnz, execJxnp]
    exact .inl ⟨_, rfl⟩
  | inca a
  | deca a
  | enta a
  | enna a
  | inc1 a
  | dec1 a
  | ent1 a
  | enn1 a
  | inc2 a
  | dec2 a
  | ent2 a
  | enn2 a
  | inc3 a
  | dec3 a
  | ent3 a
  | enn3 a
  | inc4 a
  | dec4 a
  | ent4 a
  | enn4 a
  | inc5 a
  | dec5 a
  | ent5 a
  | enn5 a
  | inc6 a
  | dec6 a
  | ent6 a
  | enn6 a
  | incx a
  | decx a
  | entx a
  | ennx a =>
    dsimp only [exec, execInca, execDeca, execEnta, execEnna, execInc1, execDec1, execEnt1, execEnn1,
      execInc2, execDec2, execEnt2, execEnn2, execInc3, execDec3, execEnt3, execEnn3, execInc4, execDec4,
      execEnt4, execEnn4, execInc5, execDec5, execEnt5, execEnn5, execInc6, execDec6, execEnt6, execEnn6,
      execIncx, execDecx, execEntx, execEnnx]
    exact .inl ⟨_, rfl⟩

/-- The checks before a rule answer a next state. -/
theorem perform_isNext (op : OpCode) (a : Addr) (s : State) (r : Int → Sign → Rule) : ∃ t, perform op a s r = .next t := by
  unfold perform
  split
  · cases r (s.effAddr a) (sgnof (s.effAddr a) a.sign) with
    | error e => exact ⟨_, rfl⟩
    | ok p => exact ⟨_, rfl⟩
  · exact ⟨_, rfl⟩

/-- Every instruction answers a next state. -/
theorem exec_isNext (i : Instr) (s : State) : ∃ t, exec i s = .next t := by
  obtain ⟨r, h⟩ | ⟨-, h⟩ := exec_shape i s
  · rw [h]; exact perform_isNext ..
  · exact ⟨_, h⟩

end Sys2Proof.Machine
end

