-- ==== Sys2Proof/Laws/Memory.lean ====
section
/-! SUPPORT. The laws of the word store: a read after a write, the canonical form kept by every operation, and
equal contents are equal data. -/

namespace Sys2Proof

theorem Memory.wfFrom_cons {lo hi a : Nat} {w : Word} {m : Memory} :
    Memory.wfFrom lo hi ((a, w) :: m) = true ↔
      lo ≤ a ∧ a < hi ∧ w ≠ Word.plusZero ∧ Memory.wfFrom (a + 1) hi m = true := by
  simp [Memory.wfFrom, and_assoc]

theorem Memory.wfFrom_mono {m : Memory} {lo lo' hi : Nat} (h : m.wfFrom lo hi = true) (hl : lo' ≤ lo) :
    m.wfFrom lo' hi = true := by
  cases m with
  | nil => rfl
  | cons p m =>
    rw [Memory.wfFrom_cons] at h ⊢
    exact ⟨by omega, h.2⟩

/-- Below the first address of the form nothing is listed. -/
theorem Memory.read_below {m : Memory} {lo hi x : Nat} (h : m.wfFrom lo hi = true) (hx : x < lo) :
    m.read x = Word.plusZero := by
  induction m generalizing lo with
  | nil => rfl
  | cons p m ih =>
    obtain ⟨a, w⟩ := p
    obtain ⟨ha, -, -, hm⟩ := Memory.wfFrom_cons.1 h
    have : x ≠ a := by omega
    simp only [Memory.read, this, if_false]
    exact ih hm (by omega)

theorem Memory.write_wfFrom {m : Memory} {lo hi x : Nat} {w : Word} (h : m.wfFrom lo hi = true)
    (hl : lo ≤ x) (hx : x < hi) : (m.write x w).wfFrom lo hi = true := by
  induction m generalizing lo with
  | nil =>
    simp only [Memory.write]
    split
    · rfl
    · rw [Memory.wfFrom_cons]; exact ⟨hl, hx, ‹_›, rfl⟩
  | cons p m ih =>
    obtain ⟨a, v⟩ := p
    obtain ⟨ha, hh, hv, hm⟩ := Memory.wfFrom_cons.1 h
    simp only [Memory.write]
    split
    · split
      · exact h
      · rw [Memory.wfFrom_cons]
        exact ⟨hl, hx, ‹_›, Memory.wfFrom_cons.2 ⟨by omega, hh, hv, hm⟩⟩
    · split
      · subst x
        split
        · exact Memory.wfFrom_mono hm (by omega)
        · exact Memory.wfFrom_cons.2 ⟨ha, hh, ‹_›, hm⟩
      · exact Memory.wfFrom_cons.2 ⟨ha, hh, hv, ih hm (by omega)⟩

/-- A write keeps the canonical form. -/
theorem Memory.write_wf {m : Memory} {hi x : Nat} {w : Word} (h : m.wf hi = true) (hx : x < hi) :
    (m.write x w).wf hi = true := Memory.write_wfFrom h (Nat.zero_le x) hx

theorem Memory.read_write_from {m : Memory} {lo hi : Nat} (h : m.wfFrom lo hi = true) (x y : Nat) (w : Word) :
    (m.write x w).read y = if y = x then w else m.read y := by
  induction m generalizing lo with
  | nil =>
    simp only [Memory.write]
    by_cases hw : w = Word.plusZero
    · simp [hw, Memory.read]
    · simp [hw, Memory.read]
  | cons p m ih =>
    obtain ⟨a, v⟩ := p
    obtain ⟨ha, -, hv, hm⟩ := Memory.wfFrom_cons.1 h
    simp only [Memory.write]
    by_cases hxa : x < a
    · by_cases hw : w = Word.plusZero
      · simp only [hxa, hw, if_true]
        by_cases hy : y = x
        · subst hy
          rw [if_pos rfl]
          exact Memory.read_below (lo := a) (Memory.wfFrom_cons.2 ⟨le_rfl, (Memory.wfFrom_cons.1 h).2⟩) hxa
        · simp [hy]
      · simp [hxa, hw, Memory.read]
    · by_cases hx : x = a
      · subst hx
        by_cases hw : w = Word.plusZero
        · simp only [hxa, hw, if_true, if_false]
          by_cases hy : y = x
          · subst hy
            rw [if_pos rfl]
            exact Memory.read_below hm (by omega)
          · simp [hy, Memory.read]
        · simp only [hxa, hw, if_true, if_false, Memory.read]
          split <;> simp_all
      · simp only [hxa, hx, if_false, Memory.read, ih hm]
        by_cases hy : y = a
        · simp [hy, Ne.symm hx]
        · simp [hy]

/-- A read after a write gives the word written there and the old word everywhere else. -/
theorem Memory.read_write {m : Memory} {hi : Nat} (h : m.wf hi = true) (x y : Nat) (w : Word) :
    (m.write x w).read y = if y = x then w else m.read y := Memory.read_write_from h x y w

/-- Past the store's last address nothing is listed. -/
theorem Memory.read_above {m : Memory} {lo hi x : Nat} (h : m.wfFrom lo hi = true) (hx : hi ≤ x) :
    m.read x = Word.plusZero := by
  induction m generalizing lo with
  | nil => rfl
  | cons p m ih =>
    obtain ⟨a, w⟩ := p
    obtain ⟨-, ha, -, hm⟩ := Memory.wfFrom_cons.1 h
    have : x ≠ a := by omega
    simp only [Memory.read, this, if_false]
    exact ih hm

/-- Two stores in canonical form with equal contents are equal data. -/
theorem Memory.eq_of_read_eq_from {m n : Memory} {lo hi : Nat} (hm : m.wfFrom lo hi = true)
    (hn : n.wfFrom lo hi = true) (h : ∀ x, m.read x = n.read x) : m = n := by
  induction m generalizing n lo with
  | nil =>
    cases n with
    | nil => rfl
    | cons q n =>
      obtain ⟨b, v⟩ := q
      obtain ⟨-, -, hv, -⟩ := Memory.wfFrom_cons.1 hn
      have := h b
      simp only [Memory.read, if_true] at this
      exact absurd this.symm hv
  | cons p m ih =>
    obtain ⟨a, w⟩ := p
    obtain ⟨ha, ha', hw, hm'⟩ := Memory.wfFrom_cons.1 hm
    cases n with
    | nil =>
      have := h a
      simp only [Memory.read, if_true] at this
      exact absurd this hw
    | cons q n =>
      obtain ⟨b, v⟩ := q
      obtain ⟨hb, hb', hv, hn'⟩ := Memory.wfFrom_cons.1 hn
      have hab : a = b := by
        rcases Nat.lt_trichotomy a b with hlt | heq | hlt
        · have := h a
          have h0 : Memory.read ((b, v) :: n) a = Word.plusZero :=
            Memory.read_below (lo := b) (Memory.wfFrom_cons.2 ⟨le_rfl, hb', hv, hn'⟩) hlt
          simp only [Memory.read, if_true] at this
          exact absurd (this.trans h0) hw
        · exact heq
        · have := h b
          have h0 : Memory.read ((a, w) :: m) b = Word.plusZero :=
            Memory.read_below (lo := a) (Memory.wfFrom_cons.2 ⟨le_rfl, ha', hw, hm'⟩) hlt
          simp only [Memory.read, if_true] at this
          exact absurd (this.symm.trans h0) hv
      subst hab
      have hwv : w = v := by simpa [Memory.read] using h a
      subst hwv
      have : m = n := ih hm' hn' fun x => by
        by_cases hx : x = a
        · rw [hx, Memory.read_below hm' (by omega), Memory.read_below hn' (by omega)]
        · simpa [Memory.read, hx] using h x
      rw [this]

theorem Memory.eq_of_read_eq {m n : Memory} {hi : Nat} (hm : m.wf hi = true) (hn : n.wf hi = true)
    (h : ∀ x, m.read x = n.read x) : m = n := Memory.eq_of_read_eq_from hm hn h

/-- A block copy keeps the canonical form. -/
theorem Memory.copy_wf {src dst : Memory} {a d n hi : Nat} (h : dst.wf hi = true) (hd : d + n ≤ hi) :
    (Memory.copy src a dst d n).wf hi = true := by
  induction n generalizing a d dst with
  | zero => exact h
  | succ n ih => exact ih (Memory.write_wf h (by omega)) (by omega)

/-- A block copy: the block's words come from `src`, every other word is the old one. -/
theorem Memory.read_copy {src dst : Memory} {a d n hi : Nat} (h : dst.wf hi = true) (hd : d + n ≤ hi)
    (x : Nat) :
    (Memory.copy src a dst d n).read x = if d ≤ x ∧ x < d + n then src.read (a + (x - d)) else dst.read x := by
  induction n generalizing a d dst with
  | zero =>
    have : ¬ (d ≤ x ∧ x < d + 0) := by omega
    simp only [Memory.copy, this, if_false]
  | succ n ih =>
    simp only [Memory.copy]
    rw [ih (Memory.write_wf h (by omega)) (by omega), Memory.read_write h]
    by_cases hx : x = d
    · subst hx
      have h1 : ¬ (x + 1 ≤ x ∧ x < x + 1 + n) := by omega
      have h2 : x ≤ x ∧ x < x + (n + 1) := by omega
      simp only [h1, h2, if_true, if_false]
      simp
    · by_cases hin : d + 1 ≤ x ∧ x < d + 1 + n
      · have h2 : d ≤ x ∧ x < d + (n + 1) := by omega
        have h3 : a + 1 + (x - (d + 1)) = a + (x - d) := by omega
        simp only [hin, h2, h3]
        simp
      · have h2 : ¬ (d ≤ x ∧ x < d + (n + 1)) := by omega
        simp only [hin, h2, hx, if_false]

/-- MOVE's copy keeps the canonical form. -/
theorem Memory.move_wf {m : Memory} {a d n hi : Nat} (h : m.wf hi = true) (hd : d + n ≤ hi) :
    (m.move a d n).wf hi = true := by
  induction n generalizing a d m with
  | zero => exact h
  | succ n ih => exact ih (Memory.write_wf h (by omega)) (by omega)

/-- MOVE's copy leaves every word outside the destination run alone. -/
theorem Memory.read_move_outside {m : Memory} {a d n hi x : Nat} (h : m.wf hi = true) (hd : d + n ≤ hi)
    (hx : x < d ∨ d + n ≤ x) : (m.move a d n).read x = m.read x := by
  induction n generalizing a d m with
  | zero => rfl
  | succ n ih =>
    have : x ≠ d := by omega
    simp only [Memory.move]
    rw [ih (Memory.write_wf h (by omega)) (by omega) (by omega), Memory.read_write h, if_neg this]

/-- MOVE's copy, word by word: word j of the destination run is the source's word j as the words before it
left it (R442). -/
theorem Memory.read_move {m : Memory} {a d n hi j : Nat} (h : m.wf hi = true) (hd : d + n ≤ hi) (hj : j < n) :
    (m.move a d n).read (d + j) = (m.move a d j).read (a + j) := by
  induction n generalizing a d m j with
  | zero => omega
  | succ n ih =>
    have hw : (m.write d (m.read a)).wf hi = true := Memory.write_wf h (by omega)
    cases j with
    | zero =>
      simp only [Memory.move, Nat.add_zero]
      rw [Memory.read_move_outside hw (by omega) (by omega), Memory.read_write h, if_pos rfl]
    | succ j =>
      have := ih (a := a + 1) (d := d + 1) hw (by omega) (show j < n by omega)
      simp only [Memory.move]
      rw [show d + (j + 1) = d + 1 + j by omega, show a + (j + 1) = a + 1 + j by omega]
      exact this

end Sys2Proof
end

