-- ==== Sys2Proof/Laws/Facade.lean ====
section
/-! SUPPORT. What a host operation keeps: the launch premises of R512. -/

namespace Sys2Proof.Machine

theorem address?_lt {a : Int} {x : Nat} (h : address? a = some x) : x < memSize := by
  unfold address? at h
  split at h
  · next hm => cases h; simp only [InMemory, memSize] at *; omega
  · cases h

theorem bufferIndex?_lt {s : State} {u : Unit21} {i : Int} {x : Nat} (h : bufferIndex? s u i = some x) :
    x < (s.unit u).cap := by
  unfold bufferIndex? at h
  split at h
  · cases h; omega
  · cases h

/-- An image's words keep the form of memory. -/
theorem loadWords_wf {img : List (Int × RawWord)} {m n : Memory} (hm : m.wf memSize = true)
    (h : loadWords img m = some n) : n.wf memSize = true := by
  induction img generalizing m with
  | nil => cases h; exact hm
  | cons p rest ih =>
    obtain ⟨a, w⟩ := p
    simp only [loadWords, Option.bind_eq_bind, Option.bind_eq_some_iff] at h
    obtain ⟨x, hx, v, -, h⟩ := h
    exact ih (Memory.write_wf hm (address?_lt hx)) h

/-- A register whose bytes are checked keeps its sign. -/
theorem RawRegister2.check_sign {r : RawRegister2} {v : Register2} (h : r.check = some v) : v.sign = r.sign := by
  simp only [RawRegister2.check, Option.bind_eq_bind, Option.bind_eq_some_iff] at h
  obtain ⟨c1, -, c2, -, h⟩ := h
  cases h
  rfl

/-- What a host operation that is accepted can do: memory and the units keep their form, rJ its sign but under a
seed of rJ, and ES, FR and the configuration are as they were. -/
theorem hostOp_keeps {s t : State} {o : HostOp} (h : s.hostOp o = some t) :
    (s.mem.wf memSize = true → t.mem.wf memSize = true) ∧
      (o.keepsJump → s.rJ.sign = .plus → t.rJ.sign = .plus) ∧
      t.es = s.es ∧ t.fr = s.fr ∧ t.cfg = s.cfg ∧
      ∀ u : Unit21, deviceOk (s.unit u) s.dev[u] → deviceOk (s.unit u) t.dev[u] := by
  cases o with
  | loadImage img start =>
    simp only [State.hostOp, State.loadImage, Option.bind_eq_bind, Option.bind_eq_some_iff] at h
    obtain ⟨m, hm, h⟩ := h
    cases h
    exact ⟨fun k => loadWords_wf k hm, fun _ k => k, rfl, rfl, rfl, fun _ k => k⟩
  | seedA w | seedX w =>
    simp only [State.hostOp, State.seedA, State.seedX, Option.bind_eq_bind, Option.bind_eq_some_iff] at h
    obtain ⟨v, -, h⟩ := h
    cases h
    exact ⟨id, fun _ k => k, rfl, rfl, rfl, fun _ k => k⟩
  | seedIndex k r =>
    simp only [State.hostOp, State.seedIndex, Option.bind_eq_bind, Option.bind_eq_some_iff] at h
    obtain ⟨v, -, h⟩ := h
    cases h
    cases k <;> exact ⟨id, fun _ k => k, rfl, rfl, rfl, fun _ k => k⟩
  | seedJ r =>
    simp only [State.hostOp, State.seedJ, Option.bind_eq_bind, Option.bind_eq_some_iff] at h
    obtain ⟨v, hv, h⟩ := h
    cases h
    exact ⟨id, fun k _ => (RawRegister2.check_sign hv).trans k, rfl, rfl, rfl, fun _ k => k⟩
  | seedOv b | seedCi c =>
    cases h
    exact ⟨id, fun _ k => k, rfl, rfl, rfl, fun _ k => k⟩
  | seedPc pc =>
    simp only [State.hostOp, State.seedPc] at h
    split at h
    · cases h; exact ⟨id, fun _ k => k, rfl, rfl, rfl, fun _ k => k⟩
    · cases h
  | seedMemory a w =>
    simp only [State.hostOp, State.seedMemory, Option.bind_eq_bind, Option.bind_eq_some_iff] at h
    obtain ⟨x, hx, v, -, h⟩ := h
    cases h
    exact ⟨fun k => Memory.write_wf k (address?_lt hx), fun _ k => k, rfl, rfl, rfl, fun _ k => k⟩
  | seedDevice n i w =>
    simp only [State.hostOp, State.seedDevice, Option.bind_eq_bind, Option.bind_eq_some_iff] at h
    obtain ⟨v, -, x, hx, y, -, h⟩ := h
    cases h
    refine ⟨id, fun _ k => k, rfl, rfl, rfl, fun u k => ?_⟩
    by_cases hu : u = v
    · subst hu
      rw [State.dev_setDev_same]
      exact ⟨Memory.write_wf k.1 (bufferIndex?_lt hx), k.2⟩
    · rw [State.dev_setDev_ne s _ hu]; exact k

/-- A host operation keeps the launch premises, but for a seed of rJ with sign − (R512). -/
theorem State.Launch.hostOp {s t : State} {o : HostOp} (hs : s.Launch) (ho : o.keepsJump)
    (h : s.hostOp o = some t) : t.Launch := by
  obtain ⟨hm, hj, he, -, hc, hd⟩ := hostOp_keeps h
  exact ⟨hm hs.memory, hj ho hs.jump, he.trans hs.running, fun u => by
    rw [State.unit_eq_of_cfg hc]; exact hd u (hs.devices u)⟩

/-- What a launch state lacks of the invariant: an allowed configuration, PC in 0..4000, and an empty FR. -/
theorem State.Launch.inv {s : State} (h : s.Launch) (hc : configOk s.cfg = true) (hp : 0 ≤ s.pc ∧ s.pc ≤ 4000)
    (hf : s.fr = none) : s.Inv :=
  ⟨hc, h.memory, h.jump, hp, by simp [recordOk, hf, h.running], h.devices⟩

end Sys2Proof.Machine
end

