-- ==== Sys2Proof/Laws/Meanings.lean ====
section
/-! SUPPORT. What each shared operation of the families answers when its checks pass, and when each check fails:
the forward direction of the inversions of Laws/Exec.lean. A proof about an instruction turns `exec` into the
operation (`dsimp only [exec, exec…]`, or unification alone) and rewrites with one of these. -/

namespace Sys2Proof

/-- A quotient by a magnitude greater than the high half fits the low half (R185). -/
theorem quotient_lt {x y v b : Nat} (hy : y < b) (hx : x < v) : (x * b + y) / v < b := by
  refine Nat.div_lt_of_lt_mul ?_
  calc x * b + y < x * b + b := by omega
    _ = (x + 1) * b := by ring
    _ ≤ v * b := Nat.mul_le_mul_right _ hx

/-- A product of two magnitudes has its high half below W (R184). -/
theorem product_div_lt (v w : Word) : v.mag * w.mag / W < W :=
  Nat.div_lt_of_lt_mul (Nat.mul_lt_mul'' v.mag_lt w.mag_lt)

/-- The field (0:0) has no byte (R35). -/
theorem mag_field_zero (w : Word) (f : Field) (h : f.r.val = 0) : (field w f).mag = 0 := by
  have h1 : ¬ (5 - f.r.val + f.first ≤ 1) := by simp only [Field.first]; omega
  have h2 : ¬ (5 - f.r.val + f.first ≤ 2) := by simp only [Field.first]; omega
  have h3 : ¬ (5 - f.r.val + f.first ≤ 3) := by simp only [Field.first]; omega
  have h4 : ¬ (5 - f.r.val + f.first ≤ 4) := by simp only [Field.first]; omega
  have h5 : ¬ (5 - f.r.val + f.first ≤ 5) := by simp only [Field.first]; omega
  unfold field
  rw [Word.mag_ofBytes, if_neg h1, if_neg h2, if_neg h3, if_neg h4, if_neg h5]; rfl

end Sys2Proof

namespace Sys2Proof.Machine

variable {s : State} {op : OpCode} {a : Addr} {c : Byte} {f : Field} {m : Int}

-- One memory operand.

theorem performField_le {rule : Int → Rule} (hf : f.valid = true) (hl : (s.effAddr a).natAbs ≤ 4095) :
    performField c f a s rule = finish ⟨c, f.byte⟩ s (rule (s.effAddr a)) := by
  rw [performField_valid hf, perform_of_le hl]

theorem performField_in {rule : Int → Rule} (hf : f.valid = true) (hm : InMemory (s.effAddr a)) :
    performField c f a s rule = finish ⟨c, f.byte⟩ s (rule (s.effAddr a)) :=
  performField_le hf (natAbs_le_of_inMemory hm)

theorem load_in {put : Word → Rule} (hf : f.valid = true) (hm : InMemory (s.effAddr a)) :
    load c f a s put = finish ⟨c, f.byte⟩ s (put (field (s.mem.read (s.effAddr a).toNat) f)) := by
  rw [load, performField_in hf hm, withWord_in hm]

theorem load_out {put : Word → Rule} (hf : f.valid = true) (hl : (s.effAddr a).natAbs ≤ 4095)
    (hm : ¬ InMemory (s.effAddr a)) :
    load c f a s put = .next (s.takeFault (some ⟨c, f.byte⟩) ⟨.memBounds, .value (s.effAddr a)⟩) := by
  rw [load, performField_le hf hl, withWord_out hm]; rfl

theorem loadNegated_in {put : Word → Rule} (hf : f.valid = true) (hm : InMemory (s.effAddr a)) :
    loadNegated c f a s put =
      finish ⟨c, f.byte⟩ s (put (negated (field (s.mem.read (s.effAddr a).toNat) f))) := by
  rw [loadNegated, performField_in hf hm, withWord_in hm]

theorem loadNegated_out {put : Word → Rule} (hf : f.valid = true) (hl : (s.effAddr a).natAbs ≤ 4095)
    (hm : ¬ InMemory (s.effAddr a)) :
    loadNegated c f a s put = .next (s.takeFault (some ⟨c, f.byte⟩) ⟨.memBounds, .value (s.effAddr a)⟩) := by
  rw [loadNegated, performField_le hf hl, withWord_out hm]; rfl

theorem store_in {w : Word} (hf : f.valid = true) (hm : InMemory (s.effAddr a)) :
    store c f a s w =
      finish ⟨c, f.byte⟩ s
        (done (s.store (s.effAddr a) (setfield (s.mem.read (s.effAddr a).toNat) f w))) := by
  rw [store, performField_in hf hm, withWord_in hm]

theorem store_out {w : Word} (hf : f.valid = true) (hl : (s.effAddr a).natAbs ≤ 4095)
    (hm : ¬ InMemory (s.effAddr a)) :
    store c f a s w = .next (s.takeFault (some ⟨c, f.byte⟩) ⟨.memBounds, .value (s.effAddr a)⟩) := by
  rw [store, performField_le hf hl, withWord_out hm]; rfl

theorem compare_in {r : Word} (hf : f.valid = true) (hm : InMemory (s.effAddr a)) :
    compare c f a s r =
      finish ⟨c, f.byte⟩ s
        (done { s with
          ci := compareValues (field r f).val (field (s.mem.read (s.effAddr a).toNat) f).val }) := by
  rw [compare, performField_in hf hm, withWord_in hm]

theorem compare_out {r : Word} (hf : f.valid = true) (hl : (s.effAddr a).natAbs ≤ 4095)
    (hm : ¬ InMemory (s.effAddr a)) :
    compare c f a s r = .next (s.takeFault (some ⟨c, f.byte⟩) ⟨.memBounds, .value (s.effAddr a)⟩) := by
  rw [compare, performField_le hf hl, withWord_out hm]; rfl

theorem withOperand_in {k : Int → Word → Rule} (hf : f.valid = true) (hm : InMemory (s.effAddr a)) :
    withOperand c f a s k =
      finish ⟨c, f.byte⟩ s (k (s.effAddr a) (field (s.mem.read (s.effAddr a).toNat) f)) := by
  rw [withOperand, performField_in hf hm, withWord_in hm]

theorem withOperand_out {k : Int → Word → Rule} (hf : f.valid = true) (hl : (s.effAddr a).natAbs ≤ 4095)
    (hm : ¬ InMemory (s.effAddr a)) :
    withOperand c f a s k = .next (s.takeFault (some ⟨c, f.byte⟩) ⟨.memBounds, .value (s.effAddr a)⟩) := by
  rw [withOperand, performField_le hf hl, withWord_out hm]; rfl

-- Index registers.

/-- A Word of magnitude at most 4095 goes into an index register (R38). -/
theorem putIndex_fit {k : IxReg} {v : Word} (h : v.val.natAbs ≤ 4095) :
    ∃ r : Register2, r.asWord = v ∧ putIndex k s v = done (s.setIndex k r) := by
  rw [Word.natAbs_val, ← toReg2_isSome_iff, Option.isSome_iff_exists] at h
  obtain ⟨r, hr⟩ := h
  exact ⟨r, toReg2_eq_some_iff.1 hr, by rw [putIndex, hr]⟩

theorem putIndex_big {k : IxReg} {v : Word} (h : 4095 < v.val.natAbs) :
    putIndex k s v = raise .indexOverflow v.val := by
  rw [Word.natAbs_val, ← toReg2_eq_none_iff] at h
  rw [putIndex, h]

theorem putIndexValue_fit {k : IxReg} {v : Int} {g : Sign} (h : v.natAbs ≤ 4095) :
    putIndexValue k s v g = done (s.setIndex k (reg2 v g)) := if_pos h

theorem putIndexValue_big {k : IxReg} {v : Int} {g : Sign} (h : 4095 < v.natAbs) :
    putIndexValue k s v g = raise .indexOverflow v := if_neg (by omega)

/-- The sign and the magnitude of an entered address (R333). -/
theorem Register2.val_ofMag_sgnof {v : Int} (h : v.natAbs ≤ 4095) (g : Sign) :
    (Register2.ofMag (sgnof v g) v.natAbs).val = v := val_reg2 h g

theorem Sign.apply_neg (g : Sign) (n : Nat) : g.neg.apply n = -g.apply n := by
  cases g <;> simp [Sign.neg, Sign.apply]

-- The add law.

/-- The add law's operation is the add law's relation, for a sum that one W covers (R181). -/
theorem addWord_addLaw {r : Word} {ov : Bool} {d : Int} (hd : (r.val + d).natAbs < 2 * W) :
    AddLaw r ov d (addWord r d) (addOverflow r d ov) := by
  unfold AddLaw
  split
  · rename_i h
    rw [addWord_small h, addOverflow_small h]
    refine ⟨val_toWord (Nat.lt_of_le_pred (by decide) h) _, fun h0 => ?_, rfl⟩
    rw [h0]; rfl
  · rename_i h
    have hW : W ≤ (r.val + d).natAbs := Nat.le_of_pred_lt (not_le.1 h)
    rw [addWord_large hW, addOverflow_large hW]
    refine ⟨Word.mag_ofMag ?_, fun h0 => sgnof_pos h0 _, fun h0 => sgnof_neg h0 _, rfl⟩
    omega

-- Shifts.

theorem withCount_nonneg {k : Nat → Rule} (h : 0 ≤ m) : withCount m k = k m.toNat := if_neg (not_lt.2 h)

theorem withCount_neg {k : Nat → Rule} (h : m < 0) : withCount m k = raise .negativeShift m := if_pos h

theorem shiftA_nonneg {t : Nat → Nat → Byte} (h0 : 0 ≤ s.effAddr a) (h1 : s.effAddr a ≤ 4095) :
    shiftA op a s t =
      finish op s (done { s with rA := Word.ofBytes s.rA.sign (t (s.effAddr a).toNat) }) := by
  rw [shiftA, perform_of_le (by omega), withCount_nonneg h0]

theorem shiftA_neg {t : Nat → Nat → Byte} (h0 : s.effAddr a < 0) (h1 : -4095 ≤ s.effAddr a) :
    shiftA op a s t = .next (s.takeFault (some op) ⟨.negativeShift, .value (s.effAddr a)⟩) := by
  rw [shiftA, perform_of_le (by omega), withCount_neg h0, finish_raise]

theorem shiftPair_nonneg {t : Nat → Nat → Byte} (h0 : 0 ≤ s.effAddr a) (h1 : s.effAddr a ≤ 4095) :
    shiftPair op a s t = finish op s (done (s.setPair (t (s.effAddr a).toNat))) := by
  rw [shiftPair, perform_of_le (by omega), withCount_nonneg h0]

theorem shiftPair_neg {t : Nat → Nat → Byte} (h0 : s.effAddr a < 0) (h1 : -4095 ≤ s.effAddr a) :
    shiftPair op a s t = .next (s.takeFault (some op) ⟨.negativeShift, .value (s.effAddr a)⟩) := by
  rw [shiftPair, perform_of_le (by omega), withCount_neg h0, finish_raise]

/-- Byte i of a pair given byte by byte (R41). -/
theorem pairByte_ofBytes (g h : Sign) (t : Nat → Byte) {i : Nat} (h1 : 1 ≤ i) (h2 : i ≤ 10) :
    pairByte (Word.ofBytes g t) (Word.ofBytes h fun i => t (i + 5)) i = t i := by
  unfold pairByte
  split
  · exact Word.byte_ofBytes _ _ h1 ‹_›
  · rw [Word.byte_ofBytes _ _ (by omega) (by omega)]; congr 1; omega

/-- Two pairs with the same signs and the same ten bytes are equal. -/
theorem pair_ext {v x w y : Word} (h1 : v.sign = w.sign) (h2 : x.sign = y.sign)
    (h : ∀ i, i < 10 → pairByte v x (i + 1) = pairByte w y (i + 1)) : v = w ∧ x = y := by
  constructor
  · refine Word.ext_byte h1 fun k hk h5 => ?_
    have := h (k - 1) (by omega)
    rw [show k - 1 + 1 = k by omega, pairByte_low _ _ h5, pairByte_low _ _ h5] at this
    exact this
  · refine Word.ext_byte h2 fun k hk h5 => ?_
    have := h (k + 4) (by omega)
    rw [show k + 4 + 1 = k + 5 by omega, pairByte_high _ _ hk, pairByte_high _ _ hk] at this
    exact this

-- Jumps.

theorem returnAddress_eq {pc : Int} (h : 0 ≤ pc) : returnAddress pc = reg2 (pc + 1) .plus := by
  rw [returnAddress, reg2, sgnof_pos (by omega), show (pc + 1).toNat = (pc + 1).natAbs by omega]

theorem jump_taken {b : Bool} (hb : b = true) (hm : InMemory (s.effAddr a)) :
    jump op a s b = finish op s (.ok ({ s with rJ := returnAddress s.pc }, s.effAddr a)) := by
  rw [jump, perform_of_le (natAbs_le_of_inMemory hm), hb, jumpIf_true, take_in hm]

theorem jump_not_taken {b : Bool} (hb : b = false) (hl : (s.effAddr a).natAbs ≤ 4095) :
    jump op a s b = finish op s (done s) := by
  rw [jump, perform_of_le hl, hb, jumpIf_false]

theorem jump_out {b : Bool} (hb : b = true) (hm : ¬ InMemory (s.effAddr a))
    (hl : (s.effAddr a).natAbs ≤ 4095) :
    jump op a s b = .next (s.takeFault (some op) ⟨.memBounds, .value (s.effAddr a)⟩) := by
  rw [jump, perform_of_le hl, hb, jumpIf_true, take_out hm, finish_raise]

-- Control operations.

theorem iocDefined_iff (k : UnitKind) (m : Int) : iocDefined k m = true ↔ ControlDefined k m := by
  cases k <;> simp [iocDefined, ControlDefined]

theorem iocForward_iff (k : UnitKind) (m : Int) : iocForward k m = true ↔ ControlForward k m := by
  cases k <;> simp [iocForward, ControlForward]

/-- The tape's skips, as numbers (R388). -/
theorem tapeCursor_eq {cursor block c : Nat} (h0 : m = 0 → c = 0) (h1 : 0 < m → (c : Int) = cursor + m * block)
    (h2 : m < 0 → (c : Int) = max 0 (cursor + m * block)) : tapeCursor cursor block m = c := by
  unfold tapeCursor
  split
  · exact (h0 ‹_›).symm
  · split
    · have := h1 ‹_›
      zify; rw [this, Int.toNat_of_nonneg (by omega)]
    · have := h2 (by omega)
      rw [show m = -(m.natAbs : Int) by omega, neg_mul] at this
      have e : ((m.natAbs : Int) * block) = (m.natAbs * block : Nat) := by push_cast; rfl
      omega

theorem iocCursor_eq {n : Unit21} {c : Nat} (h : ControlCursor s n m c) : iocCursor s n m = c := by
  simp only [ControlCursor] at h
  simp only [iocCursor]
  cases hk : (s.unit n).kind <;> simp only [hk] at h ⊢ <;> first
    | exact tapeCursor_eq h.1 h.2.1 h.2.2
    | exact h.symm

-- NUM and CHAR.

/-- The ten digits of a number below 10^10, or the k digits of one below 10^k, sum to it. -/
theorem decimal_digits {n k : Nat} (h : n < 10 ^ k) :
    ∑ i ∈ Finset.range k, (n / 10 ^ (k - 1 - i) % 10) * 10 ^ (k - 1 - i) = n := by
  rw [Finset.sum_range_reflect (fun i => n / 10 ^ i % 10 * 10 ^ i) k]
  have digits : ∀ j, ∑ i ∈ Finset.range j, n / 10 ^ i % 10 * 10 ^ i = n % 10 ^ j := by
    intro j
    induction j with
    | zero => simp [Nat.mod_one]
    | succ j ih => rw [Finset.sum_range_succ, ih, Nat.mod_pow_succ, Nat.mul_comm]
  rw [digits, Nat.mod_eq_of_lt h]

/-- NUM's n is the sum of R440. -/
theorem decimalValue_eq_sum (t : Nat → Byte) :
    decimalValue t = ∑ i ∈ Finset.range 10, (t (i + 1)).val % 10 * 10 ^ (9 - i) := by
  simp only [decimalValue, List.foldl, Finset.sum_range_succ, Finset.range_zero, Finset.sum_empty]
  norm_num
  ring

/-- CHAR's byte i (R441). -/
theorem digitCode_val (n i : Nat) : (digitCode n i).val = 30 + n / 10 ^ (10 - i) % 10 := by
  unfold digitCode
  rw [Byte.val_ofNat, Nat.mod_eq_of_lt]
  have := Nat.mod_lt (n / 10 ^ (10 - i)) (show 10 > 0 by omega)
  omega

theorem execNum_le (hl : (s.effAddr a).natAbs ≤ 4095) :
    execNum a s = .next ((numWrites s (decimalValue (pairByte s.rA s.rX))).commit ⟨5, 0⟩ (s.pc + 1)) := by
  rw [execNum, perform_of_le hl, finish_done]; rfl

theorem execChar_le (hl : (s.effAddr a).natAbs ≤ 4095) :
    execChar a s = .next ((s.setPair (digitCode s.rA.mag)).commit ⟨5, 1⟩ (s.pc + 1)) := by
  rw [execChar, perform_of_le hl, finish_done, State.setPair_pc]

end Sys2Proof.Machine
end

