-- ==== Sys2Proof/Laws/Step.lean ====
section
/-! SUPPORT. What a step can do, said once: the fetch, and the three ways a step ends. -/

namespace Sys2Proof.Machine

/-- The fetch finds an instruction exactly when PC is in memory and the word there decodes (R120, R121). -/
theorem fetch_ok_iff {s : State} {i : Instr} :
    s.fetch = .ok i ↔ InMemory s.pc ∧ decode s.cfg.extBinaryOps (s.mem.read s.pc.toNat) = .ok i := by
  unfold State.fetch
  by_cases hm : InMemory s.pc
  · rw [if_pos hm]
    cases hd : decode s.cfg.extBinaryOps (s.mem.read s.pc.toNat) with
    | ok j => simp only [Except.ok.injEq]; exact (and_iff_right hm).symm
    | error e => cases e <;> simp
  · rw [if_neg hm]; simp [hm]

theorem fetch_outside {s : State} (h : ¬ InMemory s.pc) : s.fetch = .error (none, ⟨.memBounds, .value s.pc⟩) :=
  if_neg h

theorem fetch_opcode {s : State} {op : OpCode} (hm : InMemory s.pc)
    (h : decode s.cfg.extBinaryOps (s.mem.read s.pc.toNat) = .error (.opcode op)) :
    s.fetch = .error (some op, ⟨.decodeFailure, .opcode op⟩) := by
  unfold State.fetch; rw [if_pos hm, h]

theorem fetch_index {s : State} {op : OpCode} {b : Byte} (hm : InMemory s.pc)
    (h : decode s.cfg.extBinaryOps (s.mem.read s.pc.toNat) = .error (.index op b)) :
    s.fetch = .error (some op, ⟨.decodeFailure, .value b.val⟩) := by
  unfold State.fetch; rw [if_pos hm, h]

theorem step_ok {s : State} {i : Instr} (hr : s.es = .running) (h : s.fetch = .ok i) : step s = exec i s := by
  unfold step; rw [if_pos hr, h]

theorem step_error {s : State} {e : Option OpCode × Raise} (hr : s.es = .running) (h : s.fetch = .error e) :
    step s = .next (s.takeFault e.1 e.2) := by
  unfold step; rw [if_pos hr, h]

theorem step_stopped {s : State} (h : s.es ≠ .running) : step s = .next s := if_neg h

/-- The three ways a step ends: a stopped engine, an instruction, or a fault of the fetch or the decoding. -/
theorem step_cases {s t : State} (h : step s = .next t) :
    (s.es ≠ .running ∧ t = s) ∨ (s.es = .running ∧ ∃ i, s.fetch = .ok i ∧ exec i s = .next t) ∨
      (s.es = .running ∧ ∃ e, s.fetch = .error e ∧ t = s.takeFault e.1 e.2) := by
  by_cases hr : s.es = .running
  · cases hf : s.fetch with
    | ok i => exact .inr (.inl ⟨hr, i, rfl, by rw [← step_ok hr hf]; exact h⟩)
    | error e =>
      rw [step_error hr hf] at h
      exact .inr (.inr ⟨hr, e, rfl, by cases h; rfl⟩)
  · rw [step_stopped hr] at h
    exact .inl ⟨hr, by cases h; rfl⟩

/-- What a word that decodes gives: an instruction with the word's C and F that the configuration has. -/
theorem decode_ok {ext : Bool} {w : Word} {i : Instr} (h : decode ext w = .ok i) :
    i.code = ⟨w.b5, w.b4⟩ ∧ i.wf = true ∧ (i.isBinaryExt = true → ext = true) := by
  unfold decode at h
  split at h
  · cases h
  · rename_i k hk
    split at h
    · cases h
    · cases h
      obtain ⟨h0, h1, -, h3, h4⟩ := decodeKind_ok hk ⟨w.sign, w.addressMag, ‹_›⟩
      refine ⟨?_, h3, h4⟩
      rw [← Fin.ext h0, ← Fin.ext h1]

end Sys2Proof.Machine
end

