-- ==== Sys2Proof/Tests/Slice0.lean ====
section
/-! SUPPORT. Tests of the model: the well-formedness smoke, a decoding of a word written out from the encoding for
every constructor, single steps against the test vectors of spec/95_test_vectors.md, and the witnesses that the
hypotheses of the statements can be met. Every expected result is the spec's. -/

namespace Sys2Proof.Tests

-- One theorem is checked after another: many at once ask for more threads than the limits allow.
set_option Elab.async false

open Sys2Proof.Machine

-- Well-formedness: the one check an instruction term has is its field specification.

/-- L > R is no field specification (R40). -/
theorem test_wf_refuses_reversed_field : (Instr.lda ⟨.plus, 2000, none⟩ ⟨5, 4⟩).wf = false := by decide

/-- R > 5 is no field specification (R40); F = 6 is FADD's and no field. -/
theorem test_wf_refuses_field_past_five :
    (Instr.add ⟨.plus, 2000, none⟩ ⟨0, 6⟩).wf = false ∧ (Instr.cmpx ⟨.plus, 2000, none⟩ ⟨7, 7⟩).wf = false := by
  decide

theorem test_wf_accepts_fields :
    (Instr.lda ⟨.plus, 2000, none⟩ ⟨0, 0⟩).wf = true ∧ (Instr.stj ⟨.plus, 2000, none⟩ ⟨0, 2⟩).wf = true ∧
      (Instr.cmpa ⟨.plus, 2000, none⟩ ⟨5, 5⟩).wf = true := by
  decide

-- Decoding: words ± A A I F C written out from the encodings of 30_encoding.md R100 and R119.

/-- Every word of the table decodes to the instruction beside it. -/
def decodeTo (l : List (Word × Instr)) : Bool :=
  l.all fun p =>
    match decode true p.1 with
    | .ok i => decide (i = p.2)
    | .error _ => false

theorem test_decode_control_special :
    decodeTo
        [(⟨.plus, 0, 7, 1, 9, 0⟩, .nop ⟨.plus, 7, some .i1⟩ 9),
          (⟨.plus, 0, 7, 3, 0, 5⟩, .num ⟨.plus, 7, some .i3⟩),
          (⟨.plus, 63, 63, 4, 1, 5⟩, .char ⟨.plus, 4095, some .i4⟩),
          (⟨.minus, 31, 16, 5, 2, 5⟩, .hlt ⟨.minus, 2000, some .i5⟩),
          (⟨.plus, 0, 7, 6, 6, 5⟩, .flot ⟨.plus, 7, some .i6⟩),
          (⟨.plus, 63, 63, 0, 7, 5⟩, .fix ⟨.plus, 4095, none⟩),
          (⟨.plus, 63, 63, 2, 3, 7⟩, .move ⟨.plus, 4095, some .i2⟩ 3)] = true := by
  decide +kernel

theorem test_decode_arithmetic :
    decodeTo
        [(⟨.plus, 63, 63, 2, 5, 1⟩, .add ⟨.plus, 4095, some .i2⟩ ⟨0, 5⟩),
          (⟨.minus, 31, 16, 3, 6, 1⟩, .fadd ⟨.minus, 2000, some .i3⟩),
          (⟨.plus, 0, 7, 4, 5, 2⟩, .sub ⟨.plus, 7, some .i4⟩ ⟨0, 5⟩),
          (⟨.plus, 63, 63, 5, 6, 2⟩, .fsub ⟨.plus, 4095, some .i5⟩),
          (⟨.minus, 31, 16, 6, 5, 3⟩, .mul ⟨.minus, 2000, some .i6⟩ ⟨0, 5⟩),
          (⟨.plus, 0, 7, 0, 6, 3⟩, .fmul ⟨.plus, 7, none⟩),
          (⟨.plus, 63, 63, 1, 5, 4⟩, .div ⟨.plus, 4095, some .i1⟩ ⟨0, 5⟩),
          (⟨.minus, 31, 16, 2, 6, 4⟩, .fdiv ⟨.minus, 2000, some .i2⟩)] = true := by
  decide +kernel

theorem test_decode_shift :
    decodeTo
        [(⟨.minus, 31, 16, 1, 0, 6⟩, .sla ⟨.minus, 2000, some .i1⟩),
          (⟨.plus, 0, 7, 2, 1, 6⟩, .sra ⟨.plus, 7, some .i2⟩),
          (⟨.plus, 63, 63, 3, 2, 6⟩, .slax ⟨.plus, 4095, some .i3⟩),
          (⟨.minus, 31, 16, 4, 3, 6⟩, .srax ⟨.minus, 2000, some .i4⟩),
          (⟨.plus, 0, 7, 5, 4, 6⟩, .slc ⟨.plus, 7, some .i5⟩),
          (⟨.plus, 63, 63, 6, 5, 6⟩, .src ⟨.plus, 4095, some .i6⟩),
          (⟨.minus, 31, 16, 0, 6, 6⟩, .slb ⟨.minus, 2000, none⟩),
          (⟨.plus, 0, 7, 1, 7, 6⟩, .srb ⟨.plus, 7, some .i1⟩)] = true := by
  decide +kernel

theorem test_decode_load :
    decodeTo
        [(⟨.minus, 31, 16, 3, 5, 8⟩, .lda ⟨.minus, 2000, some .i3⟩ ⟨0, 5⟩),
          (⟨.plus, 0, 7, 4, 5, 9⟩, .ld1 ⟨.plus, 7, some .i4⟩ ⟨0, 5⟩),
          (⟨.plus, 63, 63, 5, 5, 10⟩, .ld2 ⟨.plus, 4095, some .i5⟩ ⟨0, 5⟩),
          (⟨.minus, 31, 16, 6, 5, 11⟩, .ld3 ⟨.minus, 2000, some .i6⟩ ⟨0, 5⟩),
          (⟨.plus, 0, 7, 0, 5, 12⟩, .ld4 ⟨.plus, 7, none⟩ ⟨0, 5⟩),
          (⟨.plus, 63, 63, 1, 5, 13⟩, .ld5 ⟨.plus, 4095, some .i1⟩ ⟨0, 5⟩),
          (⟨.minus, 31, 16, 2, 5, 14⟩, .ld6 ⟨.minus, 2000, some .i2⟩ ⟨0, 5⟩),
          (⟨.plus, 0, 7, 3, 5, 15⟩, .ldx ⟨.plus, 7, some .i3⟩ ⟨0, 5⟩)] = true := by
  decide +kernel

theorem test_decode_load_negated :
    decodeTo
        [(⟨.plus, 63, 63, 4, 5, 16⟩, .ldan ⟨.plus, 4095, some .i4⟩ ⟨0, 5⟩),
          (⟨.minus, 31, 16, 5, 5, 17⟩, .ld1n ⟨.minus, 2000, some .i5⟩ ⟨0, 5⟩),
          (⟨.plus, 0, 7, 6, 5, 18⟩, .ld2n ⟨.plus, 7, some .i6⟩ ⟨0, 5⟩),
          (⟨.plus, 63, 63, 0, 5, 19⟩, .ld3n ⟨.plus, 4095, none⟩ ⟨0, 5⟩),
          (⟨.minus, 31, 16, 1, 5, 20⟩, .ld4n ⟨.minus, 2000, some .i1⟩ ⟨0, 5⟩),
          (⟨.plus, 0, 7, 2, 5, 21⟩, .ld5n ⟨.plus, 7, some .i2⟩ ⟨0, 5⟩),
          (⟨.plus, 63, 63, 3, 5, 22⟩, .ld6n ⟨.plus, 4095, some .i3⟩ ⟨0, 5⟩),
          (⟨.minus, 31, 16, 4, 5, 23⟩, .ldxn ⟨.minus, 2000, some .i4⟩ ⟨0, 5⟩)] = true := by
  decide +kernel

theorem test_decode_store :
    decodeTo
        [(⟨.plus, 0, 7, 5, 5, 24⟩, .sta ⟨.plus, 7, some .i5⟩ ⟨0, 5⟩),
          (⟨.plus, 63, 63, 6, 5, 25⟩, .st1 ⟨.plus, 4095, some .i6⟩ ⟨0, 5⟩),
          (⟨.minus, 31, 16, 0, 5, 26⟩, .st2 ⟨.minus, 2000, none⟩ ⟨0, 5⟩),
          (⟨.plus, 0, 7, 1, 5, 27⟩, .st3 ⟨.plus, 7, some .i1⟩ ⟨0, 5⟩),
          (⟨.plus, 63, 63, 2, 5, 28⟩, .st4 ⟨.plus, 4095, some .i2⟩ ⟨0, 5⟩),
          (⟨.minus, 31, 16, 3, 5, 29⟩, .st5 ⟨.minus, 2000, some .i3⟩ ⟨0, 5⟩),
          (⟨.plus, 0, 7, 4, 5, 30⟩, .st6 ⟨.plus, 7, some .i4⟩ ⟨0, 5⟩),
          (⟨.plus, 63, 63, 5, 5, 31⟩, .stx ⟨.plus, 4095, some .i5⟩ ⟨0, 5⟩),
          (⟨.minus, 31, 16, 6, 2, 32⟩, .stj ⟨.minus, 2000, some .i6⟩ ⟨0, 2⟩),
          (⟨.plus, 0, 7, 0, 5, 33⟩, .stz ⟨.plus, 7, none⟩ ⟨0, 5⟩)] = true := by
  decide +kernel

theorem test_decode_input_output :
    decodeTo
        [(⟨.plus, 63, 63, 1, 19, 34⟩, .jbus ⟨.plus, 4095, some .i1⟩ 19),
          (⟨.minus, 31, 16, 2, 18, 35⟩, .ioc ⟨.minus, 2000, some .i2⟩ 18),
          (⟨.plus, 0, 7, 3, 16, 36⟩, .ioIn ⟨.plus, 7, some .i3⟩ 16),
          (⟨.plus, 63, 63, 4, 17, 37⟩, .ioOut ⟨.plus, 4095, some .i4⟩ 17),
          (⟨.minus, 31, 16, 5, 20, 38⟩, .jred ⟨.minus, 2000, some .i5⟩ 20)] = true := by
  decide +kernel

theorem test_decode_jump :
    decodeTo
        [(⟨.plus, 0, 7, 6, 0, 39⟩, .jmp ⟨.plus, 7, some .i6⟩),
          (⟨.plus, 63, 63, 0, 1, 39⟩, .jsj ⟨.plus, 4095, none⟩),
          (⟨.minus, 31, 16, 1, 2, 39⟩, .jov ⟨.minus, 2000, some .i1⟩),
          (⟨.plus, 0, 7, 2, 3, 39⟩, .jnov ⟨.plus, 7, some .i2⟩),
          (⟨.plus, 63, 63, 3, 4, 39⟩, .jl ⟨.plus, 4095, some .i3⟩),
          (⟨.minus, 31, 16, 4, 5, 39⟩, .je ⟨.minus, 2000, some .i4⟩),
          (⟨.plus, 0, 7, 5, 6, 39⟩, .jg ⟨.plus, 7, some .i5⟩),
          (⟨.plus, 63, 63, 6, 7, 39⟩, .jge ⟨.plus, 4095, some .i6⟩),
          (⟨.minus, 31, 16, 0, 8, 39⟩, .jne ⟨.minus, 2000, none⟩),
          (⟨.plus, 0, 7, 1, 9, 39⟩, .jle ⟨.plus, 7, some .i1⟩)] = true := by
  decide +kernel

theorem test_decode_jump_on_a_x :
    decodeTo
        [(⟨.plus, 63, 63, 2, 0, 40⟩, .jan ⟨.plus, 4095, some .i2⟩),
          (⟨.minus, 31, 16, 3, 1, 40⟩, .jaz ⟨.minus, 2000, some .i3⟩),
          (⟨.plus, 0, 7, 4, 2, 40⟩, .jap ⟨.plus, 7, some .i4⟩),
          (⟨.plus, 63, 63, 5, 3, 40⟩, .jann ⟨.plus, 4095, some .i5⟩),
          (⟨.minus, 31, 16, 6, 4, 40⟩, .janz ⟨.minus, 2000, some .i6⟩),
          (⟨.plus, 0, 7, 0, 5, 40⟩, .janp ⟨.plus, 7, none⟩),
          (⟨.plus, 63, 63, 1, 6, 40⟩, .jae ⟨.plus, 4095, some .i1⟩),
          (⟨.minus, 31, 16, 2, 7, 40⟩, .jao ⟨.minus, 2000, some .i2⟩),
          (⟨.plus, 0, 7, 4, 0, 47⟩, .jxn ⟨.plus, 7, some .i4⟩),
          (⟨.plus, 63, 63, 5, 1, 47⟩, .jxz ⟨.plus, 4095, some .i5⟩)] = true ∧
      decodeTo
        [(⟨.minus, 31, 16, 6, 2, 47⟩, .jxp ⟨.minus, 2000, some .i6⟩),
          (⟨.plus, 0, 7, 0, 3, 47⟩, .jxnn ⟨.plus, 7, none⟩),
          (⟨.plus, 63, 63, 1, 4, 47⟩, .jxnz ⟨.plus, 4095, some .i1⟩),
          (⟨.minus, 31, 16, 2, 5, 47⟩, .jxnp ⟨.minus, 2000, some .i2⟩),
          (⟨.plus, 0, 7, 3, 6, 47⟩, .jxe ⟨.plus, 7, some .i3⟩),
          (⟨.plus, 63, 63, 4, 7, 47⟩, .jxo ⟨.plus, 4095, some .i4⟩)] = true := by
  decide +kernel

theorem test_decode_jump_on_index_1_to_3 :
    decodeTo
        [(⟨.plus, 0, 7, 3, 0, 41⟩, .j1n ⟨.plus, 7, some .i3⟩),
          (⟨.plus, 63, 63, 4, 1, 41⟩, .j1z ⟨.plus, 4095, some .i4⟩),
          (⟨.minus, 31, 16, 5, 2, 41⟩, .j1p ⟨.minus, 2000, some .i5⟩),
          (⟨.plus, 0, 7, 6, 3, 41⟩, .j1nn ⟨.plus, 7, some .i6⟩),
          (⟨.plus, 63, 63, 0, 4, 41⟩, .j1nz ⟨.plus, 4095, none⟩),
          (⟨.minus, 31, 16, 1, 5, 41⟩, .j1np ⟨.minus, 2000, some .i1⟩),
          (⟨.plus, 0, 7, 2, 0, 42⟩, .j2n ⟨.plus, 7, some .i2⟩),
          (⟨.plus, 63, 63, 3, 1, 42⟩, .j2z ⟨.plus, 4095, some .i3⟩),
          (⟨.minus, 31, 16, 4, 2, 42⟩, .j2p ⟨.minus, 2000, some .i4⟩),
          (⟨.plus, 0, 7, 5, 3, 42⟩, .j2nn ⟨.plus, 7, some .i5⟩)] = true ∧
      decodeTo
        [(⟨.plus, 63, 63, 6, 4, 42⟩, .j2nz ⟨.plus, 4095, some .i6⟩),
          (⟨.minus, 31, 16, 0, 5, 42⟩, .j2np ⟨.minus, 2000, none⟩),
          (⟨.plus, 0, 7, 1, 0, 43⟩, .j3n ⟨.plus, 7, some .i1⟩),
          (⟨.plus, 63, 63, 2, 1, 43⟩, .j3z ⟨.plus, 4095, some .i2⟩),
          (⟨.minus, 31, 16, 3, 2, 43⟩, .j3p ⟨.minus, 2000, some .i3⟩),
          (⟨.plus, 0, 7, 4, 3, 43⟩, .j3nn ⟨.plus, 7, some .i4⟩),
          (⟨.plus, 63, 63, 5, 4, 43⟩, .j3nz ⟨.plus, 4095, some .i5⟩),
          (⟨.minus, 31, 16, 6, 5, 43⟩, .j3np ⟨.minus, 2000, some .i6⟩)] = true := by
  decide +kernel

theorem test_decode_jump_on_index_4_to_6 :
    decodeTo
        [(⟨.plus, 0, 7, 0, 0, 44⟩, .j4n ⟨.plus, 7, none⟩),
          (⟨.plus, 63, 63, 1, 1, 44⟩, .j4z ⟨.plus, 4095, some .i1⟩),
          (⟨.minus, 31, 16, 2, 2, 44⟩, .j4p ⟨.minus, 2000, some .i2⟩),
          (⟨.plus, 0, 7, 3, 3, 44⟩, .j4nn ⟨.plus, 7, some .i3⟩),
          (⟨.plus, 63, 63, 4, 4, 44⟩, .j4nz ⟨.plus, 4095, some .i4⟩),
          (⟨.minus, 31, 16, 5, 5, 44⟩, .j4np ⟨.minus, 2000, some .i5⟩),
          (⟨.plus, 0, 7, 6, 0, 45⟩, .j5n ⟨.plus, 7, some .i6⟩),
          (⟨.plus, 63, 63, 0, 1, 45⟩, .j5z ⟨.plus, 4095, none⟩),
          (⟨.minus, 31, 16, 1, 2, 45⟩, .j5p ⟨.minus, 2000, some .i1⟩),
          (⟨.plus, 0, 7, 2, 3, 45⟩, .j5nn ⟨.plus, 7, some .i2⟩)] = true ∧
      decodeTo
        [(⟨.plus, 63, 63, 3, 4, 45⟩, .j5nz ⟨.plus, 4095, some .i3⟩),
          (⟨.minus, 31, 16, 4, 5, 45⟩, .j5np ⟨.minus, 2000, some .i4⟩),
          (⟨.plus, 0, 7, 5, 0, 46⟩, .j6n ⟨.plus, 7, some .i5⟩),
          (⟨.plus, 63, 63, 6, 1, 46⟩, .j6z ⟨.plus, 4095, some .i6⟩),
          (⟨.minus, 31, 16, 0, 2, 46⟩, .j6p ⟨.minus, 2000, none⟩),
          (⟨.plus, 0, 7, 1, 3, 46⟩, .j6nn ⟨.plus, 7, some .i1⟩),
          (⟨.plus, 63, 63, 2, 4, 46⟩, .j6nz ⟨.plus, 4095, some .i2⟩),
          (⟨.minus, 31, 16, 3, 5, 46⟩, .j6np ⟨.minus, 2000, some .i3⟩)] = true := by
  decide +kernel

theorem test_decode_address_transfer_a_to_3 :
    decodeTo
        [(⟨.minus, 31, 16, 5, 0, 48⟩, .inca ⟨.minus, 2000, some .i5⟩),
          (⟨.plus, 0, 7, 6, 1, 48⟩, .deca ⟨.plus, 7, some .i6⟩),
          (⟨.plus, 63, 63, 0, 2, 48⟩, .enta ⟨.plus, 4095, none⟩),
          (⟨.minus, 31, 16, 1, 3, 48⟩, .enna ⟨.minus, 2000, some .i1⟩),
          (⟨.plus, 0, 7, 2, 0, 49⟩, .inc1 ⟨.plus, 7, some .i2⟩),
          (⟨.plus, 63, 63, 3, 1, 49⟩, .dec1 ⟨.plus, 4095, some .i3⟩),
          (⟨.minus, 31, 16, 4, 2, 49⟩, .ent1 ⟨.minus, 2000, some .i4⟩),
          (⟨.plus, 0, 7, 5, 3, 49⟩, .enn1 ⟨.plus, 7, some .i5⟩),
          (⟨.plus, 63, 63, 6, 0, 50⟩, .inc2 ⟨.plus, 4095, some .i6⟩),
          (⟨.minus, 31, 16, 0, 1, 50⟩, .dec2 ⟨.minus, 2000, none⟩)] = true ∧
      decodeTo
        [(⟨.plus, 0, 7, 1, 2, 50⟩, .ent2 ⟨.plus, 7, some .i1⟩),
          (⟨.plus, 63, 63, 2, 3, 50⟩, .enn2 ⟨.plus, 4095, some .i2⟩),
          (⟨.minus, 31, 16, 3, 0, 51⟩, .inc3 ⟨.minus, 2000, some .i3⟩),
          (⟨.plus, 0, 7, 4, 1, 51⟩, .dec3 ⟨.plus, 7, some .i4⟩),
          (⟨.plus, 63, 63, 5, 2, 51⟩, .ent3 ⟨.plus, 4095, some .i5⟩),
          (⟨.minus, 31, 16, 6, 3, 51⟩, .enn3 ⟨.minus, 2000, some .i6⟩)] = true := by
  decide +kernel

theorem test_decode_address_transfer_4_to_x :
    decodeTo
        [(⟨.plus, 0, 7, 0, 0, 52⟩, .inc4 ⟨.plus, 7, none⟩),
          (⟨.plus, 63, 63, 1, 1, 52⟩, .dec4 ⟨.plus, 4095, some .i1⟩),
          (⟨.minus, 31, 16, 2, 2, 52⟩, .ent4 ⟨.minus, 2000, some .i2⟩),
          (⟨.plus, 0, 7, 3, 3, 52⟩, .enn4 ⟨.plus, 7, some .i3⟩),
          (⟨.plus, 63, 63, 4, 0, 53⟩, .inc5 ⟨.plus, 4095, some .i4⟩),
          (⟨.minus, 31, 16, 5, 1, 53⟩, .dec5 ⟨.minus, 2000, some .i5⟩),
          (⟨.plus, 0, 7, 6, 2, 53⟩, .ent5 ⟨.plus, 7, some .i6⟩),
          (⟨.plus, 63, 63, 0, 3, 53⟩, .enn5 ⟨.plus, 4095, none⟩),
          (⟨.minus, 31, 16, 1, 0, 54⟩, .inc6 ⟨.minus, 2000, some .i1⟩),
          (⟨.plus, 0, 7, 2, 1, 54⟩, .dec6 ⟨.plus, 7, some .i2⟩)] = true ∧
      decodeTo
        [(⟨.plus, 63, 63, 3, 2, 54⟩, .ent6 ⟨.plus, 4095, some .i3⟩),
          (⟨.minus, 31, 16, 4, 3, 54⟩, .enn6 ⟨.minus, 2000, some .i4⟩),
          (⟨.plus, 0, 7, 5, 0, 55⟩, .incx ⟨.plus, 7, some .i5⟩),
          (⟨.plus, 63, 63, 6, 1, 55⟩, .decx ⟨.plus, 4095, some .i6⟩),
          (⟨.minus, 31, 16, 0, 2, 55⟩, .entx ⟨.minus, 2000, none⟩),
          (⟨.plus, 0, 7, 1, 3, 55⟩, .ennx ⟨.plus, 7, some .i1⟩)] = true := by
  decide +kernel

theorem test_decode_compare :
    decodeTo
        [(⟨.plus, 63, 63, 2, 5, 56⟩, .cmpa ⟨.plus, 4095, some .i2⟩ ⟨0, 5⟩),
          (⟨.minus, 31, 16, 3, 6, 56⟩, .fcmp ⟨.minus, 2000, some .i3⟩),
          (⟨.plus, 0, 7, 4, 5, 57⟩, .cmp1 ⟨.plus, 7, some .i4⟩ ⟨0, 5⟩),
          (⟨.plus, 63, 63, 5, 5, 58⟩, .cmp2 ⟨.plus, 4095, some .i5⟩ ⟨0, 5⟩),
          (⟨.minus, 31, 16, 6, 5, 59⟩, .cmp3 ⟨.minus, 2000, some .i6⟩ ⟨0, 5⟩),
          (⟨.plus, 0, 7, 0, 5, 60⟩, .cmp4 ⟨.plus, 7, none⟩ ⟨0, 5⟩),
          (⟨.plus, 63, 63, 1, 5, 61⟩, .cmp5 ⟨.plus, 4095, some .i1⟩ ⟨0, 5⟩),
          (⟨.minus, 31, 16, 2, 5, 62⟩, .cmp6 ⟨.minus, 2000, some .i2⟩ ⟨0, 5⟩),
          (⟨.plus, 0, 7, 3, 5, 63⟩, .cmpx ⟨.plus, 7, some .i3⟩ ⟨0, 5⟩)] = true := by
  decide +kernel

/-- The packed view numbers bits as the opcode table does (R101): LDA 2000 is 0x1f400148. -/
theorem test_decode_packed : decodeTableWord 31 0x1f400148 = some (.lda ⟨.plus, 2000, none⟩ ⟨0, 5⟩) := by
  decide

/-- A packed word has 31 bits. -/
theorem test_decode_packed_bit_31 : decodeTableWord 32 0x80000000 = none := by decide

-- Single steps.

/-- The machine about to run the packed word `w` at 3000. -/
def start (w : Nat) (s : State) : State := { s with pc := 3000, mem := s.mem.write 3000 (Word.unpack w) }

/-- The step from `s` answers the state `f s`. -/
def gives (s : State) (f : State → State) : Bool :=
  match step s with
  | .next t => decide (t = f s)
  | .fault _ => false
  | .refused _ => false

/-- The fault of V-… rows: ES and FR alone (R463). -/
def faulting (c : Cause) (op : OpCode) (o : Operand) (s : State) : State :=
  { s with es := .faulted, fr := some ⟨c, s.pc, some op, o⟩ }

/-- A state with unit `u`'s device state made `d`. -/
def withUnitState (u : Unit21) (d : Device) (s : State) : State := s.setDev u d

/-- V-EA-1: `LDA 2000,3`, R110. -/
theorem test_lda_ea_1 :
    gives (start 0x1f403148 { State.reset with
      rI3 := Register2.ofMag .minus 5, mem := [(1995, Word.ofMag .plus 77)] })
      (fun s => { s with rA := ⟨.plus, 0, 0, 0, 1, 13⟩, pc := 3001, elapsed := 2 }) = true := by
  decide +kernel

/-- V-LS-4: `LDA 2000(0:3)`, R143. -/
theorem test_lda_ls_4 :
    gives (start 0x1f4000c8 { State.reset with mem := [(2000, ⟨.minus, 1, 16, 3, 5, 4⟩)] })
      (fun s => { s with rA := ⟨.minus, 0, 0, 1, 16, 3⟩, pc := 3001, elapsed := 2 }) = true := by
  decide +kernel

/-- V-EA-14: `LDA 2000,7(5:4)`, R464. -/
theorem test_decode_failure_ea_14 :
    gives (start 0x1f407b08 State.reset)
      (faulting .decodeFailure ⟨8, 44⟩ (.opcode ⟨8, 44⟩)) = true := by
  decide +kernel

/-- V-EA-10: `FADD 2000`, R195. -/
theorem test_fadd_ea_10 :
    gives (start 0x1f400181 State.reset)
      (faulting .refusedFloat ⟨1, 6⟩ (.opcode ⟨1, 6⟩)) = true := by
  decide +kernel

/-- V-EA-16: `FADD 100,1`, R464. -/
theorem test_fadd_ea_16 :
    gives (start 0x01901181 { State.reset with rI1 := Register2.ofMag .plus 4000 })
      (faulting .addressRange ⟨1, 6⟩ (.value (4100))) = true := by
  decide +kernel

/-- V-EA-11: `FCMP 2000`, R195. -/
theorem test_fcmp_ea_11 :
    gives (start 0x1f4001b8 State.reset)
      (faulting .refusedFloat ⟨56, 6⟩ (.opcode ⟨56, 6⟩)) = true := by
  decide +kernel

/-- V-EA-12: `SLB 1`, R219. -/
theorem test_slb_ea_12 :
    gives (start 0x00040186 State.reset)
      (faulting .decodeFailure ⟨6, 6⟩ (.opcode ⟨6, 6⟩)) = true := by
  decide +kernel

/-- V-SH-13: `SLB 31`, R219. -/
theorem test_slb_sh_13 :
    gives (start 0x007c0186 { State.reset with rA := Word.ofMag .plus 0, rX := Word.ofMag .plus 1, cfg :=
      { defaultConfig with extBinaryOps := true } })
      (fun s => { s with
        rA := ⟨.plus, 0, 0, 0, 0, 2⟩, rX := ⟨.plus, 0, 0, 0, 0, 0⟩, pc := 3001, elapsed := 2 }) = true := by
  decide +kernel

/-- V-EA-13: `JAE 3000`, R318. -/
theorem test_jae_ea_13 :
    gives (start 0x2ee001a8 State.reset)
      (faulting .decodeFailure ⟨40, 6⟩ (.opcode ⟨40, 6⟩)) = true := by
  decide +kernel

/-- V-JP-52: `JAE 3010`, R318. -/
theorem test_jae_jp_52 :
    gives (start 0x2f0801a8 { State.reset with rA := Word.ofMag .minus 0, cfg := { defaultConfig with
      extBinaryOps := true } })
      (fun s => { s with rJ := (⟨.plus, 46, 57⟩ : Register2), pc := 3010, elapsed := 1 }) = true := by
  decide +kernel

/-- V-LS-7: `LDAN 2000`, R151. -/
theorem test_ldan_ls_7 :
    gives (start 0x1f400150 { State.reset with mem := [(2000, Word.ofMag .plus 0)] })
      (fun s => { s with rA := ⟨.minus, 0, 0, 0, 0, 0⟩, pc := 3001, elapsed := 2 }) = true := by
  decide +kernel

/-- V-LS-8: `LDXN 2000`, R158. -/
theorem test_ldxn_ls_8 :
    gives (start 0x1f400157 { State.reset with rX := Word.ofMag .plus 5, mem := [(2000, Word.ofMag .minus 0)] })
      (fun s => { s with rX := ⟨.plus, 0, 0, 0, 0, 0⟩, pc := 3001, elapsed := 2 }) = true := by
  decide +kernel

/-- V-LS-10: `LD1 2000`, R144. -/
theorem test_ld1_ls_10 :
    gives (start 0x1f400149 { State.reset with mem := [(2000, ⟨.plus, 0, 1, 0, 0, 0⟩)] })
      (faulting .indexOverflow ⟨9, 5⟩ (.value (262144))) = true := by
  decide +kernel

/-- V-LS-11: `LD2N 2000(4:5)`, R153. -/
theorem test_ld2n_ls_11 :
    gives (start 0x1f400952 { State.reset with mem := [(2000, ⟨.minus, 9, 9, 9, 1, 2⟩)] })
      (fun s => { s with rI2 := (⟨.minus, 1, 2⟩ : Register2), pc := 3001, elapsed := 2 }) = true := by
  decide +kernel

/-- V-LS-12: `LDX 2000(1:1)`, R150. -/
theorem test_ldx_ls_12 :
    gives (start 0x1f40024f { State.reset with mem := [(2000, ⟨.minus, 1, 2, 3, 4, 5⟩)] })
      (fun s => { s with rX := ⟨.plus, 0, 0, 0, 0, 1⟩, pc := 3001, elapsed := 2 }) = true := by
  decide +kernel

/-- V-LS-14: `STA 2000(1:5)`, R159. -/
theorem test_sta_ls_14 :
    gives (start 0x1f400358 { State.reset with
      rA := ⟨.plus, 6, 7, 8, 9, 0⟩, mem := [(2000, ⟨.minus, 1, 2, 3, 4, 5⟩)] })
      (fun s => { s with pc := 3001, elapsed := 2, mem := (s.mem.write 2000 ⟨.minus, 6, 7, 8, 9, 0⟩) }) = true := by
  decide +kernel

/-- V-LS-17: `STA 2000(2:3)`, R159. -/
theorem test_sta_ls_17 :
    gives (start 0x1f4004d8 { State.reset with
      rA := ⟨.plus, 6, 7, 8, 9, 0⟩, mem := [(2000, ⟨.minus, 1, 2, 3, 4, 5⟩)] })
      (fun s => { s with pc := 3001, elapsed := 2, mem := (s.mem.write 2000 ⟨.minus, 1, 9, 0, 4, 5⟩) }) = true := by
  decide +kernel

/-- V-LS-19: `ST4 2000`, R163. -/
theorem test_st4_ls_19 :
    gives (start 0x1f40015c { State.reset with
      rI4 := Register2.ofMag .minus 66, mem := [(2000, ⟨.plus, 9, 9, 9, 9, 9⟩)] })
      (fun s => { s with pc := 3001, elapsed := 2, mem := (s.mem.write 2000 ⟨.minus, 0, 0, 0, 1, 2⟩) }) = true := by
  decide +kernel

/-- V-LS-20: `STJ 3009`, R167. -/
theorem test_stj_ls_20 :
    gives (start 0x2f0400a0 { State.reset with
      rJ := Register2.ofMag .plus 3001, mem := [(3009, ⟨.plus, 0, 0, 0, 0, 39⟩)] })
      (fun s => { s with pc := 3001, elapsed := 2, mem := (s.mem.write 3009 ⟨.plus, 46, 57, 0, 0, 39⟩) }) = true := by
  decide +kernel

/-- V-LS-21: `STZ 2000(3:4)`, R168. -/
theorem test_stz_ls_21 :
    gives (start 0x1f400721 { State.reset with mem := [(2000, ⟨.minus, 1, 2, 3, 4, 5⟩)] })
      (fun s => { s with pc := 3001, elapsed := 2, mem := (s.mem.write 2000 ⟨.minus, 1, 2, 0, 0, 5⟩) }) = true := by
  decide +kernel

/-- V-LS-22: `STZ 2000`, R168. -/
theorem test_stz_ls_22 :
    gives (start 0x1f400161 { State.reset with mem := [(2000, ⟨.minus, 1, 2, 3, 4, 5⟩)] })
      (fun s => { s with pc := 3001, elapsed := 2, mem := (s.mem.write 2000 ⟨.plus, 0, 0, 0, 0, 0⟩) }) = true := by
  decide +kernel

/-- V-AR-1: `ADD 2000`, R182. -/
theorem test_add_ar_1 :
    gives (start 0x1f400141 { State.reset with
      rA := Word.ofMag .plus 1073741823, mem := [(2000, Word.ofMag .plus 1)] })
      (fun s => { s with rA := ⟨.plus, 0, 0, 0, 0, 0⟩, ov := true, pc := 3001, elapsed := 2 }) = true := by
  decide +kernel

/-- V-AR-3: `ADD 2000`, R182. -/
theorem test_add_ar_3 :
    gives (start 0x1f400141 { State.reset with rA := Word.ofMag .minus 5, mem := [(2000, Word.ofMag .plus 5)] })
      (fun s => { s with rA := ⟨.minus, 0, 0, 0, 0, 0⟩, pc := 3001, elapsed := 2 }) = true := by
  decide +kernel

/-- V-AR-7: `SUB 2000`, R183. -/
theorem test_sub_ar_7 :
    gives (start 0x1f400142 { State.reset with rA := Word.ofMag .plus 10, mem := [(2000, Word.ofMag .plus 25)] })
      (fun s => { s with rA := ⟨.minus, 0, 0, 0, 0, 15⟩, pc := 3001, elapsed := 2 }) = true := by
  decide +kernel

/-- V-AR-9: `SUB 2000`, R183. -/
theorem test_sub_ar_9 :
    gives (start 0x1f400142 { State.reset with
      rA := Word.ofMag .minus 1073741823, mem := [(2000, Word.ofMag .plus 1)] })
      (fun s => { s with rA := ⟨.minus, 0, 0, 0, 0, 0⟩, ov := true, pc := 3001, elapsed := 2 }) = true := by
  decide +kernel

/-- V-AR-10: `MUL 2000`, R184. -/
theorem test_mul_ar_10 :
    gives (start 0x1f400143 { State.reset with
      rA := Word.ofMag .plus 1073741823, mem := [(2000, Word.ofMag .plus 1073741823)] })
      (fun s => { s with
        rA := ⟨.plus, 63, 63, 63, 63, 62⟩, rX := ⟨.plus, 0, 0, 0, 0, 1⟩, pc := 3001, elapsed := 10 }) = true := by
  decide +kernel

/-- V-AR-11: `MUL 2000`, R184. -/
theorem test_mul_ar_11 :
    gives (start 0x1f400143 { State.reset with rA := Word.ofMag .minus 3, mem := [(2000, Word.ofMag .plus 1000)] })
      (fun s => { s with
        rA := ⟨.minus, 0, 0, 0, 0, 0⟩, rX := ⟨.minus, 0, 0, 0, 46, 56⟩, pc := 3001, elapsed := 10 }) = true := by
  decide +kernel

/-- V-AR-16: `DIV 2000`, R185. -/
theorem test_div_ar_16 :
    gives (start 0x1f400144 { State.reset with
      rA := Word.ofMag .plus 0, rX := Word.ofMag .plus 17, mem := [(2000, Word.ofMag .minus 5)] })
      (fun s => { s with
        rA := ⟨.minus, 0, 0, 0, 0, 3⟩, rX := ⟨.plus, 0, 0, 0, 0, 2⟩, pc := 3001, elapsed := 12 }) = true := by
  decide +kernel

/-- V-AR-20: `DIV 2000`, R185. -/
theorem test_div_ar_20 :
    gives (start 0x1f400144 { State.reset with
      rA := Word.ofMag .plus 5, rX := Word.ofMag .plus 0, mem := [(2000, Word.ofMag .plus 5)] })
      (faulting .divideError ⟨4, 5⟩ (.value (2000))) = true := by
  decide +kernel

/-- V-SH-1: `SLA 2`, R211. -/
theorem test_sla_sh_1 :
    gives (start 0x00080006 { State.reset with rA := ⟨.plus, 1, 2, 3, 4, 5⟩, rX := ⟨.minus, 6, 7, 8, 9, 10⟩ })
      (fun s => { s with rA := ⟨.plus, 3, 4, 5, 0, 0⟩, pc := 3001, elapsed := 2 }) = true := by
  decide +kernel

/-- V-SH-11: `SLA 0,1`, R210. -/
theorem test_sla_sh_11 :
    gives (start 0x00001006 { State.reset with rA := ⟨.plus, 1, 2, 3, 4, 5⟩, rI1 := Register2.ofMag .minus 3 })
      (faulting .negativeShift ⟨6, 0⟩ (.value (-3))) = true := by
  decide +kernel

/-- V-SH-12: `SRA 5`, R212. -/
theorem test_sra_sh_12 :
    gives (start 0x00140046 { State.reset with rA := ⟨.minus, 1, 2, 3, 4, 5⟩ })
      (fun s => { s with rA := ⟨.minus, 0, 0, 0, 0, 0⟩, pc := 3001, elapsed := 2 }) = true := by
  decide +kernel

/-- V-SH-3: `SLAX 3`, R213. -/
theorem test_slax_sh_3 :
    gives (start 0x000c0086 { State.reset with rA := ⟨.plus, 1, 2, 3, 4, 5⟩, rX := ⟨.minus, 6, 7, 8, 9, 10⟩ })
      (fun s => { s with
        rA := ⟨.plus, 4, 5, 6, 7, 8⟩, rX := ⟨.minus, 9, 10, 0, 0, 0⟩, pc := 3001, elapsed := 2 }) = true := by
  decide +kernel

/-- V-SH-4: `SRAX 1`, R214. -/
theorem test_srax_sh_4 :
    gives (start 0x000400c6 { State.reset with rA := ⟨.plus, 1, 2, 3, 4, 5⟩, rX := ⟨.minus, 6, 7, 8, 9, 10⟩ })
      (fun s => { s with
        rA := ⟨.plus, 0, 1, 2, 3, 4⟩, rX := ⟨.minus, 5, 6, 7, 8, 9⟩, pc := 3001, elapsed := 2 }) = true := by
  decide +kernel

/-- V-SH-5: `SLC 501`, R215. -/
theorem test_slc_sh_5 :
    gives (start 0x07d40106 { State.reset with rA := ⟨.plus, 1, 2, 3, 4, 5⟩, rX := ⟨.minus, 6, 7, 8, 9, 10⟩ })
      (fun s => { s with
        rA := ⟨.plus, 2, 3, 4, 5, 6⟩, rX := ⟨.minus, 7, 8, 9, 10, 1⟩, pc := 3001, elapsed := 2 }) = true := by
  decide +kernel

/-- V-SH-6: `SRC 4`, R216. -/
theorem test_src_sh_6 :
    gives (start 0x00100146 { State.reset with rA := ⟨.plus, 1, 2, 3, 4, 5⟩, rX := ⟨.minus, 6, 7, 8, 9, 10⟩ })
      (fun s => { s with
        rA := ⟨.plus, 7, 8, 9, 10, 1⟩, rX := ⟨.minus, 2, 3, 4, 5, 6⟩, pc := 3001, elapsed := 2 }) = true := by
  decide +kernel

/-- V-SH-14: `SRB 1`, R220. -/
theorem test_srb_sh_14 :
    gives (start 0x000401c6 { State.reset with rA := Word.ofMag .plus 1, rX := Word.ofMag .plus 0, cfg :=
      { defaultConfig with extBinaryOps := true } })
      (fun s => { s with
        rA := ⟨.plus, 0, 0, 0, 0, 0⟩, rX := ⟨.plus, 32, 0, 0, 0, 0⟩, pc := 3001, elapsed := 2 }) = true := by
  decide +kernel

/-- V-CM-2: `CMPA 1000(5:5)`, R231. -/
theorem test_cmpa_cm_2 :
    gives (start 0x0fa00b78 { State.reset with rA := Word.ofMag .plus 5, mem := [(1000, Word.ofMag .minus 7)] })
      (fun s => { s with ci := .less, pc := 3001, elapsed := 2 }) = true := by
  decide +kernel

/-- V-CM-3: `CMPA 1000(0:0)`, R231. -/
theorem test_cmpa_cm_3 :
    gives (start 0x0fa00038 { State.reset with
      rA := Word.ofMag .minus 5, ci := .less, mem := [(1000, Word.ofMag .plus 7)] })
      (fun s => { s with ci := .equal, pc := 3001, elapsed := 2 }) = true := by
  decide +kernel

/-- V-CM-4: `CMPX 1000`, R238. -/
theorem test_cmpx_cm_4 :
    gives (start 0x0fa0017f { State.reset with
      rX := Word.ofMag .minus 0, ci := .less, mem := [(1000, Word.ofMag .plus 0)] })
      (fun s => { s with ci := .equal, pc := 3001, elapsed := 2 }) = true := by
  decide +kernel

/-- V-CM-6: `CMP1 1000(4:5)`, R232. -/
theorem test_cmp1_cm_6 :
    gives (start 0x0fa00979 { State.reset with
      rI1 := Register2.ofMag .minus 3, ci := .less, mem := [(1000, Word.ofMag .plus 3)] })
      (fun s => { s with ci := .equal, pc := 3001, elapsed := 2 }) = true := by
  decide +kernel

/-- V-CM-7: `CMP6 1000`, R237. -/
theorem test_cmp6_cm_7 :
    gives (start 0x0fa0017e { State.reset with
      rI6 := Register2.ofMag .plus 4095, mem := [(1000, ⟨.plus, 0, 0, 1, 0, 0⟩)] })
      (fun s => { s with ci := .less, pc := 3001, elapsed := 2 }) = true := by
  decide +kernel

/-- V-CM-8: `CMP2 1000(1:3)`, R233. -/
theorem test_cmp2_cm_8 :
    gives (start 0x0fa002fa { State.reset with
      rI2 := Register2.ofMag .plus 9, ci := .greater, mem := [(1000, ⟨.plus, 0, 0, 0, 0, 9⟩)] })
      (fun s => { s with ci := .equal, pc := 3001, elapsed := 2 }) = true := by
  decide +kernel

/-- V-JP-1: `JMP 3005`, R251. -/
theorem test_jmp_jp_1 :
    gives (start 0x2ef40027 State.reset)
      (fun s => { s with rJ := (⟨.plus, 46, 57⟩ : Register2), pc := 3005, elapsed := 1 }) = true := by
  decide +kernel

/-- V-JP-48: `JMP 3999,1`, R250. -/
theorem test_jmp_jp_48 :
    gives (start 0x3e7c1027 { State.reset with rI1 := Register2.ofMag .plus 1 })
      (faulting .memBounds ⟨39, 0⟩ (.value (4000))) = true := by
  decide +kernel

/-- V-JP-2: `JSJ 3005`, R252. -/
theorem test_jsj_jp_2 :
    gives (start 0x2ef40067 { State.reset with rJ := Register2.ofMag .plus 17 })
      (fun s => { s with pc := 3005, elapsed := 1 }) = true := by
  decide +kernel

/-- V-JP-3: `JOV 3010`, R253. -/
theorem test_jov_jp_3 :
    gives (start 0x2f0800a7 { State.reset with ov := true })
      (fun s => { s with rJ := (⟨.plus, 46, 57⟩ : Register2), ov := false, pc := 3010, elapsed := 1 }) = true := by
  decide +kernel

/-- V-JP-4: `JOV 3010`, R253. -/
theorem test_jov_jp_4 :
    gives (start 0x2f0800a7 State.reset)
      (fun s => { s with pc := 3001, elapsed := 1 }) = true := by
  decide +kernel

/-- V-JP-5: `JNOV 3010`, R254. -/
theorem test_jnov_jp_5 :
    gives (start 0x2f0800e7 { State.reset with ov := true })
      (fun s => { s with ov := false, pc := 3001, elapsed := 1 }) = true := by
  decide +kernel

/-- V-JP-6: `JNOV 3010`, R254. -/
theorem test_jnov_jp_6 :
    gives (start 0x2f0800e7 State.reset)
      (fun s => { s with rJ := (⟨.plus, 46, 57⟩ : Register2), pc := 3010, elapsed := 1 }) = true := by
  decide +kernel

/-- V-JP-7: `JL 3010`, R255. -/
theorem test_jl_jp_7 :
    gives (start 0x2f080127 { State.reset with ci := .less })
      (fun s => { s with rJ := (⟨.plus, 46, 57⟩ : Register2), pc := 3010, elapsed := 1 }) = true := by
  decide +kernel

/-- V-JP-8: `JL 3010`, R255. -/
theorem test_jl_jp_8 :
    gives (start 0x2f080127 { State.reset with ci := .equal })
      (fun s => { s with pc := 3001, elapsed := 1 }) = true := by
  decide +kernel

/-- V-JP-9: `JE 3010`, R256. -/
theorem test_je_jp_9 :
    gives (start 0x2f080167 { State.reset with ci := .equal })
      (fun s => { s with rJ := (⟨.plus, 46, 57⟩ : Register2), pc := 3010, elapsed := 1 }) = true := by
  decide +kernel

/-- V-JP-10: `JG 3010`, R257. -/
theorem test_jg_jp_10 :
    gives (start 0x2f0801a7 { State.reset with ci := .greater })
      (fun s => { s with rJ := (⟨.plus, 46, 57⟩ : Register2), pc := 3010, elapsed := 1 }) = true := by
  decide +kernel

/-- V-JP-12: `JGE 3010`, R258. -/
theorem test_jge_jp_12 :
    gives (start 0x2f0801e7 { State.reset with ci := .less })
      (fun s => { s with pc := 3001, elapsed := 1 }) = true := by
  decide +kernel

/-- V-JP-13: `JNE 3010`, R259. -/
theorem test_jne_jp_13 :
    gives (start 0x2f080227 { State.reset with ci := .greater })
      (fun s => { s with rJ := (⟨.plus, 46, 57⟩ : Register2), pc := 3010, elapsed := 1 }) = true := by
  decide +kernel

/-- V-JP-15: `JLE 3010`, R260. -/
theorem test_jle_jp_15 :
    gives (start 0x2f080267 { State.reset with ci := .less })
      (fun s => { s with rJ := (⟨.plus, 46, 57⟩ : Register2), pc := 3010, elapsed := 1 }) = true := by
  decide +kernel

/-- V-JP-18: `JAZ 3010`, R271. -/
theorem test_jaz_jp_18 :
    gives (start 0x2f080068 { State.reset with rA := Word.ofMag .minus 0 })
      (fun s => { s with rJ := (⟨.plus, 46, 57⟩ : Register2), pc := 3010, elapsed := 1 }) = true := by
  decide +kernel

/-- V-JP-23: `JAN 3010`, R270. -/
theorem test_jan_jp_23 :
    gives (start 0x2f080028 { State.reset with rA := Word.ofMag .minus 1 })
      (fun s => { s with rJ := (⟨.plus, 46, 57⟩ : Register2), pc := 3010, elapsed := 1 }) = true := by
  decide +kernel

/-- V-JP-53: `JXO 3010`, R321. -/
theorem test_jxo_jp_53 :
    gives (start 0x2f0801ef { State.reset with rX := Word.ofMag .minus 3, cfg := { defaultConfig with
      extBinaryOps := true } })
      (fun s => { s with rJ := (⟨.plus, 46, 57⟩ : Register2), pc := 3010, elapsed := 1 }) = true := by
  decide +kernel

/-- V-AT-1: `INCA 25`, R340. -/
theorem test_inca_at_1 :
    gives (start 0x00640030 { State.reset with rA := Word.ofMag .plus 100 })
      (fun s => { s with rA := ⟨.plus, 0, 0, 0, 1, 61⟩, pc := 3001, elapsed := 1 }) = true := by
  decide +kernel

/-- V-AT-2: `INCA 1`, R340. -/
theorem test_inca_at_2 :
    gives (start 0x00040030 { State.reset with rA := Word.ofMag .plus 1073741823 })
      (fun s => { s with rA := ⟨.plus, 0, 0, 0, 0, 0⟩, ov := true, pc := 3001, elapsed := 1 }) = true := by
  decide +kernel

/-- V-AT-4: `DECX 125`, R369. -/
theorem test_decx_at_4 :
    gives (start 0x01f40077 { State.reset with rX := Word.ofMag .plus 100 })
      (fun s => { s with rX := ⟨.minus, 0, 0, 0, 0, 25⟩, pc := 3001, elapsed := 1 }) = true := by
  decide +kernel

/-- V-AT-6: `ENTA -0`, R342. -/
theorem test_enta_at_6 :
    gives (start 0x400000b0 State.reset)
      (fun s => { s with rA := ⟨.minus, 0, 0, 0, 0, 0⟩, pc := 3001, elapsed := 1 }) = true := by
  decide +kernel

/-- V-AT-7: `ENTA 0,1`, R342. -/
theorem test_enta_at_7 :
    gives (start 0x000010b0 { State.reset with rA := Word.ofMag .minus 5, rI1 := Register2.ofMag .minus 0 })
      (fun s => { s with rA := ⟨.plus, 0, 0, 0, 0, 0⟩, pc := 3001, elapsed := 1 }) = true := by
  decide +kernel

/-- V-AT-9: `ENNA 0`, R343. -/
theorem test_enna_at_9 :
    gives (start 0x000000f0 State.reset)
      (fun s => { s with rA := ⟨.minus, 0, 0, 0, 0, 0⟩, pc := 3001, elapsed := 1 }) = true := by
  decide +kernel

/-- V-AT-10: `ENNX 0,3`, R371. -/
theorem test_ennx_at_10 :
    gives (start 0x000030f7 { State.reset with rI3 := Register2.ofMag .plus 7 })
      (fun s => { s with rX := ⟨.minus, 0, 0, 0, 0, 7⟩, pc := 3001, elapsed := 1 }) = true := by
  decide +kernel

/-- V-AT-11: `INC1 1`, R344. -/
theorem test_inc1_at_11 :
    gives (start 0x00040031 { State.reset with rI1 := Register2.ofMag .plus 4095 })
      (faulting .indexOverflow ⟨49, 0⟩ (.value (4096))) = true := by
  decide +kernel

/-- V-AT-12: `INC2 3`, R348. -/
theorem test_inc2_at_12 :
    gives (start 0x000c0032 { State.reset with rI2 := Register2.ofMag .minus 3 })
      (fun s => { s with rI2 := (⟨.minus, 0, 0⟩ : Register2), pc := 3001, elapsed := 1 }) = true := by
  decide +kernel

/-- V-AT-14: `INC4 0,4`, R356. -/
theorem test_inc4_at_14 :
    gives (start 0x00004034 { State.reset with rI4 := Register2.ofMag .plus 2000 })
      (fun s => { s with rI4 := (⟨.plus, 62, 32⟩ : Register2), pc := 3001, elapsed := 1 }) = true := by
  decide +kernel

/-- V-AT-16: `ENT6 -4095`, R366. -/
theorem test_ent6_at_16 :
    gives (start 0x7ffc00b6 State.reset)
      (fun s => { s with rI6 := (⟨.minus, 63, 63⟩ : Register2), pc := 3001, elapsed := 1 }) = true := by
  decide +kernel

/-- V-AT-17: `ENN6 0,6`, R367. -/
theorem test_enn6_at_17 :
    gives (start 0x000060f6 { State.reset with rI6 := Register2.ofMag .plus 5 })
      (fun s => { s with rI6 := (⟨.minus, 0, 5⟩ : Register2), pc := 3001, elapsed := 1 }) = true := by
  decide +kernel

/-- V-IO-1: `IN 1000(16)`, R386. -/
theorem test_in_io_1 :
    gives (start 0x0fa00424 (withUnitState 16 ⟨[(0, ⟨.plus, 8, 5, 13, 13, 16⟩)], 0, .ready, 0⟩ State.reset))
      (fun s => { s with
        pc := 3001, elapsed := 1, dev := s.dev.set 16 ⟨[(0, ⟨.plus, 8, 5, 13, 13, 16⟩)], 16, .busyRead, 11⟩, mem := (s.mem.write 1000 ⟨.plus, 8, 5, 13, 13, 16⟩) }) = true := by
  decide +kernel

/-- V-IO-11: `IN 1000(8)`, R390. -/
theorem test_in_io_11 :
    gives (start 0x0fa00224 (withUnitState 8 ⟨[(300, (Word.ofMag .plus 77))], 0, .ready, 0⟩ { State.reset with
      rX := Word.ofMag .plus 3 }))
      (fun s => { s with pc := 3001, elapsed := 1, dev := s.dev.set 8 ⟨[(300,
        (Word.ofMag .plus 77))], 0, .busyRead, 11⟩, mem := (s.mem.write 1000 ⟨.plus, 0, 0, 0, 1, 13⟩) }) = true := by
  decide +kernel

/-- V-IO-5: `OUT 1000(17)`, R387. -/
theorem test_out_io_5 :
    gives (start 0x0fa00465 { State.reset with mem := [(1000, ⟨.plus, 8, 5, 13, 13, 16⟩)] })
      (fun s => { s with
        pc := 3001, elapsed := 1, dev := s.dev.set 17 ⟨[(0, ⟨.plus, 8, 5, 13, 13, 16⟩)], 16, .busyWrite, 11⟩ }) = true := by
  decide +kernel

/-- V-IO-8: `OUT 1000(17)`, R384. -/
theorem test_out_io_8 :
    gives (start 0x0fa00465 (withUnitState 17 ⟨[], 0, .busyWrite, 5⟩ { State.reset with elapsed := 5, cfg :=
      { defaultConfig with busyPolicy := .wait } }))
      (fun s => { s with pc := 3001, elapsed := 7, dev := s.dev.set 17 ⟨[], 16, .busyWrite, 17⟩ }) = true := by
  decide +kernel

/-- V-IO-14: `IOC -9(3)`, R388. -/
theorem test_ioc_io_14 :
    gives (start 0x402400e3 (withUnitState 3 ⟨[], 700, .ready, 0⟩ State.reset))
      (fun s => { s with pc := 3001, elapsed := 1, dev := s.dev.set 3 ⟨[], 0, .ready, 0⟩ }) = true := by
  decide +kernel

/-- V-IO-18: `IOC 0(18)`, R388. -/
theorem test_ioc_io_18 :
    gives (start 0x000004a3 (withUnitState 18 ⟨[], 48, .ready, 0⟩ State.reset))
      (fun s => { s with pc := 3001, elapsed := 1, dev := s.dev.set 18 ⟨[], 1440, .ready, 0⟩ }) = true := by
  decide +kernel

/-- V-IO-23: `JBUS 3010(16)`, R385. -/
theorem test_jbus_io_23 :
    gives (start 0x2f080422 (withUnitState 16 ⟨[], 0, .busyRead, 11⟩ { State.reset with elapsed := 11 }))
      (fun s => { s with rJ := (⟨.plus, 46, 57⟩ : Register2), pc := 3010, elapsed := 12 }) = true := by
  decide +kernel

/-- V-IO-24: `JBUS 3010(16)`, R385. -/
theorem test_jbus_io_24 :
    gives (start 0x2f080422 (withUnitState 16 ⟨[], 0, .busyRead, 11⟩ { State.reset with elapsed := 12 }))
      (fun s => { s with pc := 3001, elapsed := 13, dev := s.dev.set 16 ⟨[], 0, .ready, 11⟩ }) = true := by
  decide +kernel

/-- V-IO-25: `JRED 3010(16)`, R389. -/
theorem test_jred_io_25 :
    gives (start 0x2f080426 (withUnitState 16 ⟨[], 0, .busyRead, 11⟩ { State.reset with elapsed := 12 }))
      (fun s => { s with rJ :=
        (⟨.plus, 46, 57⟩ : Register2), pc := 3010, elapsed := 13, dev := s.dev.set 16 ⟨[], 0, .ready, 11⟩ }) = true := by
  decide +kernel

/-- V-CT-2: `NOP 4095,6(63)`, R430. -/
theorem test_nop_ct_2 :
    gives (start 0x3ffc6fc0 State.reset)
      (fun s => { s with pc := 3001, elapsed := 1 }) = true := by
  decide +kernel

/-- V-CT-3: `HLT`, R431. -/
theorem test_hlt_ct_3 :
    gives (start 0x00000085 State.reset)
      (fun s => { s with pc := 3000, elapsed := 10, es := .halted }) = true := by
  decide +kernel

/-- V-SP-1: `NUM 0`, R440. -/
theorem test_num_sp_1 :
    gives (start 0x00000005 { State.reset with rA := ⟨.minus, 0, 0, 31, 32, 39⟩, rX := ⟨.plus, 37, 57, 47, 30, 30⟩ })
      (fun s => { s with rA := ⟨.minus, 0, 49, 32, 24, 36⟩, pc := 3001, elapsed := 10 }) = true := by
  decide +kernel

/-- V-SP-2: `NUM 0`, R440. -/
theorem test_num_sp_2 :
    gives (start 0x00000005 { State.reset with rA := ⟨.plus, 39, 39, 39, 39, 39⟩, rX := ⟨.plus, 39, 39, 39, 39, 39⟩ })
      (fun s => { s with rA := ⟨.plus, 20, 2, 62, 15, 63⟩, ov := true, pc := 3001, elapsed := 10 }) = true := by
  decide +kernel

/-- V-SP-4: `CHAR 0`, R441. -/
theorem test_char_sp_4 :
    gives (start 0x00000045 { State.reset with rA := Word.ofMag .minus 12977699, rX := Word.ofMag .minus 0 })
      (fun s => { s with
        rA := ⟨.minus, 30, 30, 31, 32, 39⟩, rX := ⟨.minus, 37, 37, 36, 39, 39⟩, pc := 3001, elapsed := 10 }) = true := by
  decide +kernel

/-- V-SP-7: `MOVE 1000(3)`, R442. -/
theorem test_move_sp_7 :
    gives (start 0x0fa000c7 { State.reset with
      rI1 := Register2.ofMag .plus 1001, mem := [(1000, Word.ofMag .plus 1), (1001, Word.ofMag .plus 2),
      (1002, Word.ofMag .plus 3)] })
      (fun s => { s with rI1 := (⟨.plus, 15, 44⟩ : Register2), pc := 3001, elapsed := 7, mem :=
        (((s.mem.write 1001 ⟨.plus, 0, 0, 0, 0, 1⟩).write 1002 ⟨.plus, 0, 0, 0, 0, 1⟩).write 1003 ⟨.plus, 0, 0, 0, 0, 1⟩) }) = true := by
  decide +kernel

/-- V-SP-12: `MOVE 1000(1)`, R442. -/
theorem test_move_sp_12 :
    gives (start 0x0fa00047 { State.reset with rI1 := Register2.ofMag .minus 0, mem := [(1000, Word.ofMag .plus 9)] })
      (fun s => { s with rI1 := (⟨.plus, 0, 1⟩ : Register2), pc := 3001, elapsed := 3, mem :=
        (s.mem.write 0 ⟨.plus, 0, 0, 0, 0, 9⟩) }) = true := by
  decide +kernel

-- The index register forms, one word per register: C = base + k.

/-- The six index registers with their numbers. -/
def indices : List (IxReg × Nat) := [(.i1, 1), (.i2, 2), (.i3, 3), (.i4, 4), (.i5, 5), (.i6, 6)]

/-- The packed word of `± A F C`, I = 0. -/
def packed (a f c : Nat) : Nat := a * 262144 + f * 64 + c

/-- LDi 2000 with CONTENTS(2000) = (+, 0, 0, 0, 1, 2) gives rI[i] = (+, 1, 2), LDiN (−, 1, 2) (R144..R157). -/
theorem test_load_each_index :
    indices.all (fun p =>
      gives (start (packed 2000 5 (8 + p.2)) { State.reset with mem := [(2000, ⟨.plus, 0, 0, 0, 1, 2⟩)] })
        (fun s => { (s.setIndex p.1 ⟨.plus, 1, 2⟩) with pc := 3001, elapsed := 2 }) &&
      gives (start (packed 2000 5 (16 + p.2)) { State.reset with mem := [(2000, ⟨.plus, 0, 0, 0, 1, 2⟩)] })
        (fun s => { (s.setIndex p.1 ⟨.minus, 1, 2⟩) with pc := 3001, elapsed := 2 })) = true := by
  decide +kernel

/-- STi 2000 with rI[i] = −66 stores (−, 0, 0, 0, 1, 2) (R160..R165, V-LS-19). -/
theorem test_store_each_index :
    indices.all (fun p =>
      gives (start (packed 2000 5 (24 + p.2)) (State.reset.setIndex p.1 ⟨.minus, 1, 2⟩))
        (fun s => { s with mem := s.mem.write 2000 ⟨.minus, 0, 0, 0, 1, 2⟩, pc := 3001, elapsed := 2 })) = true := by
  decide +kernel

/-- CMPi 1000 with rI[i] = −3 and CONTENTS(1000) = +3 is LESS (R232..R237, V-CM-5). -/
theorem test_compare_each_index :
    indices.all (fun p =>
      gives (start (packed 1000 5 (56 + p.2))
          { (State.reset.setIndex p.1 ⟨.minus, 0, 3⟩) with mem := [(1000, ⟨.plus, 0, 0, 0, 0, 3⟩)] })
        (fun s => { s with ci := .less, pc := 3001, elapsed := 2 })) = true := by
  decide +kernel

/-- INCi 7 and DECi 7 on rI[i] = +3 give +10 and −4 (R332, R344..R365). -/
theorem test_increase_each_index :
    indices.all (fun p =>
      gives (start (packed 7 0 (48 + p.2)) (State.reset.setIndex p.1 ⟨.plus, 0, 3⟩))
        (fun s => { (s.setIndex p.1 ⟨.plus, 0, 10⟩) with pc := 3001, elapsed := 1 }) &&
      gives (start (packed 7 1 (48 + p.2)) (State.reset.setIndex p.1 ⟨.plus, 0, 3⟩))
        (fun s => { (s.setIndex p.1 ⟨.minus, 0, 4⟩) with pc := 3001, elapsed := 1 })) = true := by
  decide +kernel

/-- ENTi 66 gives (+, 1, 2), ENNi 66 gives (−, 1, 2) (R333, R346..R367). -/
theorem test_enter_each_index :
    indices.all (fun p =>
      gives (start (packed 66 2 (48 + p.2)) State.reset)
        (fun s => { (s.setIndex p.1 ⟨.plus, 1, 2⟩) with pc := 3001, elapsed := 1 }) &&
      gives (start (packed 66 3 (48 + p.2)) State.reset)
        (fun s => { (s.setIndex p.1 ⟨.minus, 1, 2⟩) with pc := 3001, elapsed := 1 })) = true := by
  decide +kernel

/-- The sign tests F = 0..5 (N, Z, P, NN, NZ, NP) and whether −1, −0 and +1 meet them (R265). -/
def signTests : List (Nat × Bool × Bool × Bool) :=
  [(0, true, false, false), (1, false, true, false), (2, false, false, true), (3, false, true, true),
    (4, true, false, true), (5, true, true, false)]

/-- A jump to 3010 is taken (rJ = 3001, PC = 3010) or not (PC = 3001). -/
def jumps (taken : Bool) (s : State) : State :=
  if taken then { s with rJ := ⟨.plus, 46, 57⟩, pc := 3010, elapsed := 1 } else { s with pc := 3001, elapsed := 1 }

/-- Each of J1N..J6NP on −1, −0 and +1 (R276..R311). -/
theorem test_jump_each_index :
    indices.all (fun p => signTests.all fun q =>
      gives (start (packed 3010 q.1 (40 + p.2)) (State.reset.setIndex p.1 ⟨.minus, 0, 1⟩)) (jumps q.2.1) &&
      gives (start (packed 3010 q.1 (40 + p.2)) (State.reset.setIndex p.1 ⟨.minus, 0, 0⟩)) (jumps q.2.2.1) &&
      gives (start (packed 3010 q.1 (40 + p.2)) (State.reset.setIndex p.1 ⟨.plus, 0, 1⟩)) (jumps q.2.2.2)) =
      true := by
  decide +kernel

/-- Each of JAN..JANP and JXN..JXNP on −1, −0 and +1 (R270..R275, R312..R317). -/
theorem test_jump_on_a_x :
    signTests.all (fun q =>
      gives (start (packed 3010 q.1 40) { State.reset with rA := ⟨.minus, 0, 0, 0, 0, 1⟩ }) (jumps q.2.1) &&
      gives (start (packed 3010 q.1 40) { State.reset with rA := ⟨.minus, 0, 0, 0, 0, 0⟩ }) (jumps q.2.2.1) &&
      gives (start (packed 3010 q.1 40) { State.reset with rA := ⟨.plus, 0, 0, 0, 0, 1⟩ }) (jumps q.2.2.2) &&
      gives (start (packed 3010 q.1 47) { State.reset with rX := ⟨.minus, 0, 0, 0, 0, 1⟩ }) (jumps q.2.1) &&
      gives (start (packed 3010 q.1 47) { State.reset with rX := ⟨.minus, 0, 0, 0, 0, 0⟩ }) (jumps q.2.2.1) &&
      gives (start (packed 3010 q.1 47) { State.reset with rX := ⟨.plus, 0, 0, 0, 0, 1⟩ }) (jumps q.2.2.2)) =
      true := by
  decide +kernel

/-- JAO and JXE with EXT_BINARY_OPS: 63 is odd, 62 is even (R319, R320). -/
theorem test_jump_on_parity :
    (gives (start (packed 3010 7 40)
        { State.reset with rA := ⟨.plus, 0, 0, 0, 0, 63⟩, cfg := { defaultConfig with extBinaryOps := true } })
        (jumps true) &&
      gives (start (packed 3010 6 47)
        { State.reset with rX := ⟨.plus, 0, 0, 0, 0, 62⟩, cfg := { defaultConfig with extBinaryOps := true } })
        (jumps true)) = true := by
  decide +kernel

/-- STX, LDX's fellow, and DECA, INCX, ENTX, the forms of rX and rA the vectors leave out (R166, R341, R368,
R370). -/
theorem test_forms_of_a_and_x :
    (gives (start (packed 2000 5 31) { State.reset with rX := ⟨.minus, 1, 2, 3, 4, 5⟩ })
        (fun s => { s with mem := s.mem.write 2000 ⟨.minus, 1, 2, 3, 4, 5⟩, pc := 3001, elapsed := 2 }) &&
      gives (start (packed 7 1 48) { State.reset with rA := ⟨.plus, 0, 0, 0, 0, 3⟩ })
        (fun s => { s with rA := ⟨.minus, 0, 0, 0, 0, 4⟩, pc := 3001, elapsed := 1 }) &&
      gives (start (packed 7 0 55) { State.reset with rX := ⟨.plus, 0, 0, 0, 0, 3⟩ })
        (fun s => { s with rX := ⟨.plus, 0, 0, 0, 0, 10⟩, pc := 3001, elapsed := 1 }) &&
      gives (start (packed 66 2 55) State.reset)
        (fun s => { s with rX := ⟨.plus, 0, 0, 0, 1, 2⟩, pc := 3001, elapsed := 1 })) = true := by
  decide +kernel

/-- A FLOAT_UNIT known on rA = +1 and CONTENTS(2000) = +2 alone. -/
def floatUnit : FloatUnit where
  arith :=
    [((.fadd, ⟨.plus, 0, 0, 0, 0, 1⟩, ⟨.plus, 0, 0, 0, 0, 2⟩), .ok ⟨.plus, 0, 0, 0, 0, 11⟩ false),
      ((.fsub, ⟨.plus, 0, 0, 0, 0, 1⟩, ⟨.plus, 0, 0, 0, 0, 2⟩), .ok ⟨.plus, 0, 0, 0, 0, 12⟩ true),
      ((.fmul, ⟨.plus, 0, 0, 0, 0, 1⟩, ⟨.plus, 0, 0, 0, 0, 2⟩), .ok ⟨.plus, 0, 0, 0, 0, 13⟩ false),
      ((.fdiv, ⟨.plus, 0, 0, 0, 0, 1⟩, ⟨.plus, 0, 0, 0, 0, 2⟩), .ok ⟨.plus, 0, 0, 0, 0, 14⟩ false),
      ((.fdiv, ⟨.plus, 0, 0, 0, 0, 1⟩, ⟨.plus, 0, 0, 0, 0, 0⟩), .fault)]
  conv :=
    [((.flot, ⟨.plus, 0, 0, 0, 0, 1⟩), .ok ⟨.plus, 0, 0, 0, 0, 15⟩ false),
      ((.fix, ⟨.plus, 0, 0, 0, 0, 1⟩), .ok ⟨.plus, 0, 0, 0, 0, 16⟩ true)]
  compare := [((⟨.plus, 0, 0, 0, 0, 1⟩, ⟨.plus, 0, 0, 0, 0, 2⟩, [(2000, ⟨.plus, 0, 0, 0, 0, 2⟩)]), .ok .less)]

/-- A machine with that FLOAT_UNIT, rA = +1 and CONTENTS(2000) = +2. -/
def floating : State :=
  { State.reset with
    rA := ⟨.plus, 0, 0, 0, 0, 1⟩
    mem := [(2000, ⟨.plus, 0, 0, 0, 0, 2⟩)]
    cfg := { defaultConfig with floatUnit := some floatUnit } }

/-- `exec` answers exactly `t`. -/
def answers (i : Instr) (s t : State) : Bool :=
  match exec i s with
  | .next u => decide (u = t)
  | .fault _ => false
  | .refused _ => false

/-- What the FLOAT_UNIT answers is written, OV turned on when it says so, and its fault is DivideError(M) (R195). -/
theorem test_floating :
    (answers (.fadd ⟨.plus, 2000, none⟩) floating
        { floating with rA := ⟨.plus, 0, 0, 0, 0, 11⟩, pc := 1, elapsed := 4 } &&
      answers (.fsub ⟨.plus, 2000, none⟩) floating
        { floating with rA := ⟨.plus, 0, 0, 0, 0, 12⟩, ov := true, pc := 1, elapsed := 4 } &&
      answers (.fmul ⟨.plus, 2000, none⟩) floating
        { floating with rA := ⟨.plus, 0, 0, 0, 0, 13⟩, pc := 1, elapsed := 9 } &&
      answers (.fdiv ⟨.plus, 2000, none⟩) floating
        { floating with rA := ⟨.plus, 0, 0, 0, 0, 14⟩, pc := 1, elapsed := 11 } &&
      answers (.fdiv ⟨.plus, 7, none⟩) floating (faulting .divideError ⟨4, 6⟩ (.value 7) floating) &&
      answers (.flot ⟨.plus, 7, none⟩) floating
        { floating with rA := ⟨.plus, 0, 0, 0, 0, 15⟩, pc := 1, elapsed := 3 } &&
      answers (.fix ⟨.plus, 7, none⟩) floating
        { floating with rA := ⟨.plus, 0, 0, 0, 0, 16⟩, ov := true, pc := 1, elapsed := 3 } &&
      answers (.fcmp ⟨.plus, 2000, none⟩) floating
        { floating with ci := .less, pc := 1, elapsed := 4 }) = true := by
  decide +kernel

/-- V-EA-19: a fetch at 4000 is MemBounds without C and F (R120, R462). -/
theorem test_fetch_outside :
    gives { State.reset with pc := 4000 }
      (fun s => { s with es := .faulted, fr := some ⟨.memBounds, 4000, none, .value 4000⟩ }) = true := by
  decide +kernel

/-- V-CT-4: a halted engine changes nothing (R516). -/
theorem test_halted : gives { State.reset with es := .halted } id = true := by decide +kernel

/-- V-JP-51: run-to-self-loop stops before JMP 3000 at 3000 (R261). -/
theorem test_self_loop :
    decide (runToSelfLoop 1 (start 0x2ee00027 State.reset) =
      some (.selfLoop, start 0x2ee00027 State.reset)) = true := by
  decide +kernel

/-- P1: HLT alone ends the run after one step with E = 10 (R518, 95_test_vectors.md P1). -/
theorem test_run_to_halt :
    ((State.reset.loadImage [(0, ⟨.plus, 0, 0, 0, 2, 5⟩)] 0).bind (runToHalt 2)).map
      (fun p => (p.1, p.2.pc, p.2.elapsed)) = some (.halted, 0, 10) := by
  decide +kernel

/-- The placed word is what the next step runs: LDA 2000 on empty memory loads +0 and takes 2 cycles. -/
theorem test_with_fetch_word :
    gives (State.reset.withFetchWord 31 0x1f400148) (fun s => { s with pc := 1, elapsed := 2 }) = true := by
  decide +kernel

/-- The device text "HELLO" is (+, 8, 5, 13, 13, 16) (R48, V-IO-1). -/
theorem test_text :
    wordOfText defaultConfig ['H', 'E', 'L', 'L', 'O'] = some ⟨.plus, 8, 5, 13, 13, 16⟩ ∧
      textOfWord defaultConfig ⟨.plus, 8, 5, 13, 13, 16⟩ = some ['H', 'E', 'L', 'L', 'O'] := by
  decide +kernel

-- Witnesses: concrete states and operands that meet the hypotheses of each statement, one clause after another
-- and at the boundary values of a clause's range.

/-- The address `± n` with no index register. -/
def atA (g : Sign) (n : Fin 4096) : Addr := ⟨g, n, none⟩

/-- The address of index register 1. -/
def at1 (n : Fin 4096) : Addr := ⟨.plus, n, some .i1⟩

/-- A machine whose words 0 and 3999 hold magnitudes 4095 and 4096, with rI1 = 4000, rI2 = −4095 and rA = −1. -/
def sample : State :=
  { State.reset with
    rA := ⟨.minus, 0, 0, 0, 0, 1⟩
    rI1 := ⟨.plus, 62, 32⟩
    rI2 := ⟨.minus, 63, 63⟩
    mem := [(0, ⟨.plus, 0, 0, 0, 63, 63⟩), (3999, ⟨.minus, 0, 0, 1, 0, 0⟩)] }

/-- The same machine with EXT_BINARY_OPS. -/
def extended : State := { sample with cfg := { defaultConfig with extBinaryOps := true } }

/-- The same machine with PC on the last word and just past it. -/
def atEnd : State := { sample with pc := 3999 }
def pastEnd : State := { sample with pc := 4000 }

/-- A machine whose word at 0 is `w`. -/
def holding (w : Word) : State := { State.reset with mem := [(0, w)] }

theorem witness_IntegerRoundTrip :
    (-1073741823 : Int).natAbs ≤ W - 1 ∧ (0 : Int).natAbs ≤ W - 1 ∧ W ≤ (1073741824 : Int).natAbs := by decide

/-- The smallest field (0:0), the whole word (0:5) and the last byte (5:5). -/
theorem witness_FieldExtraction_FieldInjection :
    (Field.mk 0 0).valid = true ∧ (Field.mk 0 5).valid = true ∧ (Field.mk 5 5).valid = true := by decide

theorem witness_TwoByteRegisters :
    toReg2 ⟨.minus, 0, 0, 0, 63, 63⟩ = some ⟨.minus, 63, 63⟩ ∧ (-4095 : Int).natAbs ≤ 4095 := by decide

theorem witness_DecodeEncode :
    (Instr.stj (atA .minus 4095) ⟨0, 2⟩).wf = true ∧
      ((Instr.stj (atA .minus 4095) ⟨0, 2⟩).isBinaryExt = true → false = true) ∧
      (Instr.slb (atA .plus 0)).wf = true ∧ ((Instr.slb (atA .plus 0)).isBinaryExt = true → true = true) := by
  decide

theorem witness_EncodeDecode : decode false ⟨.minus, 63, 63, 6, 45, 63⟩ = .ok
  (.cmpx ⟨.minus, 4095, some .i6⟩ ⟨5, 5⟩) := by
  decide +kernel

/-- An undefined F, an optional one, an invalid field, and an index byte 7 beside a legal (C, F). -/
theorem witness_IllegalEncodings :
    decode false ⟨.plus, 0, 0, 0, 3, 5⟩ = .error (.opcode ⟨5, 3⟩) ∧
      decode false ⟨.plus, 0, 0, 0, 6, 6⟩ = .error (.opcode ⟨6, 6⟩) ∧
      decode true ⟨.plus, 0, 0, 9, 46, 8⟩ = .error (.opcode ⟨8, 46⟩) ∧
      decode true ⟨.plus, 0, 0, 7, 5, 8⟩ = .error (.index ⟨8, 5⟩ 7) := by
  decide +kernel

theorem witness_StepRunsDecodedInstruction :
    (holding ⟨.plus, 31, 16, 0, 5, 8⟩).es = .running ∧ InMemory (holding ⟨.plus, 31, 16, 0, 5, 8⟩).pc ∧
      decode (holding ⟨.plus, 31, 16, 0, 5, 8⟩).cfg.extBinaryOps
        ((holding ⟨.plus, 31, 16, 0, 5, 8⟩).mem.read (holding ⟨.plus, 31, 16, 0, 5, 8⟩).pc.toNat) =
        .ok (.lda ⟨.plus, 2000, none⟩ ⟨0, 5⟩) ∧
      (holding ⟨.plus, 31, 16, 0, 5, 8⟩).mem.read (holding ⟨.plus, 31, 16, 0, 5, 8⟩).pc.toNat =
        encode (.lda ⟨.plus, 2000, none⟩ ⟨0, 5⟩) ∧
      InMemory atEnd.pc := by
  decide +kernel

theorem witness_StepRunsDecodedInstruction_decodes : sample.decodes (.lda ⟨.plus, 2000, none⟩ ⟨0, 5⟩) :=
  ⟨rfl, by decide⟩

theorem witness_FetchFaults :
    (pastEnd.es = .running ∧ ¬ InMemory pastEnd.pc) ∧
      decode (holding ⟨.plus, 0, 0, 0, 3, 5⟩).cfg.extBinaryOps ((holding ⟨.plus, 0, 0, 0, 3, 5⟩).mem.read 0) =
        .error (.opcode ⟨5, 3⟩) ∧
      decode (holding ⟨.plus, 0, 0, 63, 0, 0⟩).cfg.extBinaryOps ((holding ⟨.plus, 0, 0, 63, 0, 0⟩).mem.read 0) =
        .error (.index ⟨0, 0⟩ 63) := by
  decide +kernel

theorem witness_StoppedEngine :
    ({ sample with es := .halted } : State).es ≠ .running ∧ ({ sample with
      es := .faulted } : State).es ≠ .running := by
  decide

/-- JMP 0 at 0 stops the self-loop run; NOP at 0 does not. -/
theorem witness_SelfLoopStop :
    stepSelfLoop (holding ⟨.plus, 0, 0, 0, 0, 39⟩) = none ∧ (stepSelfLoop State.reset).isSome = true ∧
      decode false ((holding ⟨.plus, 0, 0, 0, 0, 39⟩).mem.read 0) = .ok (.jmp (atA .plus 0)) ∧
      (holding ⟨.plus, 0, 0, 0, 0, 39⟩).effAddr (atA .plus 0) = (holding ⟨.plus, 0, 0, 0, 0, 39⟩).pc := by
  decide +kernel

/-- M = 4096 and M = −4096, one past the range. -/
theorem witness_AddressRange :
    sample.decodes (.jmp (at1 96)) ∧ 4095 < (sample.effAddr (at1 96)).natAbs ∧
      4095 < (sample.effAddr ⟨.minus, 1, some .i2⟩).natAbs :=
  ⟨⟨rfl, by decide⟩, by decide, by decide⟩

/-- M = 4000, M = 4095 and M = −1; a floating kind with FLOAT_UNIT present. -/
theorem witness_OperandOutsideMemory :
    sample.decodes (.lda (at1 0) ⟨0, 5⟩) ∧ (sample.effAddr (at1 0)).natAbs ≤ 4095 ∧ ¬ InMemory (sample.effAddr
      (at1 0)) ∧
      (sample.effAddr (at1 95)).natAbs ≤ 4095 ∧ ¬ InMemory (sample.effAddr (atA .minus 1)) ∧
      8 ≤ (Instr.lda (at1 0) ⟨0, 5⟩).code.c.val ∧ (Instr.lda (at1 0) ⟨0, 5⟩).code.f.val ≠ 6 ∧
      floating.decodes (.fadd (atA .plus 4000)) ∧ floating.cfg.floatUnit ≠ none :=
  ⟨⟨rfl, by decide⟩, by decide, by decide, by decide, by decide, by decide, by decide, ⟨rfl, by decide⟩,
    by decide⟩

/-- The invariant holds of a state that no reset gives, and its step answers. -/
theorem witness_StepKeepsInvariant : atEnd.Inv ∧ ∃ t, step atEnd = .next t :=
  ⟨{ config := by decide +kernel
     memory := by decide +kernel
     jump := rfl
     counter := by decide
     record := by unfold recordOk; decide
     devices := by unfold deviceOk; decide +kernel }, _, rfl⟩

theorem witness_ResetInvariant : configOk defaultConfig = true := by decide +kernel

/-- A faulting step: PC past the end; and an undefined word in memory. -/
theorem witness_PreciseFaults :
    (pastEnd.es = .running ∧ ¬ InMemory pastEnd.pc ∧
      gives pastEnd (fun s => { s with es := .faulted, fr := some ⟨.memBounds, 4000, none, .value 4000⟩ }) = true) ∧
      (InMemory (holding ⟨.plus, 0, 0, 0, 3, 5⟩).pc ∧
        gives (holding ⟨.plus, 0, 0, 0, 3, 5⟩) (faulting .decodeFailure ⟨5, 3⟩ (.opcode ⟨5, 3⟩)) = true) := by
  decide +kernel

/-- A completed instruction, a faulting one, and the premise of every frame: exec answers a next state. -/
theorem witness_ElapsedAccounting_frames :
    sample.es ≠ .faulted ∧
      answers (.nop (atA .plus 0) 0) sample { sample with pc := 1, elapsed := 1 } = true ∧
      answers (.sla (atA .minus 1)) sample (faulting .negativeShift ⟨6, 0⟩ (.value (-1)) sample) = true ∧
      answers (.sta (atA .plus 0) ⟨0, 5⟩) sample
        { sample with mem := sample.mem.write 0 ⟨.minus, 0, 0, 0, 0, 1⟩, pc := 1, elapsed := 2 } = true ∧
      sample.mem.wf memSize = true := by
  decide +kernel

theorem witness_DefaultCosts :
    defaultConfig.costs = [] ∧ (Field.mk 0 5).valid = true ∧ (Instr.srb (atA .plus 0)).code.c.val = 6 ∧
      (Instr.lda (atA .plus 0) ⟨0, 5⟩).code.c.val = 8 ∧ (Instr.stz (atA .plus 0) ⟨0, 5⟩).code.c.val = 33 ∧
      (Instr.jbus (atA .plus 0) 0).code.c.val = 34 ∧ (Instr.ennx (atA .plus 0)).code.c.val = 55 ∧
      (Instr.cmp1 (atA .plus 0) ⟨0, 5⟩).code.c.val = 57 := by
  decide

/-- A configuration whose second row names LDA, by another field than the instruction has; its first is MOVE's
with F = 3, which names no LDA and no MOVE with another F (R530). -/
def rowsConfig : Config := { defaultConfig with costs := [⟨7, 3, 6⟩, ⟨8, 5, 9⟩, ⟨8, 13, 4⟩] }

theorem witness_DefaultCosts_rows :
    rowsConfig.costs = [⟨7, 3, 6⟩] ++ ⟨8, 5, 9⟩ :: [⟨8, 13, 4⟩] ∧ configOk rowsConfig = true ∧
      SameCost (CostRow.mk 8 5 9).code (Instr.lda (atA .plus 0) ⟨1, 3⟩).code ∧
      ¬ SameCost (CostRow.mk 7 3 6).code (Instr.lda (atA .plus 0) ⟨1, 3⟩).code ∧
      ∀ x ∈ rowsConfig.costs, ¬ SameCost x.code (Instr.move (atA .plus 0) 2).code := by
  unfold SameCost OperandCode FloatCode
  decide +kernel

/-- One cost for LDA under every field, and MOVE's by its F alone (R530). -/
theorem test_cost_by_kind :
    costOf rowsConfig ⟨8, 11⟩ = 9 ∧ costOf rowsConfig ⟨7, 3⟩ = 6 ∧ costOf rowsConfig ⟨7, 2⟩ = 5 ∧
      costOf rowsConfig ⟨7, 4⟩ = 9 := by
  decide +kernel

/-- M = 0 and M = 3999, values 4095 and −4096, and M = 4000. The same operands serve the negated loads. -/
theorem witness_Load_LoadNegated :
    (Field.mk 0 5).valid = true ∧ InMemory (sample.effAddr (atA .plus 0)) ∧ InMemory (sample.effAddr
      (atA .plus 3999)) ∧
      (field (sample.mem.read 0) ⟨0, 5⟩).val.natAbs ≤ 4095 ∧ 4095 < (field (sample.mem.read 3999) ⟨0, 5⟩).val.natAbs ∧
      ¬ InMemory (sample.effAddr (at1 0)) ∧ (sample.effAddr (at1 0)).natAbs ≤ 4095 := by
  decide +kernel

theorem witness_Store_Compare_AddLaws_Multiply :
    (Field.mk 4 5).valid = true ∧ (Field.mk 0 0).valid = true ∧ sample.mem.wf memSize = true ∧
      InMemory (sample.effAddr (atA .plus 3999)) ∧ ¬ InMemory (sample.effAddr (atA .plus 4000)) ∧
      (sample.effAddr (atA .plus 4000)).natAbs ≤ 4095 ∧ (sample.effAddr (atA .minus 4095)).natAbs ≤ 4095 := by
  decide +kernel

/-- A divisor just above mag(rA), one equal to it, and zero. -/
theorem witness_Divide :
    (field (sample.mem.read 0) ⟨5, 5⟩).mag ≠ 0 ∧ sample.rA.mag < (field (sample.mem.read 0) ⟨5, 5⟩).mag ∧
      (field (sample.mem.read 3999) ⟨3, 3⟩).mag ≤ sample.rA.mag ∧ (field (sample.mem.read 5) ⟨0, 5⟩).mag = 0 := by
  decide +kernel

/-- FLOAT_UNIT absent; present with a result, and with a fault, for a memory kind, a kind of rA alone and FCMP. -/
theorem witness_Floating :
    sample.cfg.floatUnit = none ∧ floating.cfg.floatUnit = some floatUnit ∧
      InMemory (floating.effAddr (atA .plus 2000)) ∧
      floatArith floatUnit .fadd floating.rA (floating.mem.read 2000) = .ok ⟨.plus, 0, 0, 0, 0, 11⟩ false ∧
      floatArith floatUnit .fdiv floating.rA (floating.mem.read 7) = .fault ∧
      floatConv floatUnit .flot floating.rA = .ok ⟨.plus, 0, 0, 0, 0, 15⟩ false ∧
      floatConv floatUnit .fix floating.rA = .ok ⟨.plus, 0, 0, 0, 0, 16⟩ true ∧
      floatArith floatUnit .fsub floating.rA (floating.mem.read 2000) = .ok ⟨.plus, 0, 0, 0, 0, 12⟩ true ∧
      floatArith floatUnit .fmul floating.rA (floating.mem.read 2000) = .ok ⟨.plus, 0, 0, 0, 0, 13⟩ false ∧
      floatArith floatUnit .fdiv floating.rA (floating.mem.read 2000) = .ok ⟨.plus, 0, 0, 0, 0, 14⟩ false ∧
      floatCompare floatUnit floating.rA (floating.mem.read 2000) floating.mem = .ok .less := by
  decide +kernel

/-- A FLOAT_UNIT whose FCMP faults. -/
theorem witness_Floating_compare_fault :
    floatCompare ⟨[], [], [((sample.rA, sample.mem.read 0, sample.mem), .fault)]⟩ sample.rA
      (sample.mem.read 0) sample.mem =
      .fault := by
  decide +kernel

/-- Counts 0 and 4095, and −1 and −4095. -/
theorem witness_shifts :
    0 ≤ sample.effAddr (atA .plus 0) ∧ 0 ≤ sample.effAddr (atA .plus 4095) ∧ sample.effAddr (atA .plus 4095) ≤ 4095 ∧
      -4095 ≤ sample.effAddr (atA .minus 4095) ∧ sample.effAddr (atA .minus 1) < 0 ∧
      extended.cfg.extBinaryOps = true ∧ sample.cfg.extBinaryOps = false ∧
      0 ≤ extended.effAddr (atA .plus 4095) ∧ extended.effAddr (atA .minus 1) < 0 := by
  decide +kernel

/-- Counts 4 and 9, the last that the laws of R217 cover. -/
theorem witness_ShiftLaws :
    (sample.effAddr (atA .plus 4)).toNat ≤ 4 ∧ (sample.effAddr (atA .plus 9)).toNat ≤ 9 ∧
      (∃ t, exec (.sla (atA .plus 4)) sample = .next t) ∧ (∃ t, exec (.sra (atA .plus 4)) sample = .next t) ∧
      (∃ t, exec (.slax (atA .plus 9)) sample = .next t) ∧ (∃ t, exec (.srax (atA .plus 9)) sample = .next t) :=
  ⟨by decide, by decide, ⟨_, rfl⟩, ⟨_, rfl⟩, ⟨_, rfl⟩, ⟨_, rfl⟩⟩

/-- Jumps from the first and the last word, to 0 and 3999, and to 4000 outside. -/
theorem witness_jumps :
    InMemory sample.pc ∧ InMemory atEnd.pc ∧ InMemory (sample.effAddr (atA .plus 0)) ∧
      InMemory (sample.effAddr (atA .plus 3999)) ∧ ¬ InMemory (sample.effAddr (atA .plus 4000)) ∧
      (sample.effAddr (atA .plus 4000)).natAbs ≤ 4095 := by
  decide +kernel

theorem witness_OverflowJumps : sample.ov = false ∧ ({ sample with ov := true } : State).ov = true := by decide

/-- CI = EQUAL takes JE, JGE, JLE and not JL, JG, JNE. -/
theorem witness_ComparisonJumps :
    sample.ci = .equal ∧ (sample.ci = .greater ∨ sample.ci = .equal) ∧ ¬
      (sample.ci = .less ∨ sample.ci = .greater) := by
  decide

/-- rA = −1 is negative, rX = +0 is zero, rI1 = 4000 is positive. -/
theorem witness_RegisterJumps :
    SignTest.holds (TestedRegister.value sample .a) .n ∧ SignTest.holds (TestedRegister.value sample .x) .z ∧
      SignTest.holds (TestedRegister.value sample (.index .i1)) .p ∧
      ¬ SignTest.holds (TestedRegister.value sample .a) .nn ∧
      SignTest.holds (TestedRegister.value sample (.index .i2)) .nz ∧
      SignTest.holds (TestedRegister.value sample .x) .np := by
  unfold SignTest.holds
  decide +kernel

theorem witness_RegisterJumps_parity :
    decide (extended.rA.val % 2 ≠ 0) = true ∧ decide (extended.rX.val % 2 = 0) = true ∧
      decide (extended.rA.val % 2 = 0) = false ∧ extended.cfg.extBinaryOps = true ∧
      sample.cfg.extBinaryOps = false := by
  decide +kernel

/-- rI1 = 4000 plus 95 and plus 96; a zero result. -/
theorem witness_IncreaseIndex :
    ((sample.index .i1).val + sample.effAddr (atA .plus 95)).natAbs ≤ 4095 ∧
      4095 < ((sample.index .i1).val + sample.effAddr (atA .plus 96)).natAbs ∧
      (sample.index .i1).val - sample.effAddr (atA .plus 4000) = 0 := by
  decide +kernel

/-- M = 4095, and the two zeros +0 and −0 of an instruction word. -/
theorem witness_EnterRegister :
    (sample.effAddr (atA .plus 4095)).natAbs ≤ 4095 ∧ sample.effAddr (atA .plus 0) = 0 ∧
      sample.effAddr (atA .minus 0) = 0 := by
  decide +kernel

/-- A machine at E = 11 whose card reader is busy until 11, whose tape 3 stands at word 700 and whose disk 8 is
aimed at its last block. -/
def busy : State :=
  withUnitState 16 ⟨[(0, ⟨.plus, 8, 5, 13, 13, 16⟩)], 0, .busyRead, 11⟩
    (withUnitState 3 ⟨[], 700, .ready, 0⟩ { State.reset with elapsed := 11, rX := ⟨.plus, 0, 0, 0, 1, 35⟩ })

/-- The same one cycle later, when the reader is ready (R383). -/
def ready : State := { busy with elapsed := 12 }

/-- The busy machine under BUSY_POLICY = WAIT. -/
def waiting : State := { busy with cfg := { defaultConfig with busyPolicy := .wait } }

theorem witness_BusyJumps :
    InMemory busy.pc ∧ 20 < (21 : Byte).val ∧ (16 : Unit21).val = (16 : Byte).val ∧ (20 : Unit21).val =
      (20 : Byte).val ∧
      ¬ ReadyAt busy.dev[(16 : Unit21)] busy.elapsed ∧ ReadyAt ready.dev[(16 : Unit21)] ready.elapsed := by
  unfold ReadyAt
  decide +kernel

/-- IN waits for the busy reader under WAIT and completes; it waits for no ready unit, and NOP for none. -/
theorem witness_ElapsedAccounting_waits :
    waiting.es ≠ .faulted ∧ waiting.WaitsFor (.ioIn (atA .plus 1000) 16) 16 ∧
      (∀ u, ¬ ready.WaitsFor (.ioIn (atA .plus 1000) 16) u) ∧ (∀ u, ¬ waiting.WaitsFor (.nop (atA .plus 0) 0) u) ∧
      (match exec (.ioIn (atA .plus 1000) 16) waiting with
        | .next t => decide (t.es = .running ∧ t.elapsed = 13)
        | _ => false) = true := by
  unfold State.WaitsFor ReadyAt
  decide +kernel

/-- A ready unit starts at E0 = E; a busy one under WAIT at deadline + 1. -/
theorem witness_starts : StartsAt ready 16 12 ∧ StartsAt waiting 16 12 ∧ StartsAt busy 3 11 ∧ StartsAt busy 8 11 := by
  unfold StartsAt ReadyAt
  decide +kernel

/-- The reader's block from word 0, the disk's last block 99, a block that ends at word 3999 of memory. -/
theorem witness_InputBlock :
    (ready.unit 16).canIn = true ∧ 0 ≤ ready.effAddr (atA .plus 3984) ∧
      ready.effAddr (atA .plus 3984) + (ready.unit 16).block ≤ 4000 ∧ BlockAt ready 16 0 ∧ BlockAt waiting 16 0 ∧
      (busy.unit 8).canIn = true ∧ BlockAt busy 8 9900 ∧ ready.mem.wf memSize = true := by
  unfold BlockAt
  decide +kernel

/-- A tape's block from its cursor and the disk's last block. -/
theorem witness_OutputBlock :
    (busy.unit 3).canOut = true ∧ 0 ≤ busy.effAddr (atA .plus 0) ∧
      busy.effAddr (atA .plus 0) + (busy.unit 3).block ≤ 4000 ∧ BlockAt busy 3 700 ∧ BlockAt busy 8 9900 ∧
      busy.dev[(3 : Unit21)].buf.wf (busy.unit 3).cap = true := by
  unfold BlockAt
  decide +kernel

/-- Tape 3: rewind, 93 blocks forward to CAP, 9 blocks back to the start; the printer's page; the paper tape;
the disk. -/
theorem witness_ControlOperation :
    ControlCursor busy 3 0 0 ∧ ControlCursor busy 3 93 10000 ∧ ControlCursor busy 3 (-9) 0 ∧
      ControlCursor busy 3 (-3) 400 ∧ (10000 : Nat) ≤ (busy.unit 3).cap ∧ ControlCursor busy 18 0 1440 ∧
      (1440 : Nat) ≤ (busy.unit 18).cap ∧ ControlCursor busy 20 0 0 ∧ ControlCursor busy 8 0 0 :=
  ⟨⟨by decide, by decide, by decide⟩, ⟨by decide, by decide, by decide⟩, ⟨by decide, by decide, by decide⟩,
    ⟨by decide, by decide, by decide⟩, by decide, (rfl : 1440 = (0 / (24 * 60) + 1) * (24 * 60)), by decide, rfl, rfl⟩

theorem witness_ControlOperation_defined :
    ControlDefined (busy.unit 3).kind 93 ∧ ControlDefined (busy.unit 18).kind 0 ∧ ControlDefined
      (busy.unit 20).kind 0 ∧
      ControlDefined (busy.unit 8).kind 0 ∧ ControlForward (busy.unit 3).kind 93 ∧
      ControlForward (busy.unit 18).kind 0 ∧ StartsAt busy 18 11 ∧ StartsAt busy 20 11 := by
  unfold ControlDefined ControlForward StartsAt ReadyAt
  decide +kernel

/-- Each fault's premise: unit 21; a reader that cannot output, a reader with no control operation; busy under
FATAL; a block at 3985 that leaves memory; a cursor at CAP and a disk block past CAP; 94 blocks forward. -/
theorem witness_InputOutputFaults :
    20 < (21 : Byte).val ∧ ¬ (busy.unit 16).canOut = true ∧ ¬ (busy.unit 17).canIn = true ∧
      ¬ ControlDefined (busy.unit 16).kind 0 ∧ ¬ ControlDefined (busy.unit 8).kind 1 ∧
      ¬ ReadyAt busy.dev[(16 : Unit21)] busy.elapsed ∧ busy.cfg.busyPolicy = .fatal ∧
      3999 < ready.effAddr (atA .plus 3985) + (ready.unit 16).block - 1 ∧
      (busy.unit 3).cap < 700 + 94 * (busy.unit 3).block := by
  unfold ControlDefined ReadyAt
  decide +kernel

/-- No block begins anywhere when the cursor is at CAP or the disk's block number is 100. -/
theorem witness_InputOutputFaults_range :
    (∀ base, ¬ BlockAt (withUnitState 16 ⟨[], 1600, .ready, 0⟩ State.reset) 16 base) ∧
      ∀ base, ¬ BlockAt { State.reset with rX := ⟨.plus, 0, 0, 0, 1, 36⟩ } 8 base :=
  ⟨fun _ h => absurd h.2 (by decide +kernel), fun _ h => absurd h.2.1 (by decide +kernel)⟩

/-- All twenty decimal digits have a sum to be n. -/
theorem witness_DecimalConversion :
    (sample.effAddr (atA .plus 0)).natAbs ≤ 4095 ∧
      (1 : Nat) = ∑ i ∈ Finset.range 10, (pairByte State.reset.rA ⟨.plus, 0, 0, 0, 0, 31⟩
        (i + 1)).val % 10 * 10 ^ (9 - i) := by
  decide +kernel

/-- A machine whose rI1 is 3997, the last start of three words. -/
def moving : State := { State.reset with rI1 := ⟨.plus, 62, 29⟩ }

/-- Each clause of MOVE: M = 4000; F = 0 at 3999; a source past 3999; a destination past 3999 and one below 0; and
the largest runs that fit. -/
theorem witness_Move :
    moving.mem.wf memSize = true ∧ ¬ InMemory (moving.effAddr (atA .plus 4000)) ∧
      InMemory (moving.effAddr (atA .plus 3999)) ∧ 3999 < moving.effAddr (atA .plus 3998) + (3 : Byte).val - 1 ∧
      moving.effAddr (atA .plus 3997) + (3 : Byte).val - 1 ≤ 3999 ∧ 3999 < moving.rI1.val + (4 : Byte).val - 1 ∧
      0 ≤ moving.rI1.val ∧ moving.rI1.val + (3 : Byte).val - 1 ≤ 3999 ∧
      ({ moving with rI1 := ⟨.minus, 0, 1⟩ } : State).rI1.val < 0 := by
  decide +kernel

/-- An image of the first and the last word; one with an address past the last, one with a byte past 63. -/
theorem witness_LoadImage :
    (([(0, ⟨.plus, 0, 0, 0, 2, 5⟩), (3999, ⟨.minus, 63, 63, 63, 63, 63⟩)] : List
      (Int × RawWord)).map Prod.fst).Nodup ∧
      (∀ p ∈ ([(0, ⟨.plus, 0, 0, 0, 2, 5⟩), (3999, ⟨.minus, 63, 63, 63, 63, 63⟩)] : List (Int × RawWord)),
        InMemory p.1 ∧ p.2.check ≠ none) ∧
      ¬ InMemory (4000 : Int) ∧ (RawWord.mk .plus 0 0 0 0 64).check = none := by
  decide +kernel

/-- A load with the start 4001, a seed of rJ and a refused seed after it. -/
def launchOps : List HostOp :=
  [.loadImage [(0, ⟨.plus, 0, 0, 0, 2, 5⟩)] 4001, .seedJ ⟨.plus, 1, 0⟩, .seedMemory 4000 ⟨.plus, 0, 0, 0, 0, 1⟩]

theorem witness_LaunchPremises : ∀ o ∈ launchOps, o.keepsJump := by
  simp [launchOps, HostOp.keepsJump]

/-- The launch that a start of 4001 gives: RUNNING, outside the PC range of R53, and MemBounds(4001) (R511). -/
theorem test_launch_outside :
    (State.reset.hostReset.hostOps launchOps).pc = 4001 ∧ (State.reset.hostReset.hostOps launchOps).es = .running ∧
      (State.reset.hostReset.hostOps launchOps).rJ = ⟨.plus, 1, 0⟩ ∧
      (match step (State.reset.hostReset.hostOps launchOps) with
        | .next t => decide (t.fr = some ⟨.memBounds, 4001, none, .value 4001⟩)
        | _ => false) = true := by
  decide +kernel

theorem witness_CharacterTable : (characters defaultConfig).Nodup ∧ (55 : Byte).val < 56 ∧ 56 ≤ (56 : Byte).val := by
  decide +kernel

/-- Memory word 3999, buffer word 1599 of the reader, and what is refused beside them. -/
theorem witness_HostSeeding :
    sample.mem.wf memSize = true ∧ InMemory (3999 : Int) ∧
      (RawWord.mk .minus 0 0 0 0 63).check = some ⟨.minus, 0, 0, 0, 0, 63⟩ ∧ ¬ InMemory (4000 : Int) ∧
      1599 < (sample.unit 16).cap ∧ sample.dev[(16 : Unit21)].buf.wf (sample.unit 16).cap = true ∧
      ((sample.unit 16).cap : Int) ≤ 1600 := by
  decide +kernel

end Sys2Proof.Tests
end

section
/-! PROOFS of the family 10_state.md, first part: what each instruction can write, one fact per piece of state,
and the obligations about the invariant, the registers' writers and the flags. -/

namespace Sys2Proof.Machine

section WrittenState

variable {i : Instr} {s u t : State} {pc : Int}

-- What the writes of an instruction do to each piece of state: case analyses of `Writes`.

theorem Writes.cfg_eq (h : Writes i s u pc) : u.cfg = s.cfg := by
  cases h with
  | index k r => exact State.setIndex_cfg s k r
  | _ => rfl

theorem Writes.fr_eq (h : Writes i s u pc) : u.fr = s.fr := by
  cases h with
  | index k r => exact State.setIndex_fr s k r
  | _ => rfl

/-- ES is written by HLT alone (R431). -/
theorem Writes.es_eq (h : Writes i s u pc) :
    u.es = s.es ∨ u.es = .halted ∧ i.code.c.val = 5 ∧ i.code.f.val = 2 := by
  cases h with
  | halt hc => exact .inr ⟨rfl, hc⟩
  | index k r => exact .inl (State.setIndex_es s k r)
  | _ => exact .inl rfl

/-- rJ is written by the jumps but JSJ, and always with the return address (R43, R250). -/
theorem Writes.rJ_eq (h : Writes i s u pc) :
    u.rJ = s.rJ ∨ u.rJ = returnAddress s.pc ∧
      (i.code.c.val = 34 ∨ i.code.c.val = 38 ∨ i.code.c.val = 39 ∧ i.code.f.val ≠ 1 ∨
        40 ≤ i.code.c.val ∧ i.code.c.val ≤ 47) := by
  cases h with
  | index k r => exact .inl (State.setIndex_rJ s k r)
  | jump | jumpClear | jumpPoll => exact .inr ⟨rfl, by omega⟩
  | _ => exact .inl rfl

theorem Writes.rA_writers (h : Writes i s u pc) (hne : u.rA ≠ s.rA) :
    1 ≤ i.code.c.val ∧ i.code.c.val ≤ 4 ∨ i.code.c.val = 5 ∧ i.code.f.val ≠ 2 ∨ i.code.c.val ∈ [6, 8, 16, 48] := by
  simp only [List.mem_cons, List.not_mem_nil, or_false]
  cases h with
  | wordA | sumA | pair => omega
  | index k r => exact absurd (State.setIndex_rA s k r) hne
  | _ => exact absurd rfl hne

theorem Writes.rX_writers (h : Writes i s u pc) (hne : u.rX ≠ s.rX) :
    (i.code.c.val = 3 ∨ i.code.c.val = 4) ∧ i.code.f.val ≠ 6 ∨ i.code.c.val = 5 ∧ i.code.f.val = 1 ∨
      i.code.c.val = 6 ∧ 2 ≤ i.code.f.val ∨ i.code.c.val ∈ [15, 23, 55] := by
  simp only [List.mem_cons, List.not_mem_nil, or_false]
  cases h with
  | wordX | sumX | pair => omega
  | index k r => exact absurd (State.setIndex_rX s k r) hne
  | _ => exact absurd rfl hne

theorem Writes.index_writers (h : Writes i s u pc) {k : IxReg} (hne : u.index k ≠ s.index k) :
    i.code.c.val = 8 + indexNumber k ∨ i.code.c.val = 16 + indexNumber k ∨ i.code.c.val = 48 + indexNumber k ∨
      k = .i1 ∧ i.code.c.val = 7 := by
  cases h with
  | index j r hc =>
    obtain rfl : k = j := by
      by_contra hkj
      exact hne (State.index_setIndex_ne s r hkj)
    omega
  | move hc =>
    cases k with
    | i1 => exact .inr (.inr (.inr ⟨rfl, hc⟩))
    | _ => exact absurd rfl hne
  | _ => cases k <;> exact absurd rfl hne

theorem Writes.ov_on (h : Writes i s u pc) (hs : s.ov = false) (hu : u.ov = true) :
    i.code.c.val = 1 ∨ i.code.c.val = 2 ∨ (i.code.c.val = 3 ∨ i.code.c.val = 4) ∧ i.code.f.val = 6 ∨
      i.code.c.val = 5 ∧ i.code.f.val ∈ [0, 6, 7] ∨
      (i.code.c.val = 48 ∨ i.code.c.val = 55) ∧ i.code.f.val < 2 := by
  simp only [List.mem_cons, List.not_mem_nil, or_false]
  cases h with
  | sumA | sumX => omega
  | jumpClear | clear => cases hu
  | index k r => rw [State.setIndex_ov, hs] at hu; cases hu
  | _ => exact absurd (hs.symm.trans hu) Bool.false_ne_true

theorem Writes.ov_off (h : Writes i s u pc) (hs : s.ov = true) (hu : u.ov = false) :
    i.code.c.val = 39 ∧ (i.code.f.val = 2 ∨ i.code.f.val = 3) := by
  cases h with
  | jumpClear | clear => omega
  | sumA | sumX => simp [hs] at hu
  | index k r => rw [State.setIndex_ov, hs] at hu; cases hu
  | _ => exact absurd (hu.symm.trans hs) Bool.false_ne_true

theorem Writes.ci_writers (h : Writes i s u pc) (hne : u.ci ≠ s.ci) : 56 ≤ i.code.c.val := by
  cases h with
  | compare x hc => exact hc
  | index k r => exact absurd (State.setIndex_ci s k r) hne
  | _ => exact absurd rfl hne

/-- A piece of state that neither taking a fault nor the commit touches changes only by the instruction's writes. -/
theorem exec_changes {α : Type} {g : State → α} (h : exec i s = .next t)
    (hf : ∀ op e, g (s.takeFault op e) = g s) (hc : ∀ (u : State) op pc, g (u.commit op pc) = g u)
    (hne : g t ≠ g s) : ∃ u pc, Writes i s u pc ∧ g u = g t := by
  obtain ⟨e, rfl⟩ | ⟨u, pc, hw, rfl⟩ := exec_next h
  · exact absurd (hf _ e) hne
  · exact ⟨u, pc, hw, (hc u _ pc).symm⟩

end WrittenState

section Invariant

variable {i : Instr} {s u : State} {pc : Int}

/-- Taking a fault keeps the invariant: ES and FR change together (R462). -/
theorem State.Inv.takeFault (hs : s.Inv) (op : Option OpCode) (e : Raise) : (s.takeFault op e).Inv where
  config := hs.config
  memory := hs.memory
  jump := hs.jump
  counter := hs.counter
  record := iff_of_true rfl rfl
  devices := hs.devices

/-- The commit of writes that keep the data model keeps the invariant, if the next PC is in 0..4000. -/
theorem State.Inv.commit (hu : u.Inv) (op : OpCode) (hpc : 0 ≤ pc ∧ pc ≤ 4000) : (u.commit op pc).Inv where
  config := hu.config
  memory := hu.memory
  jump := hu.jump
  counter := hpc
  record := hu.record
  devices := hu.devices

/-- The next PC is PC, PC + 1 or the target of a jump, and the fetch has found PC in memory (R53, R121). -/
theorem Writes.counter (h : Writes i s u pc) (hm : InMemory s.pc) : 0 ≤ pc ∧ pc ≤ 4000 := by
  obtain ⟨h0, h1⟩ := hm
  cases h with
  | jump _ ht | jumpClear _ ht | goTo _ ht | jumpPoll _ _ _ ht => exact ⟨ht.1, by have := ht.2; omega⟩
  | _ => omega

/-- PC itself is written by the commit alone. -/
theorem Writes.pc_eq (h : Writes i s u pc) : u.pc = s.pc := by
  cases h with
  | index k r => exact State.setIndex_pc s k r
  | _ => rfl

/-- A store, MOVE and IN write inside the 4000 words (R80). -/
theorem Writes.memory_wf (h : Writes i s u pc) (hs : s.mem.wf memSize = true) : u.mem.wf memSize = true := by
  cases h with
  | store w hm => exact Memory.write_wf hs (by obtain ⟨h0, h1⟩ := hm; simp only [memSize]; omega)
  | move _ hd hn => exact Memory.move_wf hs (by simp only [memSize]; omega)
  | input n _ e0 base _ _ h0 h1 => exact Memory.copy_wf hs (by simp only [memSize]; omega)
  | index k r => rw [State.setIndex_mem]; exact hs
  | _ => exact hs

/-- Every unit stays as `deviceOk` says when one is given a device state that does. -/
theorem devices_set {n : Unit21} {d : Device} (hs : ∀ v : Unit21, deviceOk (s.unit v) s.dev[v])
    (hd : deviceOk (s.unit n) d) (v : Unit21) : deviceOk (s.unit v) (s.dev.set n d)[v] := by
  by_cases hv : v = n
  · subst hv
    exact (State.dev_setDev_same s v d).symm ▸ hd
  · exact (State.dev_setDev_ne s d hv).symm ▸ hs v

/-- The cursor stays within CAP after a transfer whose block fits the buffer (R390). -/
theorem cursorPast_le {n : Unit21} {base : Nat} (hb : BlockAt s n base) (hs : s.dev[n].cursor ≤ (s.unit n).cap) :
    cursorPast s n base ≤ (s.unit n).cap := by
  unfold cursorPast
  split
  · exact hs
  · exact hb.le

/-- The I/O instructions keep every buffer canonical and every cursor within CAP (R50). -/
theorem Writes.devices_ok (h : Writes i s u pc) (hs : ∀ v : Unit21, deviceOk (s.unit v) s.dev[v]) (v : Unit21) :
    deviceOk (u.unit v) u.dev[v] := by
  rw [State.unit_eq_of_cfg h.cfg_eq]
  cases h with
  | poll n | jumpPoll n =>
    refine devices_set hs ?_ v
    exact hs n
  | input n _ e0 base _ hb =>
    refine devices_set hs ?_ v
    exact ⟨(hs n).1, cursorPast_le hb (hs n).2⟩
  | output n _ e0 base _ hb =>
    refine devices_set hs ?_ v
    exact ⟨Memory.copy_wf (hs n).1 hb.le, cursorPast_le hb (hs n).2⟩
  | control n _ e0 _ d hbuf hcur =>
    refine devices_set hs ?_ v
    exact ⟨hbuf.symm ▸ (hs n).1, hcur (hs n).2⟩
  | index k r => rw [State.setIndex_dev]; exact hs v
  | _ => exact hs v

/-- A running engine's FR is empty, and no completed instruction fills it or makes ES FAULTED (R56). -/
theorem Writes.record_ok (h : Writes i s u pc) (hr : s.es = .running) (hs : recordOk s) : recordOk u := by
  have hfr : u.fr = s.fr := h.fr_eq
  unfold recordOk at hs ⊢
  rw [hfr]
  obtain he | ⟨he, -⟩ := h.es_eq
  · rw [he]; exact hs
  · rw [hr] at hs
    rw [he]
    simpa using hs

/-- The writes of an instruction that a running engine has fetched keep the invariant. -/
theorem Writes.inv (h : Writes i s u pc) (hr : s.es = .running) (hs : s.Inv) : u.Inv where
  config := h.cfg_eq ▸ hs.config
  memory := h.memory_wf hs.memory
  jump := by
    obtain hj | ⟨hj, -⟩ := h.rJ_eq <;> rw [hj]
    · exact hs.jump
    · exact returnAddress_sign s.pc
  counter := h.pc_eq ▸ hs.counter
  record := h.record_ok hr hs.record
  devices := h.devices_ok hs.devices

end Invariant

/-- Settles O18: a step ends in the state it began in, in a fault, or in the commit of an instruction's writes,
and each keeps the invariant. -/
theorem stepKeepsInvariant : Obligations.StepKeepsInvariant := by
  intro s t hs h
  obtain ⟨-, rfl⟩ | ⟨hr, i, hf, h⟩ | ⟨-, e, -, rfl⟩ := step_cases h
  · exact hs
  · obtain ⟨e, rfl⟩ | ⟨u, pc, hw, rfl⟩ := exec_next h
    · exact hs.takeFault _ e
    · exact (hw.inv hr hs).commit _ (hw.counter (fetch_ok_iff.1 hf).1)
  · exact hs.takeFault e.1 e.2

/-- Settles O24: the writers of each register, from the cases of `Writes`. -/
theorem registerWriters : Obligations.RegisterWriters := by
  intro i s t h
  refine ⟨fun hne => ?_, fun hne => ?_, fun k hne => ?_, fun hne => ?_⟩
  · obtain ⟨u, pc, hw, hu⟩ := exec_changes (g := State.rA) h (fun _ _ => rfl) (fun _ _ _ => rfl) hne
    exact hw.rA_writers (hu ▸ hne)
  · obtain ⟨u, pc, hw, hu⟩ := exec_changes (g := State.rX) h (fun _ _ => rfl) (fun _ _ _ => rfl) hne
    exact hw.rX_writers (hu ▸ hne)
  · obtain ⟨u, pc, hw, hu⟩ := exec_changes (g := (State.index · k)) h (fun _ _ => State.index_takeFault ..)
      (fun _ _ _ => State.index_commit ..) hne
    exact hw.index_writers (hu ▸ hne)
  · obtain ⟨u, pc, hw, hu⟩ := exec_changes (g := State.rJ) h (fun _ _ => rfl) (fun _ _ _ => rfl) hne
    exact (hw.rJ_eq.resolve_left (hu ▸ hne)).2

/-- Settles O27: the writers of OV, CI and ES, and what no instruction writes, from the cases of `Writes`. -/
theorem flagsAndStatus : Obligations.FlagsAndStatus := by
  intro i s t h
  have ovChanges (hne : t.ov ≠ s.ov) := exec_changes (g := State.ov) h (fun _ _ => rfl) (fun _ _ _ => rfl) hne
  refine ⟨fun hs ht => ?_, fun hs ht => ?_, fun hne => ?_, ?_, ?_, ?_⟩
  · obtain ⟨u, pc, hw, hu⟩ := ovChanges (by simp [hs, ht])
    exact hw.ov_on hs (hu.trans ht)
  · obtain ⟨u, pc, hw, hu⟩ := ovChanges (by simp [hs, ht])
    exact hw.ov_off hs (hu.trans ht)
  · obtain ⟨u, pc, hw, hu⟩ := exec_changes (g := State.ci) h (fun _ _ => rfl) (fun _ _ _ => rfl) hne
    exact hw.ci_writers (hu ▸ hne)
  all_goals obtain ⟨e, rfl⟩ | ⟨u, pc, hw, rfl⟩ := exec_next h
  · exact .inr (.inl rfl)
  · exact hw.es_eq.imp_right .inr
  · exact fun _ => rfl
  · exact fun hne => absurd hw.fr_eq hne
  · rfl
  · exact hw.cfg_eq

end Sys2Proof.Machine
end

section
/-! PROOFS of the family 10_state.md, second part: the word codec, the character table and reset. -/

namespace Sys2Proof

/-- The value by the sign as a factor (R31). -/
theorem Sign.apply_eq_mul (g : Sign) (n : Nat) : g.apply n = (if g = .minus then -1 else 1) * (n : Int) := by
  cases g <;> simp [Sign.apply]

/-- Two signed magnitudes have one value exactly when the magnitudes agree and, unless zero, the signs (R32). -/
theorem Sign.apply_eq_iff {g h : Sign} {m n : Nat} : g.apply m = h.apply n ↔ m = n ∧ (g = h ∨ m = 0) := by
  cases g <;> cases h <;> simp only [Sign.apply, reduceCtorEq, true_or, and_true, false_or] <;> omega

/-- `sgnof(v, +)` is − exactly for a negative v (R10). -/
theorem sgnof_plus_eq_minus_iff (v : Int) : sgnof v .plus = .minus ↔ v < 0 := by
  obtain hv | rfl | hv := lt_trichotomy v 0
  · simp [sgnof_neg hv, hv]
  · simp
  · simp [sgnof_pos hv, hv.le]

/-- Byte j of a field (R35). -/
theorem byte_field (w : Word) (f : Field) {j : Nat} (h1 : 1 ≤ j) (h5 : j ≤ 5) :
    (field w f).byte j = if 5 - f.r.val + f.first ≤ j then w.byte (j + f.r.val - 5) else 0 :=
  Word.byte_ofBytes _ _ h1 h5

/-- Byte k of a word after a field of it is replaced (R36). -/
theorem byte_setfield (w src : Word) (f : Field) {k : Nat} (h1 : 1 ≤ k) (h5 : k ≤ 5) :
    (setfield w f src).byte k = if f.first ≤ k ∧ k ≤ f.r.val then src.byte (5 - f.r.val + k) else w.byte k :=
  Word.byte_ofBytes _ _ h1 h5

@[simp] theorem sign_field (w : Word) (f : Field) :
    (field w f).sign = if f.l.val = 0 then w.sign else .plus := rfl

@[simp] theorem sign_setfield (w src : Word) (f : Field) :
    (setfield w f src).sign = if f.l.val = 0 then src.sign else w.sign := rfl

section Fields

variable {w src : Word} {f : Field} {k : Nat}

/-- A selected byte stands at the right end of the field, in its order. -/
theorem byte_field_selected (hr : f.r.val ≤ 5) (hl : f.first ≤ k) (hk : k ≤ f.r.val) :
    (field w f).byte (5 - f.r.val + k) = w.byte k := by
  have h1 : 1 ≤ k := le_trans (Nat.le_max_right _ _) hl
  rw [byte_field w f (by omega) (by omega), if_pos (by omega), show 5 - f.r.val + k + f.r.val - 5 = k by omega]

theorem byte_field_left (h1 : 1 ≤ k) (h5 : k ≤ 5) (hk : k < 5 - f.r.val + f.first) : (field w f).byte k = 0 := by
  rw [byte_field w f h1 h5, if_neg (by omega)]

theorem byte_setfield_selected (hr : f.r.val ≤ 5) (hl : f.first ≤ k) (hk : k ≤ f.r.val) :
    (setfield w f src).byte k = src.byte (5 - f.r.val + k) := by
  have h1 : 1 ≤ k := le_trans (Nat.le_max_right _ _) hl
  rw [byte_setfield w src f h1 (by omega), if_pos ⟨hl, hk⟩]

theorem byte_setfield_other (h1 : 1 ≤ k) (h5 : k ≤ 5) (hk : k < f.first ∨ f.r.val < k) :
    (setfield w f src).byte k = w.byte k := by
  rw [byte_setfield w src f h1 h5, if_neg (by omega)]

/-- Storing back a field that was read changes nothing: the selected bytes and the sign are the word's own. -/
theorem setfield_field (hr : f.r.val ≤ 5) : setfield w f (field w f) = w := by
  have hs : (setfield w f (field w f)).sign = w.sign := by
    rw [sign_setfield, sign_field]
    split <;> rfl
  refine Word.ext_byte hs fun k h1 h5 => ?_
  by_cases hk : f.first ≤ k ∧ k ≤ f.r.val
  · rw [byte_setfield_selected hr hk.1 hk.2, byte_field_selected hr hk.1 hk.2]
  · exact byte_setfield_other h1 h5 (by omega)

end Fields

namespace Machine

-- The character table (R48).

theorem length_characters (cfg : Config) : (characters cfg).length = 56 := rfl

theorem charOfByte_eq_some_iff {cfg : Config} {b : Byte} {c : Char} :
    charOfByte cfg b = some c ↔ ∃ h : b.val < (characters cfg).length, (characters cfg)[b.val] = c :=
  List.getElem?_eq_some_iff

/-- The byte of a character is its first place in the table; every place is below 64. -/
theorem byteOfChar_eq_some_iff {cfg : Config} {b : Byte} {c : Char} :
    byteOfChar cfg c = some b ↔ (characters cfg).findIdx? (· == c) = some b.val := by
  unfold byteOfChar
  split
  · next n hn =>
    have hlt : n < 64 := by
      obtain ⟨h, -⟩ := List.findIdx?_eq_some_iff_getElem.1 hn
      rw [length_characters] at h
      omega
    rw [dif_pos hlt, hn, Option.some.injEq, Option.some.injEq, Fin.ext_iff]
  · next hn => simp [hn]

theorem charOfByte_of_byteOfChar {cfg : Config} {b : Byte} {c : Char} (h : byteOfChar cfg c = some b) :
    charOfByte cfg b = some c := by
  obtain ⟨hb, hc, -⟩ := List.findIdx?_eq_some_iff_getElem.1 (byteOfChar_eq_some_iff.1 h)
  exact charOfByte_eq_some_iff.2 ⟨hb, beq_iff_eq.1 hc⟩

/-- In a table without repetitions a character's first place is its only one. -/
theorem byteOfChar_of_charOfByte {cfg : Config} (hd : (characters cfg).Nodup) {b : Byte} {c : Char}
    (h : charOfByte cfg b = some c) : byteOfChar cfg c = some b := by
  obtain ⟨hb, rfl⟩ := charOfByte_eq_some_iff.1 h
  refine byteOfChar_eq_some_iff.2 (List.findIdx?_eq_some_iff_getElem.2 ⟨hb, beq_self_eq_true _, fun j hj he => ?_⟩)
  exact hj.ne ((hd.getElem_inj_iff).1 (beq_iff_eq.1 he))

-- Reset (R58).

@[simp] theorem State.dev_resetOf (cfg : Config) (n : Unit21) : (State.resetOf cfg).dev[n] = Device.reset := by
  simp [State.resetOf]

@[simp] theorem State.index_resetOf (cfg : Config) (k : IxReg) :
    (State.resetOf cfg).index k = Register2.plusZero := by
  cases k <;> rfl

theorem deviceOk_reset (c : UnitConfig) : deviceOk c Device.reset := ⟨rfl, Nat.zero_le _⟩

theorem State.resetOf_inv {cfg : Config} (h : configOk cfg = true) : (State.resetOf cfg).Inv where
  config := h
  memory := rfl
  jump := rfl
  counter := ⟨le_rfl, Int.natCast_nonneg 4000⟩
  record := by simp [recordOk, State.resetOf]
  devices n := by rw [State.dev_resetOf]; exact deviceOk_reset _

theorem configOk_defaultConfig : configOk defaultConfig = true := by decide

/-- Settles O2: a value is a sign applied to a magnitude, and a word is its sign and its magnitude. -/
theorem negativeZero : Obligations.NegativeZero := by
  exact ⟨fun _ _ => Sign.apply_eq_iff, by decide, by decide, by decide,
    fun g m hm => ⟨Word.sign_ofMag g m, Word.mag_ofMag hm⟩, Word.ofMag_mag⟩

/-- Settles O3: `toWord` has the value it is given below W, and `fromInt?` tests the bound. -/
theorem integerRoundTrip : Obligations.IntegerRoundTrip := by
  refine ⟨fun v hv => ⟨toWord v .plus, if_pos hv, val_toWord ?_ _, sgnof_plus_eq_minus_iff v⟩,
    fun v hv => if_neg ?_⟩
  · exact Nat.lt_of_le_pred (by decide) hv
  · exact not_le.2 (Nat.lt_of_lt_of_le (by decide) hv)

/-- Settles O4, byte by byte. -/
theorem fieldExtraction : Obligations.FieldExtraction := by
  intro w f hf
  obtain ⟨-, hr⟩ := f.valid_iff.1 hf
  exact ⟨sign_field w f, fun _ hl hk => byte_field_selected hr hl hk, fun _ h1 h5 hj => byte_field_left h1 h5 hj⟩

/-- Settles O5, byte by byte; a field put back by `setfield_field`. -/
theorem fieldInjection : Obligations.FieldInjection := by
  intro w src f hf
  obtain ⟨-, hr⟩ := f.valid_iff.1 hf
  exact ⟨sign_setfield w src f, fun _ hl hk => byte_setfield_selected hr hl hk,
    fun _ h1 h5 hk => byte_setfield_other h1 h5 hk, setfield_field hr⟩

/-- Settles O6, from the laws of `asWord`, `toReg2` and `reg2`. -/
theorem twoByteRegisters : Obligations.TwoByteRegisters := by
  refine ⟨fun r => ⟨rfl, r.val_asWord, ?_⟩, fun _ _ => toReg2_eq_some_iff, fun w => ?_,
    fun _ s0 hv => val_reg2 hv s0, fun _ => rfl⟩
  · rw [Register2.natAbs_val]
    exact Nat.le_of_lt_succ r.mag_lt
  · rw [Word.natAbs_val, ← toReg2_isSome_iff, Option.isSome_iff_exists]

/-- Settles O57: the table has 56 places, and without repetitions its two directions are inverse. -/
theorem characterTable : Obligations.CharacterTable := by
  intro cfg hd
  refine ⟨fun b hb => ?_, fun b hb => ?_, fun _ _ => charOfByte_of_byteOfChar, fun n hn => ?_⟩
  · have hc : charOfByte cfg b = some (characters cfg)[b.val] := List.getElem?_eq_getElem hb
    exact ⟨_, hc, byteOfChar_of_charOfByte hd hc⟩
  · exact List.getElem?_eq_none hb
  · interval_cases n <;> rfl

/-- Settles O1: the magnitude is the base-64 number of the bytes and is below W. -/
theorem wordValue : Obligations.WordValue := by
  intro w
  exact ⟨Sign.apply_eq_mul w.sign w.mag, Nat.le_of_lt_succ w.natAbs_val_lt⟩

/-- Settles O19: what reset gives meets each clause, and the default configuration is allowed. -/
theorem resetInvariant : Obligations.ResetInvariant :=
  ⟨fun _ => State.resetOf_inv, State.resetOf_inv configOk_defaultConfig⟩

/-- Settles O20: reset is `State.resetOf` of the configuration, field by field. -/
theorem resetValues : Obligations.ResetValues := by
  intro s
  refine ⟨rfl, rfl, State.index_resetOf s.cfg, rfl, rfl, rfl, fun _ => rfl, rfl, rfl, rfl, rfl, fun n x => ?_, rfl⟩
  have hn : s.hostReset.dev[n] = Device.reset := State.dev_resetOf s.cfg n
  rw [hn]
  exact ⟨rfl, rfl, rfl, rfl⟩

end Machine

end Sys2Proof
end

section
/-! PROOFS of the family 20_memory.md: the memory an instruction leaves alone, and the bounds check of a one-word
memory operand. -/

namespace Sys2Proof.Machine

section StoredRun

variable {i : Instr} {s u : State} {pc : Int}

theorem State.storedRun_of_store (h : 24 ≤ i.code.c.val ∧ i.code.c.val ≤ 33) :
    s.storedRun i = (s.effAddr i.addr, 1) := if_pos h

theorem State.storedRun_of_move (h : i.code.c.val = 7) : s.storedRun i = (s.rI1.val, i.code.f.val) := by
  rw [State.storedRun, if_neg (by omega), if_pos h]

theorem State.storedRun_of_input {n : Unit21} (h : i.code.c.val = 36) (hn : n.val = i.code.f.val) :
    s.storedRun i = (s.effAddr i.addr, (s.unit n).block) := by
  have hlt : i.code.f.val < 21 := hn ▸ n.isLt
  have hu : (⟨i.code.f.val, hlt⟩ : Unit21) = n := Fin.ext hn.symm
  rw [State.storedRun, if_neg (by omega), if_neg (by omega), if_pos h, dif_pos hlt, hu]

/-- The three kinds of write to memory, one word at M (R142), MOVE's run (R442) and IN's block (R386), stay inside
the run of words the instruction stores to. -/
theorem Writes.read_outside (h : Writes i s u pc) (hs : s.mem.wf memSize = true) {x : Nat}
    (hx : ¬ ((s.storedRun i).1 ≤ x ∧ (x : Int) < (s.storedRun i).1 + (s.storedRun i).2)) :
    u.mem.read x = s.mem.read x := by
  cases h with
  | store w hm hc =>
    obtain ⟨h0, -⟩ := hm
    rw [State.storedRun_of_store hc] at hx
    rw [Memory.read_write hs, if_neg (by omega)]
  | move hc hd hn =>
    rw [State.storedRun_of_move hc] at hx
    exact Memory.read_move_outside hs (by simp only [memSize]; omega) (by omega)
  | input n hu e0 base _ _ h0 h1 hc =>
    rw [State.storedRun_of_input hc hu] at hx
    rw [Memory.read_copy hs (by simp only [memSize]; omega), if_neg (by omega)]
  | index k r => rw [State.setIndex_mem]
  | _ => rfl

end StoredRun

/-- Settles O25: a fault leaves memory alone, and the writes of an instruction keep it canonical and stay inside
its run. -/
theorem memoryFrame : Obligations.MemoryFrame := by
  intro i s t hs h
  obtain ⟨e, rfl⟩ | ⟨u, pc, hw, rfl⟩ := exec_next h
  · exact ⟨hs, fun _ _ => rfl⟩
  · exact ⟨hw.memory_wf hs, fun _ hx => hw.read_outside hs hx⟩

section OneWord

variable {i : Instr} {s : State}

/-- C = 1..4, 8..33 and 56..63, the kinds with a one-word memory operand (R112). -/
def OneWordCode (c : Nat) : Prop := 1 ≤ c ∧ c ≤ 4 ∨ 8 ≤ c ∧ c ≤ 33 ∨ 56 ≤ c

/-- Every kind whose F is a field specification reads its word at M before the rest of its rule. -/
theorem exec_of_field {f : Field} (hf : i.field? = some f) :
    ∃ k : Int → Word → Rule, exec i s = performField i.code.c f i.addr s fun m => withWord s m (k m) := by
  cases i <;> cases hf <;> exact ⟨_, rfl⟩

theorem code_of_field {f : Field} (hf : i.field? = some f) : i.code = ⟨i.code.c, f.byte⟩ := by
  cases i <;> cases hf <;> rfl

/-- The kinds with a one-word memory operand and no field specification are the floating ones (R115). -/
theorem mem_float_of_no_field (hc : OneWordCode i.code.c.val) (hf : i.field? = none) :
    i ∈ [Instr.fadd i.addr, .fsub i.addr, .fmul i.addr, .fdiv i.addr, .fcmp i.addr] := by
  unfold OneWordCode at hc
  cases i <;> cases hf <;> simp [Instr.code, Instr.addr] at hc ⊢

theorem performFloat_present {op : OpCode} {a : Addr} {v : FloatUnit} {rule : FloatUnit → Int → Rule}
    (hv : s.cfg.floatUnit = some v) : performFloat op a s rule = perform op a s fun m _ => rule v m := by
  simp only [performFloat, hv]

/-- A floating kind on a memory operand reads its word at M before it calls the FLOAT_UNIT (R195). -/
theorem exec_of_float {a : Addr} (hi : i ∈ [Instr.fadd a, .fsub a, .fmul a, .fdiv a, .fcmp a]) :
    i.code.f = 6 ∧ ∃ k : FloatUnit → Int → Word → Rule,
      exec i s = performFloat i.code i.addr s fun v m => withWord s m (k v m) := by
  simp only [List.mem_cons, List.not_mem_nil, or_false] at hi
  obtain rfl | rfl | rfl | rfl | rfl := hi
  all_goals
    dsimp only [exec, execFadd, execFsub, execFmul, execFdiv, execFcmp]
    exact ⟨rfl, _, rfl⟩

/-- After the check of |M| the bounds of the one word at M are the first thing such an instruction tests (R464). -/
theorem exec_oneWord (hd : s.decodes i) (hc : OneWordCode i.code.c.val)
    (hv : i.code.f.val = 6 → s.cfg.floatUnit ≠ none) :
    ∃ k : Int → Word → Rule, exec i s = perform i.code i.addr s fun m _ => withWord s m (k m) := by
  cases hf : i.field? with
  | some f =>
    obtain ⟨k, hk⟩ := exec_of_field (s := s) hf
    have hvalid : f.valid = true := by
      have hwf := hd.1
      rwa [Instr.wf, hf] at hwf
    rw [performField_valid hvalid, ← code_of_field hf] at hk
    exact ⟨k, hk⟩
  | none =>
    obtain ⟨h6, k, hk⟩ := exec_of_float (s := s) (mem_float_of_no_field hc hf)
    obtain ⟨v, hsome⟩ := Option.ne_none_iff_exists'.1 (hv (congrArg Fin.val h6))
    exact ⟨k v, hk.trans (performFloat_present hsome)⟩

end OneWord

/-- Settles O16: with |M| ≤ 4095 the rule begins with the bounds check of the word at M, which fails. -/
theorem operandOutsideMemory : Obligations.OperandOutsideMemory := by
  intro s i hd hl hm hc hv
  obtain ⟨k, hk⟩ := exec_oneWord hd hc hv
  rw [hk, perform_of_le hl, withWord_out hm, finish_raise]
  rfl

end Sys2Proof.Machine
end

section
/-! PROOFS of the family 30_encoding.md: encoding and decoding are inverse, which words do not decode, and what a
step makes of the word at PC. -/

namespace Sys2Proof

section Decoding

variable {ext : Bool} {w : Word} {i : Instr} {c f : Byte}

-- The three answers of the decoder.

/-- A word decodes when its (C, F) names a kind and its I selects (R103, R115). -/
theorem decode_eq_ok_iff :
    decode ext w = .ok i ↔ ∃ k ix, decodeKind ext w.b5 w.b4 = some k ∧ decodeIndex w.b3 = some ix ∧
      k ⟨w.sign, w.addressMag, ix⟩ = i := by
  unfold decode
  cases decodeKind ext w.b5 w.b4 with
  | none => simp
  | some k => cases decodeIndex w.b3 <;> simp

/-- A word fails on (C, F) when they name no kind, whatever its I (R464). -/
theorem decode_eq_opcode_iff :
    decode ext w = .error (.opcode ⟨w.b5, w.b4⟩) ↔ decodeKind ext w.b5 w.b4 = none := by
  unfold decode
  cases decodeKind ext w.b5 w.b4 with
  | none => simp
  | some k => cases decodeIndex w.b3 <;> simp

/-- A word fails on I when its (C, F) names a kind and its I does not select (R103). -/
theorem decode_eq_index_iff :
    decode ext w = .error (.index ⟨w.b5, w.b4⟩ w.b3) ↔
      decodeKind ext w.b5 w.b4 ≠ none ∧ decodeIndex w.b3 = none := by
  unfold decode
  cases decodeKind ext w.b5 w.b4 with
  | none => simp
  | some k => cases decodeIndex w.b3 <;> simp

/-- Decoding undoes encoding: (C, F) names the kind, and I and A give the address back (R100). -/
theorem decode_encode (hwf : i.wf = true) (hx : i.isBinaryExt = true → ext = true) :
    decode ext (encode i) = .ok i := by
  obtain ⟨k, hk, hki⟩ := Option.map_eq_some_iff.1 (decodeKind_code hwf hx)
  have ha : (encode i).addressMag = i.addr.a := addressMag_ofNat ..
  refine decode_eq_ok_iff.2 ⟨k, i.addr.idx, hk, decodeIndex_encodeIndex _, ?_⟩
  rw [ha]
  exact hki

/-- Encoding undoes decoding: the kind gives (C, F) back, and the address its sign, A and I (R100). -/
theorem encode_of_decode (h : decode ext w = .ok i) : encode i = w := by
  obtain ⟨k, ix, hk, hix, rfl⟩ := decode_eq_ok_iff.1 h
  obtain ⟨hc, hf, ha, -, -⟩ := decodeKind_ok hk ⟨w.sign, w.addressMag, ix⟩
  simp only [encode, ha, Fin.ext hc, Fin.ext hf, ofNat_addressMag_high, ofNat_addressMag_low,
    encodeIndex_of_decodeIndex hix]

-- The pairs (C, F) that name no kind.

/-- The 21 bytes of the valid field specifications (R40). -/
def fieldBytes : List Nat := [0, 1, 2, 3, 4, 5, 9, 10, 11, 12, 13, 18, 19, 20, 21, 27, 28, 29, 36, 37, 45]

theorem valid_ofByte_eq_false_iff (b : Byte) : (Field.ofByte b).valid = false ↔ b.val ∉ fieldBytes := by
  revert b; decide

theorem fieldRole_eq_none_iff_notMem {k : Addr → Field → Instr} :
    fieldRole k f = none ↔ f.val ∉ fieldBytes :=
  fieldRole_eq_none_iff.trans (valid_ofByte_eq_false_iff f)

theorem binaryExt_eq_none_iff {k : Addr → Instr} : binaryExt ext k = none ↔ ext = false := by
  cases ext <;> simp [binaryExt]

/-- The illegal pairs (C, F) that R117 lists. -/
def IllegalCode (ext : Bool) (c f : Nat) : Prop :=
  (1 ≤ c ∧ c ≤ 4 ∧ f ∉ fieldBytes ∧ f ≠ 6) ∨ (c = 5 ∧ (f = 3 ∨ f = 4 ∨ f = 5 ∨ 8 ≤ f)) ∨
  (c = 6 ∧ (8 ≤ f ∨ ((f = 6 ∨ f = 7) ∧ ext = false))) ∨
  (8 ≤ c ∧ c ≤ 33 ∧ f ∉ fieldBytes) ∨ (c = 39 ∧ 10 ≤ f) ∨
  ((c = 40 ∨ c = 47) ∧ (8 ≤ f ∨ ((f = 6 ∨ f = 7) ∧ ext = false))) ∨
  (41 ≤ c ∧ c ≤ 46 ∧ 6 ≤ f) ∨ (48 ≤ c ∧ c ≤ 55 ∧ 4 ≤ f) ∨
  (c = 56 ∧ f ∉ fieldBytes ∧ f ≠ 6) ∨ (57 ≤ c ∧ f ∉ fieldBytes)

/-- The opcode map names no kind exactly for the pairs of R117. The split is along the map: at each C the list has
one clause at most, which settles the rows without variants (F a field specification, or any byte); the rows with
variants are split again by F. -/
theorem decodeKind_eq_none_iff : decodeKind ext c f = none ↔ IllegalCode ext c.val f.val := by
  have hlt : c.val < 64 := c.isLt
  unfold decodeKind
  split
  case h_65 => grind
  all_goals
    rename_i hc
    rw [hc]
    simp only [IllegalCode, fieldRole_eq_none_iff_notMem, Nat.reduceLeDiff, Nat.reduceEqDiff, reduceCtorEq,
      true_and, false_and, or_false, false_or, or_self, le_refl, or_true]
  all_goals
    split
    all_goals grind [binaryExt_eq_none_iff, fieldRole_eq_none_iff_notMem]

end Decoding

/-- Settles O7, by `decode_encode`. -/
theorem decodeEncode : Obligations.DecodeEncode :=
  fun _ _ => decode_encode

/-- Settles O8: the word is rebuilt by `encode_of_decode`, and the decoder hands over well-formed instructions. -/
theorem encodeDecode : Obligations.EncodeDecode :=
  fun _ _ _ h => ⟨encode_of_decode h, (Machine.decode_ok h).2⟩

/-- Settles O9: the list of R117 is where the opcode map names no kind, and the index is looked at after it. -/
theorem illegalEncodings : Obligations.IllegalEncodings := by
  intro ext w
  have hk : decodeKind ext w.b5 w.b4 = none ↔ IllegalCode ext w.b5.val w.b4.val := decodeKind_eq_none_iff
  exact ⟨decode_eq_opcode_iff.trans hk, decode_eq_index_iff.trans (and_congr hk.not (decodeIndex_eq_none_iff w.b3))⟩

/-- Settles O10: the decoder computes each of the twelve instructions. -/
theorem encodedWords : Obligations.EncodedWords :=
  ⟨rfl, rfl, rfl, rfl, rfl, rfl, rfl, rfl, rfl, rfl, rfl, rfl⟩

-- The two parts of an effective address (R110).

theorem Addr.value_eq_ite (a : Addr) : a.value = if a.sign = .minus then -(a.a.val : Int) else a.a.val := by
  obtain ⟨g, n, x⟩ := a
  cases g <;> rfl

theorem Addr.natAbs_value_le (a : Addr) : a.value.natAbs ≤ 4095 := by
  rw [Addr.value, Sign.natAbs_apply]
  exact Nat.le_of_lt_succ a.a.isLt

theorem Register2.natAbs_val_le (r : Register2) : r.val.natAbs ≤ 4095 := by
  rw [Register2.natAbs_val]
  exact Nat.le_of_lt_succ r.mag_lt

namespace Machine

/-- Settles O11: the fetch hands over what the word at PC decodes to, and the word of i decodes to i. -/
theorem stepRunsDecodedInstruction : Obligations.StepRunsDecodedInstruction := by
  intro s i hr hm
  have runs (h : decode s.cfg.extBinaryOps (s.mem.read s.pc.toNat) = .ok i) : step s = exec i s :=
    step_ok hr (fetch_ok_iff.2 ⟨hm, h⟩)
  refine ⟨runs, fun ⟨hwf, hx⟩ hw => runs ?_⟩
  rw [hw]
  exact decode_encode hwf hx

/-- Settles O12: a running engine takes each of the three faults of the fetch. -/
theorem fetchFaults : Obligations.FetchFaults := by
  intro s hr
  exact ⟨fun hm => step_error hr (fetch_outside hm), fun hm _ h => step_error hr (fetch_opcode hm h),
    fun hm _ _ h => step_error hr (fetch_index hm h)⟩

/-- M is the sum of two values of at most 4095 in magnitude. -/
theorem State.natAbs_effAddr_le (s : State) (a : Addr) : (s.effAddr a).natAbs ≤ 8190 := by
  have ha : a.value.natAbs ≤ 4095 := a.natAbs_value_le
  unfold State.effAddr
  cases a.idx with
  | none =>
    dsimp only
    omega
  | some k =>
    have hk : (s.index k).val.natAbs ≤ 4095 := (s.index k).natAbs_val_le
    dsimp only
    omega

/-- Every instruction the decoder hands over begins with the check of |M| (R111). -/
theorem exec_eq_perform {s : State} {i : Instr} (hd : s.decodes i) :
    ∃ rule, exec i s = perform i.code i.addr s rule :=
  (exec_shape i s).resolve_right fun h => h.1 hd

/-- Settles O15: the check of |M| comes before the instruction's own rule. -/
theorem addressRange : Obligations.AddressRange := by
  refine ⟨fun s a => ⟨?_, s.natAbs_effAddr_le a⟩, fun s i hd hm => ?_⟩
  · rw [← a.value_eq_ite]
    rfl
  · obtain ⟨rule, hrule⟩ := exec_eq_perform hd
    rw [hrule, perform_of_gt hm]
    rfl

end Machine

end Sys2Proof
end

section
/-! PROOFS of the family 41_load_store.md: loads, negated loads and stores. Each instruction of the family is one
shared operation, whose rule ends in `done` or in `raise`; a word outside memory is one fault for all of them. -/

namespace Sys2Proof

namespace Machine

variable {i : Instr} {s u : State} {a : Addr} {f : Field}

-- The end of a rule, in the words of the statements.

/-- A rule that leaves PC, E and the configuration alone ends by PC + 1 and the cost of its kind (R121). -/
theorem finish_done_after (hpc : u.pc = s.pc) (he : u.elapsed = s.elapsed) (hc : u.cfg = s.cfg) :
    finish i.code s (done u) = .next (u.after s i) := by
  rw [finish_done, State.commit, State.after, hpc, he, hc]

theorem finish_raise_stopped (c : Cause) (v : Int) :
    finish i.code s (raise c v) = .next (s.stopped i c (.value v)) := rfl

/-- A kind whose F is a field specification raises MemBounds(M) for an M outside memory (R80, R112). -/
theorem exec_memBounds_of_field (hi : i.field? = some f) (hf : f.valid = true)
    (hl : (s.effAddr i.addr).natAbs ≤ 4095) (hm : ¬ InMemory (s.effAddr i.addr)) :
    exec i s = .next (s.stopped i .memBounds (.value (s.effAddr i.addr))) := by
  obtain ⟨k, hk⟩ := exec_of_field (s := s) hi
  rw [hk, performField_le hf hl, withWord_out hm, ← code_of_field hi, finish_raise_stopped]

-- The three writes of a loaded Word.

theorem finish_putA (i : Instr) (s : State) (v : Word) :
    finish i.code s (putA s v) = .next (State.after { s with rA := v } s i) := finish_done_after rfl rfl rfl

theorem finish_putX (i : Instr) (s : State) (v : Word) :
    finish i.code s (putX s v) = .next (State.after { s with rX := v } s i) := finish_done_after rfl rfl rfl

/-- A Word of magnitude at most 4095 is written to rI[k], and a larger one is IndexOverflow (R38). -/
theorem finish_putIndex (i : Instr) (s : State) (k : IxReg) (v : Word) :
    (v.val.natAbs ≤ 4095 → ∃ r : Register2, r.asWord = v ∧
      finish i.code s (putIndex k s v) = .next ((s.setIndex k r).after s i)) ∧
    (4095 < v.val.natAbs →
      finish i.code s (putIndex k s v) = .next (s.stopped i .indexOverflow (.value v.val))) := by
  constructor
  · intro h
    obtain ⟨r, hr, hput⟩ := putIndex_fit (s := s) (k := k) h
    refine ⟨r, hr, ?_⟩
    rw [hput, finish_done_after (s.setIndex_pc k r) (s.setIndex_elapsed k r) (s.setIndex_cfg k r)]
  · intro h
    rw [putIndex_big h, finish_raise_stopped]

-- Loads.

theorem exec_loadIndex_in (k : IxReg) (hf : f.valid = true) (hm : InMemory (s.effAddr a)) :
    exec (loadIndex k a f) s =
      finish (loadIndex k a f).code s (putIndex k s (field (s.mem.read (s.effAddr a).toNat) f)) := by
  cases k <;> exact load_in hf hm

theorem exec_loadIndexNegated_in (k : IxReg) (hf : f.valid = true) (hm : InMemory (s.effAddr a)) :
    exec (loadIndexNegated k a f) s =
      finish (loadIndexNegated k a f).code s
        (putIndex k s (negated (field (s.mem.read (s.effAddr a).toNat) f))) := by
  cases k <;> exact loadNegated_in hf hm

theorem field?_load (hi : i = .lda a f ∨ i = .ldx a f ∨ ∃ k, i = loadIndex k a f) :
    i.field? = some f ∧ i.addr = a := by
  obtain rfl | rfl | ⟨k, rfl⟩ := hi
  · exact ⟨rfl, rfl⟩
  · exact ⟨rfl, rfl⟩
  · cases k <;> exact ⟨rfl, rfl⟩

theorem field?_loadNegated (hi : i = .ldan a f ∨ i = .ldxn a f ∨ ∃ k, i = loadIndexNegated k a f) :
    i.field? = some f ∧ i.addr = a := by
  obtain rfl | rfl | ⟨k, rfl⟩ := hi
  · exact ⟨rfl, rfl⟩
  · exact ⟨rfl, rfl⟩
  · cases k <;> exact ⟨rfl, rfl⟩

-- Stores.

/-- The ten stores with the Word each puts into memory (R142). -/
def storeSources (a : Addr) (f : Field) (s : State) : List (Instr × Word) :=
  [(.sta a f, s.rA), (.st1 a f, s.rI1.asWord), (.st2 a f, s.rI2.asWord), (.st3 a f, s.rI3.asWord),
    (.st4 a f, s.rI4.asWord), (.st5 a f, s.rI5.asWord), (.st6 a f, s.rI6.asWord), (.stx a f, s.rX),
    (.stj a f, s.rJ.asWord), (.stz a f, Word.plusZero)]

/-- Each of the ten is the shared store of its source. -/
theorem exec_of_mem_storeSources {src : Word} (h : (i, src) ∈ storeSources a f s) :
    i.field? = some f ∧ i.addr = a ∧ exec i s = store i.code.c f a s src := by
  have all : ∀ p ∈ storeSources a f s,
      p.1.field? = some f ∧ p.1.addr = a ∧ exec p.1 s = store p.1.code.c f a s p.2 := by
    simp only [storeSources, List.forall_mem_cons, List.not_mem_nil, false_implies, implies_true, and_true]
    and_intros <;> rfl
  exact all _ h

/-- A word computed from the old one and written at M is what M reads, and every other address reads as before. -/
theorem read_write_effAddr {g : Word → Word} (hs : s.mem.wf memSize = true) (hm : InMemory (s.effAddr a)) (x : Nat) :
    (s.mem.write (s.effAddr a).toNat (g (s.mem.read (s.effAddr a).toNat))).read x =
      if (x : Int) = s.effAddr a then g (s.mem.read x) else s.mem.read x := by
  obtain ⟨h0, -⟩ := hm
  rw [Memory.read_write hs]
  by_cases hx : (x : Int) = s.effAddr a
  · rw [← hx, Int.toNat_natCast, if_pos rfl, if_pos rfl]
  · rw [if_neg (by omega), if_neg hx]

theorem toNat_effAddr_lt (hm : InMemory (s.effAddr a)) : (s.effAddr a).toNat < memSize := by
  obtain ⟨-, h1⟩ := hm
  simp only [memSize]
  omega

end Machine

open Machine

/-- Settles O28: the loaded Word is handed to the register's write, which for rI[k] can overflow. -/
theorem load : Obligations.Load := by
  intro a f s hf
  refine ⟨fun hm => ⟨?_, ?_, fun k => ?_⟩, fun hm hl i hi => ?_⟩
  · exact (load_in hf hm).trans (finish_putA (.lda a f) s _)
  · exact (load_in hf hm).trans (finish_putX (.ldx a f) s _)
  · rw [exec_loadIndex_in k hf hm]
    exact finish_putIndex ..
  · obtain ⟨hfield, rfl⟩ := field?_load hi
    exact exec_memBounds_of_field hfield hf hl hm

/-- Settles O29, as O28 with the sign inverted before the write. -/
theorem loadNegated : Obligations.LoadNegated := by
  intro a f s hf
  refine ⟨fun hm => ⟨?_, ?_, fun k => ?_⟩, fun hm hl i hi => ?_⟩
  · exact (loadNegated_in hf hm).trans (finish_putA (.ldan a f) s _)
  · exact (loadNegated_in hf hm).trans (finish_putX (.ldxn a f) s _)
  · rw [exec_loadIndexNegated_in k hf hm]
    exact finish_putIndex ..
  · obtain ⟨hfield, rfl⟩ := field?_loadNegated hi
    exact exec_memBounds_of_field hfield hf hl hm

/-- Settles O30: each of the ten stores writes the one word at M. -/
theorem store : Obligations.Store := by
  intro a f s hf hs i src hi
  obtain ⟨hfield, rfl, hexec⟩ := exec_of_mem_storeSources hi
  refine ⟨fun hm => ?_, fun hm hl => exec_memBounds_of_field hfield hf hl hm⟩
  refine ⟨_, ?_, Memory.write_wf hs (toNat_effAddr_lt hm), read_write_effAddr (g := (setfield · f src)) hs hm⟩
  rw [hexec, store_in hf hm, ← code_of_field hfield]
  exact finish_done_after rfl rfl rfl

end Sys2Proof
end

section
/-! PROOFS of the family 42_arithmetic.md: the add law, multiplication, division and the floating kinds. Each kind
reduces to `finish` of its rule; what the rule writes is then a fact of arithmetic about `addWord`, `multiply` and
`divide`, or an answer of FLOAT_UNIT. -/

namespace Sys2Proof

namespace Machine

variable {i : Instr} {s : State} {a : Addr} {f : Field} {d : Int}

-- The add law.

theorem natAbs_val_add_lt (r : Word) (hd : d.natAbs < W) : (r.val + d).natAbs < 2 * W := by
  have := r.natAbs_val_lt
  omega

/-- An operand of at most W − 1 in magnitude added to rA obeys the add law. -/
theorem addLaw_of_addToA (hd : d.natAbs < W) (hexec : exec i s = finish i.code s (addToA s d)) :
    ∃ (r : Word) (o : Bool), AddLaw s.rA s.ov d r o ∧
      exec i s = .next (State.after { s with rA := r, ov := o } s i) :=
  ⟨_, _, addWord_addLaw (natAbs_val_add_lt s.rA hd), hexec.trans (finish_done_after rfl rfl rfl)⟩

/-- An operand of at most W − 1 in magnitude added to rX obeys the add law. -/
theorem addLaw_of_addToX (hd : d.natAbs < W) (hexec : exec i s = finish i.code s (addToX s d)) :
    ∃ (r : Word) (o : Bool), AddLaw s.rX s.ov d r o ∧
      exec i s = .next (State.after { s with rX := r, ov := o } s i) :=
  ⟨_, _, addWord_addLaw (natAbs_val_add_lt s.rX hd), hexec.trans (finish_done_after rfl rfl rfl)⟩

-- Multiplication and division.

/-- The two words of a product read back as the whole product (R184). -/
theorem mag_multiply (s : State) (v : Word) :
    (multiply s v).rA.mag * W + (multiply s v).rX.mag = s.rA.mag * v.mag := by
  have hhigh : (multiply s v).rA.mag = s.rA.mag * v.mag / W := Word.mag_ofMag (product_div_lt s.rA v)
  have hlow : (multiply s v).rX.mag = s.rA.mag * v.mag % W := Word.mag_ofMag (Nat.mod_lt _ (by decide))
  rw [hhigh, hlow, Nat.div_add_mod']

theorem sign_multiply (s : State) (v : Word) :
    (multiply s v).rA.sign = (if s.rA.sign = v.sign then .plus else .minus) ∧
      (multiply s v).rX.sign = (multiply s v).rA.sign :=
  ⟨Word.sign_ofMag _ _, (Word.sign_ofMag _ _).trans (Word.sign_ofMag _ _).symm⟩

/-- A quotient that fits rA and its remainder satisfy the division equation (R185). -/
theorem mag_divide {v : Word} (hlt : s.rA.mag < v.mag) :
    (divide s v).rA.mag * v.mag + (divide s v).rX.mag = s.rA.mag * W + s.rX.mag ∧
      (divide s v).rX.mag < v.mag := by
  have hrem : (s.rA.mag * W + s.rX.mag) % v.mag < v.mag := Nat.mod_lt _ (Nat.zero_lt_of_lt hlt)
  have hquot : (divide s v).rA.mag = (s.rA.mag * W + s.rX.mag) / v.mag :=
    Word.mag_ofMag (quotient_lt s.rX.mag_lt hlt)
  have hlow : (divide s v).rX.mag = (s.rA.mag * W + s.rX.mag) % v.mag :=
    Word.mag_ofMag (hrem.trans v.mag_lt)
  rw [hquot, hlow, Nat.div_add_mod']
  exact ⟨rfl, hrem⟩

theorem sign_divide (s : State) (v : Word) :
    (divide s v).rA.sign = (if s.rA.sign = v.sign then .plus else .minus) ∧ (divide s v).rX.sign = s.rA.sign :=
  ⟨Word.sign_ofMag _ _, Word.sign_ofMag _ _⟩

/-- DIV's rule after its operand is read. -/
def divideRule (s : State) (m : Int) (v : Word) : Rule :=
  if v.mag = 0 then raise .divideError m
  else if v.mag ≤ s.rA.mag then raise .divideError m
  else done (divide s v)

theorem divideRule_fit {m : Int} {v : Word} (hlt : s.rA.mag < v.mag) : divideRule s m v = done (divide s v) := by
  rw [divideRule, if_neg (by omega), if_neg (by omega)]

theorem divideRule_fault {m : Int} {v : Word} (h : v.mag = 0 ∨ v.mag ≤ s.rA.mag) :
    divideRule s m v = raise .divideError m := by
  unfold divideRule
  split
  · rfl
  · exact if_pos (by omega)

theorem exec_div_in (hf : f.valid = true) (hm : InMemory (s.effAddr a)) :
    exec (.div a f) s = finish (Instr.div a f).code s
      (divideRule s (s.effAddr a) (field (s.mem.read (s.effAddr a).toNat) f)) :=
  withOperand_in (k := divideRule s) hf hm

-- The floating kinds.

theorem performFloat_absent {op : OpCode} {rule : FloatUnit → Int → Rule} (hl : (s.effAddr a).natAbs ≤ 4095)
    (hu : s.cfg.floatUnit = none) :
    performFloat op a s rule = .next (s.takeFault (some op) ⟨.refusedFloat, .opcode op⟩) := by
  simp only [performFloat, perform_of_le hl, hu, finish_error]

theorem performFloat_le {op : OpCode} {rule : FloatUnit → Int → Rule} {u : FloatUnit}
    (hl : (s.effAddr a).natAbs ≤ 4095) (hu : s.cfg.floatUnit = some u) :
    performFloat op a s rule = finish op s (rule u (s.effAddr a)) := by
  rw [performFloat_present hu, perform_of_le hl]

/-- All seven floating kinds run under the check for FLOAT_UNIT. -/
theorem exec_of_mem_floatKinds (hi : i ∈ [Instr.fadd a, .fsub a, .fmul a, .fdiv a, .flot a, .fix a, .fcmp a]) :
    ∃ rule : FloatUnit → Int → Rule, exec i s = performFloat i.code a s rule := by
  simp only [List.mem_cons, List.not_mem_nil, or_false] at hi
  obtain rfl | rfl | rfl | rfl | rfl | rfl | rfl := hi
  all_goals
    dsimp only [exec, execFadd, execFsub, execFmul, execFdiv, execFlot, execFix, execFcmp]
    exact ⟨_, rfl⟩

/-- The kinds on rA alone, with the results of FLOAT_UNIT that they write (R200, R201). -/
def floatConvResults (u : FloatUnit) (a : Addr) (s : State) : List (Instr × FloatResult) :=
  [(.flot a, floatConv u .flot s.rA), (.fix a, floatConv u .fix s.rA)]

/-- The kinds on rA and CONTENTS(M), with the results of FLOAT_UNIT that they write (R196 to R199). -/
def floatArithResults (u : FloatUnit) (a : Addr) (s : State) : List (Instr × FloatResult) :=
  [(.fadd a, floatArith u .fadd s.rA (s.mem.read (s.effAddr a).toNat)),
    (.fsub a, floatArith u .fsub s.rA (s.mem.read (s.effAddr a).toNat)),
    (.fmul a, floatArith u .fmul s.rA (s.mem.read (s.effAddr a).toNat)),
    (.fdiv a, floatArith u .fdiv s.rA (s.mem.read (s.effAddr a).toNat))]

section FloatPresent

variable {u : FloatUnit} {r : FloatResult}

theorem exec_of_mem_floatConvResults (hl : (s.effAddr a).natAbs ≤ 4095) (hu : s.cfg.floatUnit = some u)
    (h : (i, r) ∈ floatConvResults u a s) : exec i s = finish i.code s (putFloat s (s.effAddr a) r) := by
  simp only [floatConvResults, List.mem_cons, Prod.mk.injEq, List.not_mem_nil, or_false] at h
  obtain ⟨rfl, rfl⟩ | ⟨rfl, rfl⟩ := h <;>
    exact performFloat_le (rule := fun v m => putFloat s m (floatConv v _ s.rA)) hl hu

/-- A memory operand in range is handed to FLOAT_UNIT. -/
theorem performFloat_in {op : OpCode} {rule : FloatUnit → Int → Word → Rule} (hu : s.cfg.floatUnit = some u)
    (hm : InMemory (s.effAddr a)) :
    performFloat op a s (fun v m => withWord s m (rule v m)) =
      finish op s (rule u (s.effAddr a) (s.mem.read (s.effAddr a).toNat)) := by
  rw [performFloat_le (natAbs_le_of_inMemory hm) hu, withWord_in hm]

theorem exec_of_mem_floatArithResults (hu : s.cfg.floatUnit = some u) (hm : InMemory (s.effAddr a))
    (h : (i, r) ∈ floatArithResults u a s) : exec i s = finish i.code s (putFloat s (s.effAddr a) r) := by
  simp only [floatArithResults, List.mem_cons, Prod.mk.injEq, List.not_mem_nil, or_false] at h
  obtain ⟨rfl, rfl⟩ | ⟨rfl, rfl⟩ | ⟨rfl, rfl⟩ | ⟨rfl, rfl⟩ := h <;>
    exact performFloat_in (rule := fun v m w => putFloat s m (floatArith v _ s.rA w)) hu hm

theorem exec_fcmp_in (hu : s.cfg.floatUnit = some u) (hm : InMemory (s.effAddr a)) :
    exec (.fcmp a) s = finish (Instr.fcmp a).code s
      (putFloatCompare s (s.effAddr a) (floatCompare u s.rA (s.mem.read (s.effAddr a).toNat) s.mem)) :=
  performFloat_in (rule := fun v m w => putFloatCompare s m (floatCompare v s.rA w s.mem)) hu hm

end FloatPresent

end Machine

open Machine

/-- Settles O31: an operand is a Word's value or an address, both below W in magnitude, so one W covers the sum. -/
theorem addLaws : Obligations.AddLaws := by
  intro a s
  have hneg (v : Word) : (-v.val).natAbs < W := by rw [Int.natAbs_neg]; exact v.natAbs_val_lt
  refine ⟨fun f hf hm i d hi => ?_, fun hl => ?_⟩
  · simp only [List.mem_cons, Prod.mk.injEq, List.not_mem_nil, or_false] at hi
    obtain ⟨rfl, rfl⟩ | ⟨rfl, rfl⟩ := hi
    · exact addLaw_of_addToA (Word.natAbs_val_lt _) (withOperand_in (k := fun _ v => addToA s v.val) hf hm)
    · exact addLaw_of_addToA (hneg _) (withOperand_in (k := fun _ v => addToA s (-v.val)) hf hm)
  · have hW : (s.effAddr a).natAbs < W := hl.trans_lt (by decide)
    have hnegW : (-s.effAddr a).natAbs < W := by rwa [Int.natAbs_neg]
    simp only [List.mem_cons, Prod.mk.injEq, List.not_mem_nil, or_false]
    constructor
    · rintro i d (⟨rfl, rfl⟩ | ⟨rfl, rfl⟩)
      · exact addLaw_of_addToA hW (perform_of_le (rule := fun m _ => addToA s m) hl)
      · exact addLaw_of_addToA hnegW (perform_of_le (rule := fun m _ => addToA s (-m)) hl)
    · rintro i d (⟨rfl, rfl⟩ | ⟨rfl, rfl⟩)
      · exact addLaw_of_addToX hW (perform_of_le (rule := fun m _ => addToX s m) hl)
      · exact addLaw_of_addToX hnegW (perform_of_le (rule := fun m _ => addToX s (-m)) hl)

/-- Settles O32: MUL's two writes are the high and the low half of the product. -/
theorem multiply : Obligations.Multiply := by
  intro a f s hf hm v
  have hexec : exec (.mul a f) s = finish (Instr.mul a f).code s (done (Machine.multiply s v)) :=
    withOperand_in (k := fun _ w => done (Machine.multiply s w)) hf hm
  exact ⟨_, _, hexec.trans (finish_done_after rfl rfl rfl), mag_multiply s v, sign_multiply s v⟩

/-- Settles O33: past its two tests DIV writes a quotient that fits rA, and each failed test is DivideError(M). -/
theorem divide : Obligations.Divide := by
  intro a f s hf hm v
  refine ⟨fun _ hlt => ?_, fun h => ?_⟩
  · obtain ⟨hquot, hrem⟩ := mag_divide hlt
    have hexec : exec (.div a f) s = finish (Instr.div a f).code s (done (Machine.divide s v)) := by
      rw [exec_div_in hf hm, divideRule_fit hlt]
    exact ⟨_, _, hexec.trans (finish_done_after rfl rfl rfl), hquot, hrem, sign_divide s v⟩
  · rw [exec_div_in hf hm, divideRule_fault h, finish_raise_stopped]

/-- Settles O34: the check for FLOAT_UNIT comes first, and what it answers is written as `putFloat` and
`putFloatCompare` say. -/
theorem floating : Obligations.Floating := by
  intro a s hl
  refine ⟨fun hu i hi => ?_, fun u hu => ⟨fun i r hi => ?_, fun hm => ?_⟩⟩
  · obtain ⟨rule, hexec⟩ := exec_of_mem_floatKinds (s := s) hi
    rw [hexec, performFloat_absent hl hu]
    rfl
  · have hexec : exec i s = finish i.code s (putFloat s (s.effAddr a) r) := by
      obtain hconv | ⟨hm, harith⟩ := hi
      · exact exec_of_mem_floatConvResults hl hu hconv
      · exact exec_of_mem_floatArithResults hu hm harith
    refine ⟨fun w b hr => ?_, fun hr => ?_⟩
    · rw [hexec, hr]
      exact finish_done_after rfl rfl rfl
    · rw [hexec, hr]
      exact finish_raise_stopped ..
  · rw [exec_fcmp_in hu hm]
    refine ⟨fun c hc => ?_, fun hc => ?_⟩
    · rw [hc]
      exact finish_done_after rfl rfl rfl
    · rw [hc]
      exact finish_raise_stopped ..

end Sys2Proof
end

section
/-! PROOFS of the family 43_shift.md. Each shift answers with the pair or the accumulator that its byte map or its
number gives; a byte map is read as a base-64 number by `bytesMag`, for the laws of R217. -/

namespace Sys2Proof

namespace Machine

variable {i : Instr} {s : State} {a : Addr}

-- The base-64 number of a run of bytes.

/-- The number whose base-64 digits are bytes 1..n of `t`, byte 1 the most significant. -/
def bytesMag : Nat → (Nat → Byte) → Nat
  | 0, _ => 0
  | n + 1, t => bytesMag n t * 64 + (t (n + 1)).val

theorem bytesMag_lt (n : Nat) (t : Nat → Byte) : bytesMag n t < 64 ^ n := by
  induction n with
  | zero => exact Nat.one_pos
  | succ n ih =>
    have := (t (n + 1)).isLt
    rw [bytesMag, pow_succ]
    omega

theorem bytesMag_congr {n : Nat} {t u : Nat → Byte} (h : ∀ i, 1 ≤ i → i ≤ n → t i = u i) :
    bytesMag n t = bytesMag n u := by
  induction n with
  | zero => rfl
  | succ n ih => rw [bytesMag, bytesMag, ih fun i h1 hn => h i h1 (by omega), h _ (by omega) le_rfl]

theorem bytesMag_zero (n : Nat) : bytesMag n (fun _ => 0) = 0 := by
  induction n with
  | zero => rfl
  | succ n ih => rw [bytesMag, ih]; rfl

/-- A run of bytes is its first m bytes followed by the other n. -/
theorem bytesMag_add (m n : Nat) (t : Nat → Byte) :
    bytesMag (m + n) t = bytesMag m t * 64 ^ n + bytesMag n fun i => t (i + m) := by
  induction n with
  | zero => simp [bytesMag]
  | succ n ih =>
    rw [← Nat.add_assoc, bytesMag, bytesMag, ih, pow_succ, Nat.add_right_comm n 1 m, Nat.add_comm n m]
    ring

/-- Zeros shifted in from the right multiply by 64^m, and the m bytes shifted out are lost (R217). -/
theorem bytesMag_shiftLeft {n m : Nat} (h : m ≤ n) (t : Nat → Byte) :
    bytesMag n (shiftLeft n m t) = bytesMag n t * 64 ^ m % 64 ^ n := by
  obtain ⟨k, rfl⟩ := Nat.exists_eq_add_of_le' h
  have hhigh : bytesMag k (shiftLeft (k + m) m t) = bytesMag k fun i => t (i + m) :=
    bytesMag_congr fun i _ hk => if_pos (by omega)
  have hlow : bytesMag m (fun i => shiftLeft (k + m) m t (i + k)) = 0 :=
    (bytesMag_congr fun i h1 _ => if_neg (by omega)).trans (bytesMag_zero m)
  have hlt : (bytesMag k fun i => t (i + m)) * 64 ^ m < 64 ^ (k + m) := by
    rw [pow_add]
    exact Nat.mul_lt_mul_of_pos_right (bytesMag_lt k _) (by positivity)
  calc bytesMag (k + m) (shiftLeft (k + m) m t)
      = (bytesMag k fun i => t (i + m)) * 64 ^ m := by rw [bytesMag_add, hhigh, hlow, Nat.add_zero]
    _ = (bytesMag m t * 64 ^ (k + m) + (bytesMag k fun i => t (i + m)) * 64 ^ m) % 64 ^ (k + m) := by
        rw [Nat.mul_add_mod_self_right, Nat.mod_eq_of_lt hlt]
    _ = bytesMag (k + m) t * 64 ^ m % 64 ^ (k + m) := by
        rw [Nat.add_comm k m, bytesMag_add, Nat.add_mul, Nat.mul_assoc, ← pow_add, Nat.add_comm k m]

/-- Zeros shifted in from the left divide by 64^m (R217). -/
theorem bytesMag_shiftRight {n m : Nat} (h : m ≤ n) (t : Nat → Byte) :
    bytesMag n (shiftRight m t) = bytesMag n t / 64 ^ m := by
  obtain ⟨k, rfl⟩ := Nat.exists_eq_add_of_le h
  have hhigh : bytesMag m (shiftRight m t) = 0 :=
    (bytesMag_congr fun i _ hm => if_neg (by omega)).trans (bytesMag_zero m)
  have hlow : (bytesMag k fun i => shiftRight m t (i + m)) = bytesMag k t := by
    refine bytesMag_congr fun i h1 _ => ?_
    rw [shiftRight, if_pos (by omega), Nat.add_sub_cancel]
  calc bytesMag (m + k) (shiftRight m t)
      = bytesMag k t := by rw [bytesMag_add, hhigh, hlow, Nat.zero_mul, Nat.zero_add]
    _ = bytesMag (k + m) t / 64 ^ m := by
        rw [bytesMag_add, Nat.mul_comm, Nat.mul_add_div (by positivity),
          Nat.div_eq_of_lt (bytesMag_lt m _), Nat.add_zero]
    _ = bytesMag (m + k) t / 64 ^ m := by rw [Nat.add_comm]

theorem W_eq_pow : W = 64 ^ 5 := by norm_num

/-- A Word's magnitude is the number of its five bytes (R31). -/
theorem mag_ofBytes_eq_bytesMag (g : Sign) (t : Nat → Byte) : (Word.ofBytes g t).mag = bytesMag 5 t := by
  rw [Word.mag_horner]
  simp only [bytesMag, Word.ofBytes, Nat.zero_mul, Nat.zero_add]

theorem mag_eq_bytesMag (w : Word) : w.mag = bytesMag 5 w.byte := mag_ofBytes_eq_bytesMag w.sign w.byte

/-- D is the number of the pair's ten bytes (R41). -/
theorem pairMag_setPair (s : State) (t : Nat → Byte) : (s.setPair t).pairMag = bytesMag 10 t := by
  rw [State.pairMag, State.setPair_rA, State.setPair_rX, mag_ofBytes_eq_bytesMag, mag_ofBytes_eq_bytesMag,
    bytesMag_add 5 5, W_eq_pow]

/-- Writing the pair's own bytes changes nothing. -/
theorem setPair_pairByte (s : State) : s.setPair (pairByte s.rA s.rX) = s := rfl

theorem pairMag_eq_bytesMag (s : State) : s.pairMag = bytesMag 10 (pairByte s.rA s.rX) := by
  rw [← pairMag_setPair s, setPair_pairByte]

-- The laws of R217, on a Word and on the pair.

theorem mag_shiftLeft (g : Sign) (w : Word) {m : Nat} (h : m ≤ 5) :
    (Word.ofBytes g (shiftLeft 5 m w.byte)).mag = w.mag * 64 ^ m % W := by
  rw [mag_ofBytes_eq_bytesMag, bytesMag_shiftLeft h, mag_eq_bytesMag, W_eq_pow]

theorem mag_shiftRight (g : Sign) (w : Word) {m : Nat} (h : m ≤ 5) :
    (Word.ofBytes g (shiftRight m w.byte)).mag = w.mag / 64 ^ m := by
  rw [mag_ofBytes_eq_bytesMag, bytesMag_shiftRight h, mag_eq_bytesMag]

theorem pairMag_shiftLeft (s : State) {m : Nat} (h : m ≤ 10) :
    (s.setPair (shiftLeft 10 m (pairByte s.rA s.rX))).pairMag = s.pairMag * 64 ^ m % (W * W) := by
  rw [pairMag_setPair, bytesMag_shiftLeft h, pairMag_eq_bytesMag, W_eq_pow, ← pow_add]

theorem pairMag_shiftRight (s : State) {m : Nat} (h : m ≤ 10) :
    (s.setPair (shiftRight m (pairByte s.rA s.rX))).pairMag = s.pairMag / 64 ^ m := by
  rw [pairMag_setPair, bytesMag_shiftRight h, pairMag_eq_bytesMag]

-- The binary shifts' pair.

/-- A number below W² written to the pair is its magnitude (R219). -/
theorem pairMag_setPairMag (s : State) {d : Nat} (h : d < W * W) : (s.setPairMag d).pairMag = d := by
  have hhigh : (s.setPairMag d).rA.mag = d / W := Word.mag_ofMag (Nat.div_lt_of_lt_mul h)
  have hlow : (s.setPairMag d).rX.mag = d % W := Word.mag_ofMag (Nat.mod_lt _ (by decide))
  rw [State.pairMag, hhigh, hlow, Nat.div_add_mod']

-- Rotations, with the places counted from 0.

theorem rotateLeft_succ (m : Nat) (t : Nat → Byte) (i : Nat) : rotateLeft m t (i + 1) = t ((i + m) % 10 + 1) := by
  rw [rotateLeft, Nat.add_sub_cancel, Nat.add_mod_mod]

theorem rotateRight_succ (m : Nat) (t : Nat → Byte) {i : Nat} (h : i < 10) :
    rotateRight m t ((i + m) % 10 + 1) = t (i + 1) := by
  have hplace : ((i + m) % 10 + (10 - m % 10)) % 10 = i := by omega
  rw [rotateRight, Nat.add_sub_cancel, hplace]

/-- Every place is one that a byte was rotated to. -/
theorem exists_rotated_place (m : Nat) {k : Nat} (h : k < 10) : ∃ i < 10, (i + m) % 10 = k :=
  ⟨(k + (10 - m % 10)) % 10, by omega, by omega⟩

/-- A rotation to the right takes back the same rotation to the left (R217). -/
theorem rotateRight_rotateLeft (m : Nat) (t u : Nat → Byte)
    (hu : ∀ i < 10, u (i + 1) = rotateLeft m t (i + 1)) {k : Nat} (h : k < 10) :
    rotateRight m u (k + 1) = t (k + 1) := by
  obtain ⟨i, hi, rfl⟩ := exists_rotated_place m h
  rw [rotateRight_succ m u hi, hu i hi, rotateLeft_succ]

-- What the shifts answer for a count of 0..4095.

section Count

variable (h0 : 0 ≤ s.effAddr a) (h1 : s.effAddr a ≤ 4095)
include h0 h1

/-- A shift of rA ends by PC + 1 and its cost, with the shifted bytes in rA. -/
theorem exec_shiftA {t : Nat → Nat → Byte} (hexec : exec i s = shiftA i.code a s t) :
    exec i s = .next (State.after { s with rA := Word.ofBytes s.rA.sign (t (s.effAddr a).toNat) } s i) := by
  rw [hexec, shiftA_nonneg h0 h1]
  exact finish_done_after rfl rfl rfl

/-- A shift of rA:rX ends by PC + 1 and its cost, with the shifted bytes in the pair. -/
theorem exec_shiftPair {t : Nat → Nat → Byte} (hexec : exec i s = shiftPair i.code a s t) :
    exec i s = .next ((s.setPair (t (s.effAddr a).toNat)).after s i) := by
  rw [hexec, shiftPair_nonneg h0 h1]
  exact finish_done_after (s.setPair_pc _) (s.setPair_elapsed _) (s.setPair_cfg _)

/-- A binary shift ends by PC + 1 and its cost, with its number in the pair. -/
theorem exec_shiftBits {d : Nat → Nat} (hx : s.cfg.extBinaryOps = true)
    (hexec : exec i s = shiftBits i.code a s d) :
    exec i s = .next ((s.setPairMag (d (s.effAddr a).toNat)).after s i) := by
  rw [hexec, shiftBits, performExt_on hx, perform_of_le (by omega), withCount_nonneg h0]
  exact finish_done_after (s.setPairMag_pc _) (s.setPairMag_elapsed _) (s.setPairMag_cfg _)

theorem exec_sla : exec (.sla a) s = .next (State.after
    { s with rA := Word.ofBytes s.rA.sign (shiftLeft 5 (s.effAddr a).toNat s.rA.byte) } s (.sla a)) :=
  exec_shiftA h0 h1 (t := fun n => shiftLeft 5 n s.rA.byte) rfl

theorem exec_sra : exec (.sra a) s = .next (State.after
    { s with rA := Word.ofBytes s.rA.sign (shiftRight (s.effAddr a).toNat s.rA.byte) } s (.sra a)) :=
  exec_shiftA h0 h1 (t := fun n => shiftRight n s.rA.byte) rfl

theorem exec_slax : exec (.slax a) s =
    .next ((s.setPair (shiftLeft 10 (s.effAddr a).toNat (pairByte s.rA s.rX))).after s (.slax a)) :=
  exec_shiftPair h0 h1 (t := fun n => shiftLeft 10 n (pairByte s.rA s.rX)) rfl

theorem exec_srax : exec (.srax a) s =
    .next ((s.setPair (shiftRight (s.effAddr a).toNat (pairByte s.rA s.rX))).after s (.srax a)) :=
  exec_shiftPair h0 h1 (t := fun n => shiftRight n (pairByte s.rA s.rX)) rfl

theorem exec_slc : exec (.slc a) s =
    .next ((s.setPair (rotateLeft (s.effAddr a).toNat (pairByte s.rA s.rX))).after s (.slc a)) :=
  exec_shiftPair h0 h1 (t := fun n => rotateLeft n (pairByte s.rA s.rX)) rfl

theorem exec_src : exec (.src a) s =
    .next ((s.setPair (rotateRight (s.effAddr a).toNat (pairByte s.rA s.rX))).after s (.src a)) :=
  exec_shiftPair h0 h1 (t := fun n => rotateRight n (pairByte s.rA s.rX)) rfl

end Count

/-- A binary shift with a negative count is NegativeShift(M) (R210). -/
theorem shiftBits_neg {op : OpCode} {d : Nat → Nat} (hx : s.cfg.extBinaryOps = true) (h0 : s.effAddr a < 0)
    (h1 : -4095 ≤ s.effAddr a) :
    shiftBits op a s d = .next (s.takeFault (some op) ⟨.negativeShift, .value (s.effAddr a)⟩) := by
  rw [shiftBits, performExt_on hx, perform_of_le (by omega), withCount_neg h0, finish_raise]

/-- The effective address depends on the index registers alone, which a write of the pair leaves. -/
theorem effAddr_setPair_after (s : State) (t : Nat → Byte) (i : Instr) (a : Addr) :
    ((s.setPair t).after s i).effAddr a = s.effAddr a := by
  unfold State.effAddr
  cases a.idx with
  | none => rfl
  | some k => cases k <;> rfl

end Machine

open Machine

/-- Settles O35: each of the two writes the bytes that its byte map gives. -/
theorem shiftAccumulator : Obligations.ShiftAccumulator := by
  intro a s h0 h1
  refine ⟨⟨_, exec_sla h0 h1, Word.sign_ofBytes _ _, fun k hk h5 => ?_⟩,
    ⟨_, exec_sra h0 h1, Word.sign_ofBytes _ _, fun k hk h5 => ?_⟩⟩
  · rw [Word.byte_ofBytes _ _ hk h5, shiftLeft]
  · rw [Word.byte_ofBytes _ _ hk h5, shiftRight, Nat.add_comm]

/-- Settles O36, as O35 with the ten bytes of the pair. -/
theorem shiftPair : Obligations.ShiftPair := by
  intro a s h0 h1
  refine ⟨⟨_, _, exec_slax h0 h1, Word.sign_ofBytes _ _, Word.sign_ofBytes _ _, fun i hi h10 => ?_⟩,
    ⟨_, _, exec_srax h0 h1, Word.sign_ofBytes _ _, Word.sign_ofBytes _ _, fun i hi h10 => ?_⟩⟩
  · rw [pairByte_ofBytes _ _ _ hi h10, shiftLeft]
  · rw [pairByte_ofBytes _ _ _ hi h10, shiftRight, Nat.add_comm]

/-- Settles O37: the two rotations by places counted from 0, and SRC's of what SLC leaves. -/
theorem rotatePair : Obligations.RotatePair := by
  intro a s h0 h1
  refine ⟨⟨_, _, exec_slc h0 h1, Word.sign_ofBytes _ _, Word.sign_ofBytes _ _, fun i hi => ?_⟩,
    ⟨_, _, exec_src h0 h1, Word.sign_ofBytes _ _, Word.sign_ofBytes _ _, fun i hi => ?_⟩,
    ⟨_, _, exec_slc h0 h1, exec_src (by rwa [effAddr_setPair_after]) (by rwa [effAddr_setPair_after]), ?_⟩⟩
  · rw [pairByte_ofBytes _ _ _ (by omega) (by omega), rotateLeft_succ]
  · rw [pairByte_ofBytes _ _ _ (by omega) (by omega), rotateRight_succ _ _ hi]
  · rw [effAddr_setPair_after]
    refine pair_ext rfl rfl fun k hk => ?_
    refine (pairByte_ofBytes _ _ _ (by omega) (by omega)).trans ?_
    exact rotateRight_rotateLeft _ _ _ (fun i hi => pairByte_ofBytes _ _ _ (by omega) (by omega)) hk

/-- Settles O38: both numbers fit 60 bits, and the two faults come before the rule's writes. -/
theorem shiftBinary : Obligations.ShiftBinary := by
  intro a s
  refine ⟨fun hx h0 h1 i d hi => ?_, fun hx h1 h0 => ?_, fun hx => ?_⟩
  · obtain ⟨hexec, hlt⟩ : exec i s = .next ((s.setPairMag d).after s i) ∧ d < W * W := by
      simp only [List.mem_cons, Prod.mk.injEq, List.not_mem_nil, or_false] at hi
      obtain ⟨rfl, rfl⟩ | ⟨rfl, rfl⟩ := hi
      · exact ⟨exec_shiftBits h0 h1 (d := fun n => s.pairMag * 2 ^ n % 2 ^ 60) hx rfl,
          Nat.mod_lt _ (by decide)⟩
      · exact ⟨exec_shiftBits h0 h1 (d := fun n => s.pairMag / 2 ^ n) hx rfl,
          (Nat.div_le_self _ _).trans_lt (pairMag_lt s)⟩
    exact ⟨_, _, hexec, Word.sign_ofMag _ _, Word.sign_ofMag _ _, pairMag_setPairMag s hlt⟩
  · simp only [List.forall_mem_cons, List.not_mem_nil, false_implies, implies_true, and_true]
    exact ⟨shiftBits_neg hx h0 h1, shiftBits_neg hx h0 h1⟩
  · simp only [List.forall_mem_cons, List.not_mem_nil, false_implies, implies_true, and_true]
    exact ⟨performExt_off hx, performExt_off hx⟩

/-- Settles O39: a byte shift is a shift of the base-64 number of the bytes. -/
theorem shiftLaws : Obligations.ShiftLaws := by
  intro a s t h0
  refine ⟨fun hm ht => ?_, fun hm ht => ?_, fun hm ht => ?_, fun hm ht => ?_⟩
  · cases (exec_sla h0 (by omega)).symm.trans ht
    exact mag_shiftLeft _ _ (by omega)
  · cases (exec_sra h0 (by omega)).symm.trans ht
    exact mag_shiftRight _ _ (by omega)
  · cases (exec_slax h0 (by omega)).symm.trans ht
    exact pairMag_shiftLeft s (by omega)
  · cases (exec_srax h0 (by omega)).symm.trans ht
    exact pairMag_shiftRight s (by omega)

/-- Settles O40: the six kinds are the two shared operations, and each tests the count before it writes. -/
theorem negativeShift : Obligations.NegativeShift := by
  intro a s h1 h0
  simp only [List.forall_mem_cons, List.not_mem_nil, false_implies, implies_true, and_true]
  exact ⟨shiftA_neg h0 h1, shiftA_neg h0 h1, shiftPair_neg h0 h1, shiftPair_neg h0 h1, shiftPair_neg h0 h1,
    shiftPair_neg h0 h1⟩

end Sys2Proof
end

section
/-! PROOFS of the family 44_compare.md. The eight compares are one shared operation on eight registers, and CI is
`compareValues` of the two fields' values. -/

namespace Sys2Proof

namespace Machine

variable {i : Instr} {s : State} {a : Addr} {f : Field} {r : Word}

/-- The eight compares with the Word each compares (R231 to R238). -/
def compareSources (a : Addr) (f : Field) (s : State) : List (Instr × Word) :=
  [(.cmpa a f, s.rA), (.cmp1 a f, s.rI1.asWord), (.cmp2 a f, s.rI2.asWord), (.cmp3 a f, s.rI3.asWord),
    (.cmp4 a f, s.rI4.asWord), (.cmp5 a f, s.rI5.asWord), (.cmp6 a f, s.rI6.asWord), (.cmpx a f, s.rX)]

/-- Each of the eight is the shared compare of its register. -/
theorem exec_of_mem_compareSources (h : (i, r) ∈ compareSources a f s) :
    i.field? = some f ∧ i.addr = a ∧ exec i s = compare i.code.c f a s r := by
  have all : ∀ p ∈ compareSources a f s,
      p.1.field? = some f ∧ p.1.addr = a ∧ exec p.1 s = compare p.1.code.c f a s p.2 := by
    simp only [compareSources, List.forall_mem_cons, List.not_mem_nil, false_implies, implies_true, and_true]
    and_intros <;> rfl
  exact all _ h

/-- A field without bytes has the value 0, whatever its sign (R32, R35). -/
theorem val_field_zero (w : Word) (h : f.r.val = 0) : (field w f).val = 0 :=
  (Word.val_eq_zero_iff _).mpr (mag_field_zero w f h)

end Machine

open Machine

/-- Settles O41: each of the eight is the shared compare, whose CI is EQUAL for two fields without bytes. -/
theorem compare : Obligations.Compare := by
  intro a f s hf i r hi
  obtain ⟨hfield, rfl, hexec⟩ := exec_of_mem_compareSources hi
  refine ⟨fun hm => ?_, fun hm hl => exec_memBounds_of_field hfield hf hl hm⟩
  refine ⟨_, ?_, compareValues_less_iff _ _, compareValues_equal_iff _ _, compareValues_greater_iff _ _,
    fun h0 => ?_⟩
  · rw [hexec, compare_in hf hm, ← code_of_field hfield]
    exact finish_done_after rfl rfl rfl
  · rw [compareValues_equal_iff, val_field_zero _ h0, val_field_zero _ h0]

end Sys2Proof
end

section
/-! PROOFS of the family 45_jump.md. Every jump ends as a taken `take(M)`, a fault of it, or a default end of the
step; the sign, comparison and parity jumps are one shared operation on a condition. -/

namespace Sys2Proof

/-- A value is even exactly when its magnitude is. -/
theorem Word.val_even_iff (w : Word) : w.val % 2 = 0 ↔ w.mag % 2 = 0 := by
  rw [← w.natAbs_val]
  omega

theorem Word.val_odd_iff (w : Word) : w.val % 2 ≠ 0 ↔ w.mag % 2 = 1 := by
  rw [← w.natAbs_val]
  omega

namespace Machine

variable {i : Instr} {s t : State} {a : Addr} {m : Int} {b : Bool}

-- The end of `take(M)`, in the words of the statements.

/-- A jump taken to a target in memory, from a state whose rule left PC, E and the configuration alone (R250). -/
theorem finish_take_in (hs : InMemory s.pc) (hm : InMemory m) (hpc : t.pc = s.pc) (he : t.elapsed = s.elapsed)
    (hc : t.cfg = s.cfg) : finish i.code s (take m t) = .next (t.afterJump s i m) := by
  rw [take_in hm, finish_ok, returnAddress_eq (by rw [hpc]; exact hs.1), State.commit, State.afterJump, hpc, he, hc]

/-- A jump taken to a target outside memory discards the rule's writes (R250, R463). -/
theorem finish_take_out (hm : ¬ InMemory m) :
    finish i.code s (take m t) = .next (s.stopped i .memBounds (.value m)) := by
  rw [take_out hm, finish_raise_stopped]

-- The shared conditional jump.

section Conditional

variable (hexec : exec i s = jump i.code a s b)
include hexec

theorem exec_jump_taken (hs : InMemory s.pc) (hb : b = true) (hm : InMemory (s.effAddr a)) :
    exec i s = .next (s.afterJump s i (s.effAddr a)) := by
  rw [hexec, jump, perform_of_le (natAbs_le_of_inMemory hm), hb, jumpIf_true]
  exact finish_take_in hs hm rfl rfl rfl

theorem exec_jump_not_taken (hb : b = false) (hl : (s.effAddr a).natAbs ≤ 4095) :
    exec i s = .next (s.after s i) := by
  rw [hexec, jump_not_taken hb hl]
  exact finish_done_after rfl rfl rfl

theorem exec_jump_out (hb : b = true) (hm : ¬ InMemory (s.effAddr a)) (hl : (s.effAddr a).natAbs ≤ 4095) :
    exec i s = .next (s.stopped i .memBounds (.value (s.effAddr a))) := by
  rw [hexec, jump_out hb hm hl]
  rfl

end Conditional

-- Which condition each instruction jumps on.

theorem exec_jmp (a : Addr) (s : State) : exec (.jmp a) s = jump (Instr.jmp a).code a s true := rfl

theorem exec_jsj (hl : (s.effAddr a).natAbs ≤ 4095) :
    exec (.jsj a) s = finish (Instr.jsj a).code s (takeNoSave (s.effAddr a) s) :=
  perform_of_le (rule := fun m _ => takeNoSave m s) hl

theorem exec_jov (hl : (s.effAddr a).natAbs ≤ 4095) :
    exec (.jov a) s = finish (Instr.jov a).code s
      (if s.ov then take (s.effAddr a) { s with ov := false } else done s) :=
  perform_of_le (rule := fun m _ => if s.ov then take m { s with ov := false } else done s) hl

theorem exec_jnov (hl : (s.effAddr a).natAbs ≤ 4095) :
    exec (.jnov a) s = finish (Instr.jnov a).code s
      (if s.ov then done { s with ov := false } else take (s.effAddr a) s) :=
  perform_of_le (rule := fun m _ => if s.ov then done { s with ov := false } else take m s) hl

theorem bne_less_eq (c : Comparison) : (c != .less) = decide (c = .greater ∨ c = .equal) := by
  cases c <;> rfl

theorem bne_equal_eq (c : Comparison) : (c != .equal) = decide (c = .less ∨ c = .greater) := by
  cases c <;> rfl

theorem bne_greater_eq (c : Comparison) : (c != .greater) = decide (c = .less ∨ c = .equal) := by
  cases c <;> rfl

/-- The six comparison jumps with the values of CI each names (R255 to R260). -/
def comparisonConditions (a : Addr) (s : State) : List (Instr × Bool) :=
  [(.jl a, decide (s.ci = .less)), (.je a, decide (s.ci = .equal)), (.jg a, decide (s.ci = .greater)),
    (.jge a, decide (s.ci = .greater ∨ s.ci = .equal)), (.jne a, decide (s.ci = .less ∨ s.ci = .greater)),
    (.jle a, decide (s.ci = .less ∨ s.ci = .equal))]

/-- The meanings of JGE, JNE and JLE test for the one value of CI that the statement leaves out. -/
theorem exec_of_mem_comparisonConditions (h : (i, b) ∈ comparisonConditions a s) : exec i s = jump i.code a s b := by
  have all : ∀ p ∈ comparisonConditions a s, exec p.1 s = jump p.1.code a s p.2 := by
    simp only [comparisonConditions, List.forall_mem_cons, List.not_mem_nil, false_implies, implies_true, and_true,
      ← bne_less_eq, ← bne_equal_eq, ← bne_greater_eq]
    and_intros <;> rfl
  exact all _ h

/-- The condition of R265 as the meanings compute it. -/
def SignTest.test (v : Int) : SignTest → Bool
  | .n => isNegative v
  | .z => isZero v
  | .p => isPositive v
  | .nn => isNonnegative v
  | .nz => isNonzero v
  | .np => isNonpositive v

theorem SignTest.test_iff (q : SignTest) (v : Int) : q.test v = true ↔ q.holds v := by
  cases q <;> exact decide_eq_true_iff

theorem exec_registerJump (r : TestedRegister) (q : SignTest) (a : Addr) (s : State) :
    exec (registerJump r q a) s = jump (registerJump r q a).code a s (q.test (r.value s)) := by
  cases r with
  | a => cases q <;> rfl
  | x => cases q <;> rfl
  | index k => cases k <;> cases q <;> rfl

/-- The four parity jumps with the parity each names (R318 to R321). -/
def parityConditions (a : Addr) (s : State) : List (Instr × Bool) :=
  [(.jae a, decide (s.rA.val % 2 = 0)), (.jao a, decide (s.rA.val % 2 ≠ 0)),
    (.jxe a, decide (s.rX.val % 2 = 0)), (.jxo a, decide (s.rX.val % 2 ≠ 0))]

theorem exec_of_mem_parityConditions (h : (i, b) ∈ parityConditions a s) :
    exec i s = performExt i.code a s fun m => jumpIf b m s := by
  have all : ∀ p ∈ parityConditions a s, exec p.1 s = performExt p.1.code a s fun m => jumpIf p.2 m s := by
    simp only [parityConditions, List.forall_mem_cons, List.not_mem_nil, false_implies, implies_true, and_true,
      Word.val_even_iff, Word.val_odd_iff]
    and_intros <;> rfl
  exact all _ h

-- The self-loop test.

/-- The test of R261 reads the instruction that the fetch hands over. -/
theorem atSelfLoop_iff :
    s.atSelfLoop = true ↔ s.es = .running ∧ ∃ a : Addr, s.fetch = .ok (.jmp a) ∧ s.effAddr a = s.pc := by
  unfold State.atSelfLoop
  split
  case isTrue hr =>
    split
    case h_1 a hf => simp [hr, hf]
    case h_2 hne =>
      simp only [Bool.false_eq_true, false_iff]
      rintro ⟨-, a, hf, -⟩
      exact hne a hf
  case isFalse hr => simp [hr]

theorem stepSelfLoop_eq_none_iff : stepSelfLoop s = none ↔ s.atSelfLoop = true := by
  simp [stepSelfLoop]

theorem stepSelfLoop_eq_step (h : stepSelfLoop s ≠ none) : stepSelfLoop s = some (step s) :=
  if_neg fun hl => h (stepSelfLoop_eq_none_iff.mpr hl)

/-- The run tests for the self-loop before it looks at its budget (R517). -/
theorem runToSelfLoop_of_atSelfLoop (h : s.atSelfLoop = true) (n : Nat) :
    runToSelfLoop n s = some (.selfLoop, s) := by
  obtain ⟨hr, -⟩ := atSelfLoop_iff.mp h
  unfold runToSelfLoop
  simp only [hr, h, if_true]

end Machine

open Machine

/-- Settles O14: the stop is the self-loop test of the fetched instruction, and the step is JMP's. -/
theorem selfLoopStop : Obligations.SelfLoopStop := by
  intro s
  refine ⟨?_, fun h n => ?_, stepSelfLoop_eq_step, fun a hr hs hd ha => ?_⟩
  · simp only [stepSelfLoop_eq_none_iff, atSelfLoop_iff, fetch_ok_iff, and_assoc, exists_and_left]
  · exact runToSelfLoop_of_atSelfLoop (stepSelfLoop_eq_none_iff.mp h) n
  · rw [step_ok hr (fetch_ok_iff.mpr ⟨hs, hd⟩), exec_jump_taken (exec_jmp a s) hs rfl (by rwa [ha]), ha]

/-- Settles O42: JMP is the shared jump on true, and JSJ the same without the write of rJ. -/
theorem unconditionalJumps : Obligations.UnconditionalJumps := by
  intro a s hs
  refine ⟨fun hm => ⟨exec_jump_taken (exec_jmp a s) hs rfl hm, ?_⟩, fun hm hl => ?_⟩
  · rw [exec_jsj (natAbs_le_of_inMemory hm), takeNoSave_in hm]
    rfl
  · simp only [List.forall_mem_cons, List.not_mem_nil, false_implies, implies_true, and_true]
    refine ⟨exec_jump_out (exec_jmp a s) rfl hm hl, ?_⟩
    rw [exec_jsj hl, takeNoSave_out hm, finish_raise_stopped]

/-- Settles O43: the write of OV is part of the rule, which the fault of a taken jump discards. -/
theorem overflowJumps : Obligations.OverflowJumps := by
  intro a s hs
  refine ⟨fun hov hm => ?_, fun hov hl => ?_, fun hov hm => ?_, fun hov hl => ?_, fun i taken hi ht hm hl => ?_⟩
  · rw [exec_jov (natAbs_le_of_inMemory hm), hov]
    exact finish_take_in hs hm rfl rfl rfl
  · rw [exec_jov hl, hov]
    exact finish_done_after rfl rfl rfl
  · rw [exec_jnov (natAbs_le_of_inMemory hm), hov]
    exact finish_take_in hs hm rfl rfl rfl
  · rw [exec_jnov hl, hov]
    exact finish_done_after rfl rfl rfl
  · simp only [List.mem_cons, Prod.mk.injEq, List.not_mem_nil, or_false] at hi
    obtain ⟨rfl, rfl⟩ | ⟨rfl, rfl⟩ := hi
    · rw [exec_jov hl, ht]
      exact finish_take_out hm
    · have hov : s.ov = false := by simpa using ht
      rw [exec_jnov hl, hov]
      exact finish_take_out hm

/-- Settles O44: each of the six is the shared jump on its values of CI. -/
theorem comparisonJumps : Obligations.ComparisonJumps := by
  intro a s hs i taken hi
  have hexec : exec i s = jump i.code a s taken := exec_of_mem_comparisonConditions hi
  exact ⟨exec_jump_taken hexec hs, exec_jump_not_taken hexec, exec_jump_out hexec⟩

/-- Settles O45: the 48 sign jumps are the shared jump on their test, and so, under EXT_BINARY_OPS, are the parity
jumps. -/
theorem registerJumps : Obligations.RegisterJumps := by
  intro a s hs
  refine ⟨fun r q => ?_, fun i taken hi => ?_⟩
  · have hexec := exec_registerJump r q a s
    rw [← q.test_iff, Bool.not_eq_true]
    exact ⟨exec_jump_taken hexec hs, exec_jump_not_taken hexec, exec_jump_out hexec⟩
  · have hexec := exec_of_mem_parityConditions hi
    have exec_on (hx : s.cfg.extBinaryOps = true) : exec i s = jump i.code a s taken := by
      rw [hexec, performExt_on hx]
      rfl
    refine ⟨fun hx => exec_jump_taken (exec_on hx) hs, fun hx => exec_jump_not_taken (exec_on hx),
      fun hx => exec_jump_out (exec_on hx), fun hx => ?_⟩
    rw [hexec, performExt_off hx]
    rfl

end Sys2Proof
end

section
/-! PROOFS of the family 46_address_transfer.md: INC and DEC of an index register, ENT and ENN. Each instruction is
`perform` of one rule in M and sM; what it writes is an integer made a Word or a Register2, for ENN with the sign
inverted. -/

namespace Sys2Proof

/-- The sign inverted, bytes kept, as `negated` does for a Word (R141). -/
def Register2.negated (r : Register2) : Register2 := { r with sign := r.sign.neg }

theorem Register2.val_negated (r : Register2) : r.negated.val = -r.val := Machine.Sign.apply_neg r.sign _

@[simp] theorem sign_reg2_zero (g : Sign) : (reg2 0 g).sign = g := rfl

namespace Machine

variable {s : State} {a : Addr}

theorem val_negated (w : Word) : (negated w).val = -w.val := Sign.apply_neg w.sign _

-- INC and DEC of an index register.

theorem exec_increaseIndex (k : IxReg) (a : Addr) (s : State) :
    exec (increaseIndex k a) s = perform (increaseIndex k a).code a s fun m _ =>
      putIndexValue k s ((s.index k).val + m) (s.index k).sign := by
  cases k <;> rfl

theorem exec_decreaseIndex (k : IxReg) (a : Addr) (s : State) :
    exec (decreaseIndex k a) s = perform (decreaseIndex k a).code a s fun m _ =>
      putIndexValue k s ((s.index k).val - m) (s.index k).sign := by
  cases k <;> rfl

theorem finish_setIndex (i : Instr) (s : State) (k : IxReg) (r : Register2) :
    finish i.code s (done (s.setIndex k r)) = .next ((s.setIndex k r).after s i) :=
  finish_done_after (s.setIndex_pc k r) (s.setIndex_elapsed k r) (s.setIndex_cfg k r)

/-- A value of magnitude at most 4095 is written to rI[k], and a larger one is IndexOverflow (R332). -/
theorem finish_putIndexValue (i : Instr) (s : State) (k : IxReg) (t : Int) (g : Sign) :
    (t.natAbs ≤ 4095 → ∃ r : Register2, r.val = t ∧ (t = 0 → r.sign = g) ∧
      finish i.code s (putIndexValue k s t g) = .next ((s.setIndex k r).after s i)) ∧
    (4095 < t.natAbs →
      finish i.code s (putIndexValue k s t g) = .next (s.stopped i .indexOverflow (.value t))) := by
  constructor
  · intro h
    refine ⟨reg2 t g, val_reg2 h g, fun h0 => by rw [h0, sign_reg2_zero], ?_⟩
    rw [putIndexValue_fit h, finish_setIndex]
  · intro h
    rw [putIndexValue_big h, finish_raise_stopped]

-- ENT and ENN.

section Entered

variable (hl : (s.effAddr a).natAbs ≤ 4095)
include hl

theorem exec_enta : exec (.enta a) s =
    .next (State.after { s with rA := toWord (s.effAddr a) a.sign } s (.enta a)) :=
  (perform_of_le hl (rule := fun m sm => putA s (Word.ofMag sm m.natAbs))).trans (finish_putA (.enta a) s _)

theorem exec_entx : exec (.entx a) s =
    .next (State.after { s with rX := toWord (s.effAddr a) a.sign } s (.entx a)) :=
  (perform_of_le hl (rule := fun m sm => putX s (Word.ofMag sm m.natAbs))).trans (finish_putX (.entx a) s _)

theorem exec_enna : exec (.enna a) s =
    .next (State.after { s with rA := negated (toWord (s.effAddr a) a.sign) } s (.enna a)) :=
  (perform_of_le hl (rule := fun m sm => putA s (Word.ofMag sm.neg m.natAbs))).trans (finish_putA (.enna a) s _)

theorem exec_ennx : exec (.ennx a) s =
    .next (State.after { s with rX := negated (toWord (s.effAddr a) a.sign) } s (.ennx a)) :=
  (perform_of_le hl (rule := fun m sm => putX s (Word.ofMag sm.neg m.natAbs))).trans (finish_putX (.ennx a) s _)

theorem exec_enterIndex (k : IxReg) : exec (enterIndex k a) s =
    .next ((s.setIndex k (reg2 (s.effAddr a) a.sign)).after s (enterIndex k a)) := by
  rw [← finish_setIndex]
  cases k <;> exact perform_of_le hl (rule := fun m sm => done (s.setIndex _ (Register2.ofMag sm m.natAbs)))

theorem exec_enterIndexNegated (k : IxReg) : exec (enterIndexNegated k a) s =
    .next ((s.setIndex k (reg2 (s.effAddr a) a.sign).negated).after s (enterIndexNegated k a)) := by
  rw [← finish_setIndex]
  cases k <;> exact perform_of_le hl (rule := fun m sm => done (s.setIndex _ (Register2.ofMag sm.neg m.natAbs)))

end Entered

end Machine

open Machine

/-- Settles O46: the twelve instructions put rI[k] + M or rI[k] − M, with the old sign for a zero. -/
theorem increaseIndex : Obligations.IncreaseIndex := by
  intro k a s hl i t hi
  have hexec : exec i s = finish i.code s (putIndexValue k s t (s.index k).sign) := by
    simp only [List.mem_cons, Prod.mk.injEq, List.not_mem_nil, or_false] at hi
    obtain ⟨rfl, rfl⟩ | ⟨rfl, rfl⟩ := hi
    · rw [exec_increaseIndex, perform_of_le hl]
    · rw [exec_decreaseIndex, perform_of_le hl]
  rw [hexec]
  exact finish_putIndexValue ..

/-- Settles O47: ENT writes M with sM, which for M = 0 is the sign of the instruction word, and ENN the same with the
sign inverted. -/
theorem enterRegister : Obligations.EnterRegister := by
  intro a s hl
  have hword : (toWord (s.effAddr a) a.sign).val = s.effAddr a := val_toWord (hl.trans_lt (by decide)) _
  have hreg : (reg2 (s.effAddr a) a.sign).val = s.effAddr a := val_reg2 hl _
  have hzero (h0 : s.effAddr a = 0) : sgnof (s.effAddr a) a.sign = a.sign := by rw [h0, sgnof_zero]
  refine ⟨⟨_, hword, hzero, exec_enta hl, exec_entx hl⟩,
    ⟨_, ?_, fun h0 => congrArg Sign.neg (hzero h0), exec_enna hl, exec_ennx hl⟩,
    fun k => ⟨⟨_, hreg, hzero, exec_enterIndex hl k⟩,
      ⟨_, ?_, fun h0 => congrArg Sign.neg (hzero h0), exec_enterIndexNegated hl k⟩⟩⟩
  · rw [val_negated, hword]
  · rw [Register2.val_negated, hreg]

end Sys2Proof
end

section
/-! PROOFS of the family 47_io.md: the unit an instruction writes, the jumps on a unit's readiness, and the transfers
and control operations. Each of the five I/O instructions is brought once to the end of its rule at the start the
statements give it; the obligations read that end. -/

namespace Sys2Proof

namespace Machine

variable {i : Instr} {s t v : State} {a : Addr} {u : Byte} {n : Unit21} {pc m : Int} {e0 base : Nat}

-- The unit an instruction writes.

/-- The writes of an instruction leave every unit alone, or give the one unit that an I/O instruction names a new
device state: OUT alone writes its buffer (R387), and JBUS and JRED write READY alone (R383). -/
theorem Writes.dev_cases (h : Writes i s v pc) :
    v.dev = s.dev ∨ ∃ (n : Unit21) (d : Device), v.dev = s.dev.set n d ∧ n.val = i.code.f.val ∧
      (34 ≤ i.code.c.val ∧ i.code.c.val ≤ 38) ∧ (i.code.c.val ≠ 37 → d.buf = s.dev[n].buf) ∧
      (¬ (35 ≤ i.code.c.val ∧ i.code.c.val ≤ 37) → d = { s.dev[n] with status := .ready }) := by
  cases h with
  | poll n hn | jumpPoll n hn => exact .inr ⟨n, _, rfl, hn, by omega, fun _ => rfl, fun _ => rfl⟩
  | input n hn => exact .inr ⟨n, _, rfl, hn, by omega, fun _ => rfl, fun _ => by omega⟩
  | output n hn => exact .inr ⟨n, _, rfl, hn, by omega, fun _ => by omega, fun _ => by omega⟩
  | control n hn _ _ d hbuf => exact .inr ⟨n, d, rfl, hn, by omega, fun _ => hbuf, fun _ => by omega⟩
  | index k r => exact .inl (State.setIndex_dev s k r)
  | _ => exact .inl rfl

/-- The same of one unit over a whole instruction, whose fault and commit touch no unit. -/
theorem exec_dev_cases (h : exec i s = .next t) (w : Unit21) :
    t.dev[w] = s.dev[w] ∨ i.code.f.val = w.val ∧ (34 ≤ i.code.c.val ∧ i.code.c.val ≤ 38) ∧
      (i.code.c.val ≠ 37 → t.dev[w].buf = s.dev[w].buf) ∧
      (¬ (35 ≤ i.code.c.val ∧ i.code.c.val ≤ 37) → t.dev[w] = { s.dev[w] with status := .ready }) := by
  obtain ⟨e, rfl⟩ | ⟨v, pc, hw, rfl⟩ := exec_next h
  · exact .inl rfl
  rw [State.commit_dev]
  obtain hdev | ⟨n, d, hdev, hn, hc, hbuf, hpoll⟩ := hw.dev_cases <;> rw [hdev]
  · exact .inl rfl
  by_cases hwn : w = n
  · subst hwn
    have hset : (s.dev.set w d)[w] = d := State.dev_setDev_same s w d
    rw [hset]
    exact .inr ⟨hn.symm, hc, hbuf, hpoll⟩
  · exact .inl (State.dev_setDev_ne s d hwn)

-- JBUS and JRED.

/-- A unit number past the roster ends JBUS and JRED before they ask for its readiness (R380). -/
theorem exec_busyJump_deviceBounds (hl : (s.effAddr a).natAbs ≤ 4095) (hu : 20 < u.val)
    (hi : i ∈ [Instr.jbus a u, .jred a u]) : exec i s = .next (s.stopped i .deviceBounds (.value u.val)) := by
  simp only [List.mem_cons, List.not_mem_nil, or_false] at hi
  obtain rfl | rfl := hi
  all_goals
    dsimp only [exec, execJbus, execJred]
    rw [perform_of_le hl, withUnit_ge hu]
    rfl

theorem exec_jbus_le (hn : n.val = u.val) (hl : (s.effAddr a).natAbs ≤ 4095) :
    exec (.jbus a u) s = finish (Instr.jbus a u).code s
      (if s.dev[n].isReady s.elapsed then done (s.setDev n (s.dev[n].poll s.elapsed))
        else take (s.effAddr a) s) := by
  dsimp only [exec, execJbus]
  rw [perform_of_le hl, withUnit_lt hn]
  rfl

theorem exec_jred_le (hn : n.val = u.val) (hl : (s.effAddr a).natAbs ≤ 4095) :
    exec (.jred a u) s = finish (Instr.jred a u).code s
      (if s.dev[n].isReady s.elapsed then take (s.effAddr a) (s.setDev n (s.dev[n].poll s.elapsed))
        else done s) := by
  dsimp only [exec, execJred]
  rw [perform_of_le hl, withUnit_lt hn]
  rfl

-- IN, OUT and IOC.

@[simp] theorem State.unit_startAt (s : State) (n v : Unit21) (e0 : Nat) : (s.startAt n e0).unit v = s.unit v := rfl

/-- The checks of a transfer, from readiness on, when all of them pass: it runs at its start and its block (R384,
R390). -/
theorem withReady_withBlock {k : State → Nat → Rule} (hs : StartsAt s n e0) (h0 : 0 ≤ m)
    (h1 : m + (s.unit n).block ≤ 4000) (hb : BlockAt s n base) :
    (withReady s n fun t => withBlock t n m (k t)) = k (s.startAt n e0) base := by
  have hblock : m + ((s.startAt n e0).unit n).block - 1 ≤ 3999 := by
    rw [State.unit_startAt]
    omega
  rw [withReady_start hs, withBlock_in h0 hblock (startAt_blockAt.mpr hb)]

section Transfer

variable (hn : n.val = u.val) (hs : StartsAt s n e0) (h0 : 0 ≤ s.effAddr a)
  (h1 : s.effAddr a + (s.unit n).block ≤ 4000) (hb : BlockAt s n base)
include hn hs h0 h1 hb

theorem exec_ioIn_completes (hin : (s.unit n).canIn = true) :
    exec (.ioIn a u) s = finish (Instr.ioIn a u).code s
      (done (inputBlock (s.startAt n e0) n (Instr.ioIn a u).code (s.effAddr a) base)) := by
  dsimp only [exec, execIoIn]
  rw [perform_of_le (by omega), withUnit_lt hn, if_pos hin, withReady_withBlock hs h0 h1 hb]
  rfl

theorem exec_ioOut_completes (hout : (s.unit n).canOut = true) :
    exec (.ioOut a u) s = finish (Instr.ioOut a u).code s
      (done (outputBlock (s.startAt n e0) n (Instr.ioOut a u).code (s.effAddr a) base)) := by
  dsimp only [exec, execIoOut]
  rw [perform_of_le (by omega), withUnit_lt hn, if_pos hout, withReady_withBlock hs h0 h1 hb]
  rfl

end Transfer

/-- A defined control operation whose new cursor CAP allows passes the checks of IOC (R384, R388). -/
theorem exec_ioc_completes (hn : n.val = u.val) (hl : (s.effAddr a).natAbs ≤ 4095)
    (hd : ControlDefined (s.unit n).kind (s.effAddr a)) (hs : StartsAt s n e0)
    (hcap : ControlForward (s.unit n).kind (s.effAddr a) → iocCursor s n (s.effAddr a) ≤ (s.unit n).cap) :
    exec (.ioc a u) s = finish (Instr.ioc a u).code s
      (done (control (s.startAt n e0) n (Instr.ioc a u).code (s.effAddr a))) := by
  have hpast : ¬ (iocForward ((s.startAt n e0).unit n).kind (s.effAddr a) = true ∧
      ((s.startAt n e0).unit n).cap < iocCursor (s.startAt n e0) n (s.effAddr a)) := by
    rw [iocCursor_startAt, iocForward_iff, State.unit_startAt]
    exact fun ⟨hf, hlt⟩ => absurd (hcap hf) (not_le.mpr hlt)
  dsimp only [exec, execIoc]
  rw [perform_of_le hl, withUnit_lt hn, if_pos ((iocDefined_iff _ _).mpr hd), withReady_start hs, if_neg hpast]
  rfl

end Machine

open Machine

/-- Settles O26: a unit is as before, or it is the one that an I/O instruction names. -/
theorem deviceFrame : Obligations.DeviceFrame := by
  intro i s t h u
  obtain hdev | ⟨hu, hc, hbuf, hpoll⟩ := exec_dev_cases h u
  · rw [hdev]
    exact ⟨fun _ => rfl, fun _ => rfl, fun _ => ⟨rfl, rfl, .inl rfl⟩⟩
  · refine ⟨fun hother => absurd ⟨hc.1, hc.2, hu⟩ hother, hbuf, fun hio => ?_⟩
    rw [hpoll hio]
    exact ⟨rfl, rfl, .inr rfl⟩

/-- Settles O48: each jump ends, by the unit's readiness at E0, in the default end or in `take(M)`, whose fault
discards the status write. -/
theorem busyJumps : Obligations.BusyJumps := by
  intro a u s hpc
  refine ⟨fun hu hl i hi => exec_busyJump_deviceBounds hl hu hi, fun n hn => ?_⟩
  simp only [readyAt_iff]
  refine ⟨fun hr hl => ?_, fun hr hm => ?_, fun hr hm => ?_, fun hr hl => ?_,
    fun hm hl => ⟨fun hr => ?_, fun hr => ?_⟩⟩
  · rw [exec_jbus_le hn hl, if_pos hr, Device.poll_ready hr]
    exact finish_done_after rfl rfl rfl
  · rw [exec_jred_le hn (natAbs_le_of_inMemory hm), if_pos hr, Device.poll_ready hr]
    exact finish_take_in hpc hm rfl rfl rfl
  · rw [exec_jbus_le hn (natAbs_le_of_inMemory hm), if_neg hr]
    exact finish_take_in hpc hm rfl rfl rfl
  · rw [exec_jred_le hn hl, if_neg hr]
    exact finish_done_after rfl rfl rfl
  · rw [exec_jred_le hn hl, if_pos hr]
    exact finish_take_out hm
  · rw [exec_jbus_le hn hl, if_neg hr]
    exact finish_take_out hm

/-- Settles O49: memory after IN is the block copy from the unit's buffer. -/
theorem inputBlock : Obligations.InputBlock := by
  intro a u s n e0 base hn hin hs h0 h1 hb hmem
  have hfit : (s.effAddr a).toNat + (s.unit n).block ≤ memSize := by
    simp only [memSize]
    omega
  refine ⟨Memory.copy s.dev[n].buf base s.mem (s.effAddr a).toNat (s.unit n).block, ?_,
    Memory.copy_wf hmem hfit, fun j hj => ?_, fun x hx => ?_⟩
  · rw [exec_ioIn_completes hn hs h0 h1 hb hin, inputBlock_startAt]
    rfl
  · rw [Memory.read_copy hmem hfit, if_pos (by omega), Nat.add_sub_cancel_left]
  · rw [Memory.read_copy hmem hfit, if_neg (by omega)]

/-- Settles O50: the unit's buffer after OUT is the block copy from memory. -/
theorem outputBlock : Obligations.OutputBlock := by
  intro a u s n e0 base hn hout hs h0 h1 hb hbuf
  refine ⟨Memory.copy s.mem (s.effAddr a).toNat s.dev[n].buf base (s.unit n).block, ?_,
    Memory.copy_wf hbuf hb.le, fun j hj => ?_, fun x hx => ?_⟩
  · rw [exec_ioOut_completes hn hs h0 h1 hb hout, outputBlock_startAt]
    rfl
  · rw [Memory.read_copy hbuf hb.le, if_pos (by omega), Nat.add_sub_cancel_left]
  · rw [Memory.read_copy hbuf hb.le, if_neg (by omega)]

/-- Settles O51: the new cursor is the one R388 names, and the unit's status and deadline follow IOC_SETS_BUSY. -/
theorem controlOperation : Obligations.ControlOperation := by
  intro a u s n e0 c hn hl hd hs hc hcap
  obtain rfl : iocCursor s n (s.effAddr a) = c := iocCursor_eq hc
  rw [exec_ioc_completes hn hl hd hs hcap, control_startAt]
  rfl

end Sys2Proof
end

section
/-! PROOFS of the family 48_control.md: NOP and HLT. Past the address check each is the commit of a rule that no
operand reaches. -/

namespace Sys2Proof

namespace Machine

variable {s : State} {a : Addr}

/-- NOP writes nothing, so it ends by PC + 1 and its cost (R430). -/
theorem exec_nop_le (f : Byte) (hl : (s.effAddr a).natAbs ≤ 4095) :
    exec (.nop a f) s = .next (s.after s (.nop a f)) :=
  (perform_of_le hl (rule := fun _ _ => done s)).trans (finish_done_after (i := .nop a f) rfl rfl rfl)

/-- HLT writes ES alone and commits with nextPC = PC (R431). -/
theorem exec_hlt_le (hl : (s.effAddr a).natAbs ≤ 4095) :
    exec (.hlt a) s = .next (State.commit { s with es := .halted } (Instr.hlt a).code s.pc) :=
  perform_of_le hl (rule := fun _ _ => .ok ({ s with es := .halted }, s.pc))

end Machine

open Machine

/-- Settles O53: NOP is the default end of an empty rule; HLT's commit puts back the PC and adds its cost. -/
theorem noOperationAndHalt : Obligations.NoOperationAndHalt := by
  intro a b s hl
  refine ⟨exec_nop_le b hl, ?_⟩
  rw [exec_hlt_le hl, State.commit]

end Sys2Proof
end

section
/-! PROOFS of the family 49_special.md: NUM, CHAR and MOVE. -/

namespace Sys2Proof

namespace Machine

variable {s : State} {a : Addr} {b : Byte}

-- NUM and CHAR.

/-- NUM ends with its number in rA and, by the parameter, OV (R440). -/
theorem exec_num (hl : (s.effAddr a).natAbs ≤ 4095) :
    exec (.num a) s = .next ((numWrites s (decimalValue (pairByte s.rA s.rX))).after s (.num a)) := execNum_le hl

/-- The commit of a written pair is its default end (R121). -/
theorem commit_setPair (i : Instr) (s : State) (t : Nat → Byte) :
    (s.setPair t).commit i.code (s.pc + 1) = (s.setPair t).after s i := by
  rw [State.commit, State.after, State.setPair_elapsed, State.setPair_cfg]

/-- What the default end of a written pair leaves in rA, rX and OV. -/
theorem setPair_after_state (i : Instr) (s : State) (t : Nat → Byte) :
    ((s.setPair t).after s i).rA = Word.ofBytes s.rA.sign t ∧
      (((s.setPair t).after s i).rX = Word.ofBytes s.rX.sign fun k => t (k + 5)) ∧
      ((s.setPair t).after s i).ov = s.ov := ⟨rfl, rfl, rfl⟩

/-- CHAR ends with its ten codes in the pair (R441). -/
theorem exec_char (hl : (s.effAddr a).natAbs ≤ 4095) :
    exec (.char a) s = .next ((s.setPair (digitCode s.rA.mag)).after s (.char a)) :=
  (execChar_le hl).trans (congrArg _ (commit_setPair (.char a) s _))

theorem sign_numWrites (s : State) (n : Nat) : (numWrites s n).rA.sign = s.rA.sign := rfl

theorem mag_numWrites (s : State) (n : Nat) : (numWrites s n).rA.mag = n % W :=
  Word.mag_ofMag (Nat.mod_lt _ (by decide))

theorem ov_numWrites (s : State) (n : Nat) :
    (numWrites s n).ov = true ↔ s.ov = true ∨ (s.cfg.numSetsOverflow = true ∧ W ≤ n) := by
  simp only [numWrites, Bool.or_eq_true, Bool.and_eq_true, decide_eq_true_eq]

/-- A code of CHAR is read by NUM as the digit it stands for. -/
theorem digitCode_mod_ten (n i : Nat) : (digitCode n i).val % 10 = n / 10 ^ (10 - i) % 10 := by
  rw [digitCode_val]
  omega

/-- NUM reads back the number whose codes CHAR has written, a number below 10^10. -/
theorem decimalValue_digitCode {n : Nat} (h : n < 10 ^ 10) : decimalValue (digitCode n) = n := by
  rw [decimalValue_eq_sum]
  refine (Finset.sum_congr rfl fun i _ => ?_).trans (decimal_digits h)
  rw [digitCode_mod_ten, show 10 - (i + 1) = 10 - 1 - i by omega]

/-- NUM's sum depends on bytes 1..10 alone. -/
theorem decimalValue_congr {t u : Nat → Byte} (h : ∀ i < 10, t (i + 1) = u (i + 1)) :
    decimalValue t = decimalValue u := by
  rw [decimalValue_eq_sum, decimalValue_eq_sum]
  refine Finset.sum_congr rfl fun i hi => ?_
  rw [h i (Finset.mem_range.1 hi)]

/-- A pair that holds the codes of a number is read by NUM as the number. -/
theorem decimalValue_ofBytes_digitCode (g h : Sign) {n : Nat} (hn : n < 10 ^ 10) :
    decimalValue (pairByte (Word.ofBytes g (digitCode n)) (Word.ofBytes h fun i => digitCode n (i + 5))) = n := by
  rw [decimalValue_congr fun i hi => pairByte_ofBytes _ _ _ (by omega) (by omega), decimalValue_digitCode hn]

/-- rA and OV are as they were when NUM writes rA's own magnitude over a pair with the same signs and OV. -/
theorem numWrites_mag {t : State} (hs : t.rA.sign = s.rA.sign) (ho : t.ov = s.ov) :
    (numWrites t s.rA.mag).rA = s.rA ∧ (numWrites t s.rA.mag).ov = s.ov := by
  have hlt : s.rA.mag < W := s.rA.mag_lt
  refine ⟨Word.ext_mag ((sign_numWrites t _).trans hs) ?_, ?_⟩
  · rw [mag_numWrites, Nat.mod_eq_of_lt hlt]
  · rw [Bool.eq_iff_iff, ov_numWrites, ho, or_iff_left fun h => absurd h.2 (not_le.2 hlt)]

/-- NUM after CHAR: over a pair that holds the codes of rA's magnitude it gives rA back and keeps OV. -/
theorem exec_num_of_digitCodes {t : State} {g : Sign} (hl : (t.effAddr a).natAbs ≤ 4095)
    (hA : t.rA = Word.ofBytes s.rA.sign (digitCode s.rA.mag))
    (hX : t.rX = Word.ofBytes g fun i => digitCode s.rA.mag (i + 5)) (ho : t.ov = s.ov) :
    ∃ v, exec (.num a) t = .next v ∧ v.rA = s.rA ∧ v.ov = s.ov := by
  have hmag : s.rA.mag < 10 ^ 10 := s.rA.mag_lt.trans (by decide)
  have hsign : t.rA.sign = s.rA.sign := by rw [hA, Word.sign_ofBytes]
  have hsum : decimalValue (pairByte t.rA t.rX) = s.rA.mag := by
    rw [hA, hX, decimalValue_ofBytes_digitCode _ _ hmag]
  refine ⟨_, exec_num hl, ?_⟩
  rw [hsum]
  exact numWrites_mag hsign ho

-- MOVE.

/-- MOVE's rule, given M (R442). -/
def moveRule (s : State) (n : Nat) (m : Int) : Rule :=
  if ¬ InMemory m then raise .memBounds m
  else if n = 0 then done s
  else if m + n - 1 > 3999 then raise .memBounds (m + n - 1)
  else if s.rI1.val < 0 ∨ s.rI1.val + n - 1 > 3999 then raise .memBounds s.rI1.val
  else done (moveWrites s m.toNat s.rI1.val.toNat n)

theorem exec_move (hl : (s.effAddr a).natAbs ≤ 4095) :
    exec (.move a b) s = finish (Instr.move a b).code s (moveRule s b.val (s.effAddr a)) :=
  perform_of_le hl (rule := fun m _ => moveRule s b.val m)

section MoveRule

variable {m : Int} {n : Nat}

theorem moveRule_out (hm : ¬ InMemory m) : moveRule s n m = raise .memBounds m := if_pos hm

theorem moveRule_zero (hm : InMemory m) : moveRule s 0 m = done s := by
  rw [moveRule, if_neg (not_not.2 hm), if_pos rfl]

variable (hm : InMemory m) (hn : 0 < n)
include hm hn

theorem moveRule_source_out (h : 3999 < m + n - 1) : moveRule s n m = raise .memBounds (m + n - 1) := by
  rw [moveRule, if_neg (not_not.2 hm), if_neg hn.ne', if_pos h]

theorem moveRule_target_out (h : m + n - 1 ≤ 3999) (hd : s.rI1.val < 0 ∨ 3999 < s.rI1.val + n - 1) :
    moveRule s n m = raise .memBounds s.rI1.val := by
  rw [moveRule, if_neg (not_not.2 hm), if_neg hn.ne', if_neg (not_lt.2 h), if_pos hd]

theorem moveRule_in (h : m + n - 1 ≤ 3999) (h0 : 0 ≤ s.rI1.val) (h1 : s.rI1.val + n - 1 ≤ 3999) :
    moveRule s n m = done (moveWrites s m.toNat s.rI1.val.toNat n) := by
  rw [moveRule, if_neg (not_not.2 hm), if_neg hn.ne', if_neg (not_lt.2 h), if_neg (by omega)]

end MoveRule

end Machine

/-- The words that MOVE has already moved stand for the rest of the move: word j is the source's word, which is an
earlier moved word when the source meets the destination run (R442, R524). -/
theorem Memory.read_move_overlap {q : Memory} {m d n hi j : Nat} (h : q.wf hi = true) (hd : d + n ≤ hi)
    (hj : j < n) :
    (q.move m d n).read (d + j) =
      if d ≤ m + j ∧ m + j < d + j then (q.move m d n).read (m + j) else q.read (m + j) := by
  rw [Memory.read_move h hd hj]
  split
  · obtain ⟨k, hk⟩ := Nat.exists_eq_add_of_le (‹_ ∧ _›).1
    rw [hk, Memory.read_move h (by omega) (by omega), Memory.read_move h hd (by omega)]
  · exact Memory.read_move_outside h (by omega) (by omega)

theorem Register2.val_ofMag_plus {n : Nat} (h : n ≤ 4095) : (Register2.ofMag .plus n).val = n := by
  rw [Register2.val, Register2.sign_ofMag, Register2.mag_ofMag h]
  rfl

open Machine

/-- Settles O54: both instructions write what their rules name, and NUM's sum over CHAR's codes is the sum of the
decimal digits. -/
theorem decimalConversion : Obligations.DecimalConversion := by
  intro a s hl
  refine ⟨fun n hn => ?_, ?_, ?_⟩
  · rw [← decimalValue_eq_sum] at hn
    subst hn
    exact ⟨_, _, exec_num hl, sign_numWrites s _, mag_numWrites s _, ov_numWrites s _⟩
  · refine ⟨_, _, exec_char hl, Word.sign_ofBytes _ _, Word.sign_ofBytes _ _, fun i hi => ?_⟩
    rw [pairByte_ofBytes _ _ _ (by omega) (by omega), digitCode_val, Nat.succ_sub_succ]
  · have hl' : (((s.setPair (digitCode s.rA.mag)).after s (.char a)).effAddr a).natAbs ≤ 4095 := by
      rwa [effAddr_setPair_after]
    obtain ⟨hA, hX, ho⟩ := setPair_after_state (.char a) s (digitCode s.rA.mag)
    obtain ⟨v, hnum⟩ := exec_num_of_digitCodes hl' hA hX ho
    exact ⟨_, v, exec_char hl, hnum⟩

/-- Settles O55: the four tests come before the copy, which reads and leaves alone what `Memory.read_move_overlap`
and `Memory.read_move_outside` say. -/
theorem move : Obligations.Move := by
  intro a b s hs hl m d i
  have hexec : exec i s = finish i.code s (moveRule s b.val m) := exec_move hl
  rw [hexec]
  refine ⟨fun hm => ?_, fun hm hb => ?_, fun hm hb h => ?_, fun hm hb h hd => ?_, fun hm hb h h0 h1 => ?_⟩
  · rw [moveRule_out hm, finish_raise_stopped]
  · rw [hb, moveRule_zero hm]
    exact finish_done_after rfl rfl rfl
  · rw [moveRule_source_out hm hb h, finish_raise_stopped]
  · rw [moveRule_target_out hm hb h hd, finish_raise_stopped]
  · obtain ⟨hm0, hm1⟩ := id hm
    have hfit : d.toNat + b.val ≤ memSize := by
      simp only [memSize]
      omega
    have hreg : (Register2.ofMag .plus (d.toNat + b.val)).val = d + b.val := by
      rw [Register2.val_ofMag_plus (by omega)]
      omega
    rw [moveRule_in hm hb h h0 h1]
    refine ⟨_, _, finish_done_after (u := moveWrites s m.toNat d.toNat b.val) rfl rfl rfl, Memory.move_wf hs hfit,
      Register2.sign_ofMag _ _, hreg, fun j hj => ?_, fun x hx => ?_⟩
    · rw [Memory.read_move_overlap hs hfit hj]
      exact if_congr (by omega) rfl rfl
    · exact Memory.read_move_outside hs hfit (by omega)

end Sys2Proof
end

section
/-! PROOFS of the family 60_exceptions.md: what a step that faults leaves, that every step answers, and the order of
the faults of IN, OUT and IOC. -/

namespace Sys2Proof

namespace Machine

section Faults

variable {i : Instr} {s t u : State} {pc : Int}

/-- The writes of an instruction leave ES alone or set it HALTED (R431), never FAULTED. -/
theorem Writes.es_ne_faulted (h : Writes i s u pc) (hs : s.es ≠ .faulted) : u.es ≠ .faulted := by
  obtain he | ⟨he, -⟩ := h.es_eq <;> rw [he]
  · exact hs
  · decide

/-- An instruction that leaves a state FAULTED has taken its fault (R462). -/
theorem takeFault_of_exec_faulted (hs : s.es ≠ .faulted) (h : exec i s = .next t) (ht : t.es = .faulted) :
    ∃ e, t = s.takeFault (some i.code) e := by
  obtain he | ⟨u, pc, hw, rfl⟩ := exec_next h
  · exact he
  · exact absurd ht (hw.es_ne_faulted hs)

/-- A fault of the fetch names no C and F, and one of the decoding names those of the word at PC (R462). -/
theorem fetch_error_op {e : Option OpCode × Raise} (h : s.fetch = .error e) :
    (¬ InMemory s.pc → e.1 = none) ∧
      (InMemory s.pc → e.1 = some ⟨(s.mem.read s.pc.toNat).b5, (s.mem.read s.pc.toNat).b4⟩) := by
  refine ⟨fun hm => ?_, fun hm => ?_⟩
  · cases (fetch_outside hm).symm.trans h
    rfl
  cases hk : decodeKind s.cfg.extBinaryOps (s.mem.read s.pc.toNat).b5 (s.mem.read s.pc.toNat).b4 with
  | none =>
    cases (fetch_opcode hm (decode_eq_opcode_iff.2 hk)).symm.trans h
    rfl
  | some k =>
    cases hx : decodeIndex (s.mem.read s.pc.toNat).b3 with
    | none =>
      cases (fetch_index hm (decode_eq_index_iff.2 ⟨by simp [hk], hx⟩)).symm.trans h
      rfl
    | some x =>
      cases (fetch_ok_iff.2 ⟨hm, decode_eq_ok_iff.2 ⟨k, x, hk, hx, rfl⟩⟩).symm.trans h

end Faults

section InputOutput

variable {i : Instr} {s : State} {a : Addr} {u : Byte} {n : Unit21} {m : Int} {e0 : Nat}

-- The rules of IN, OUT and IOC on a unit of the roster.

theorem exec_ioIn_le (hn : n.val = u.val) (hl : (s.effAddr a).natAbs ≤ 4095) :
    exec (.ioIn a u) s = finish (Instr.ioIn a u).code s
      (if (s.unit n).canIn then withReady s n fun t => withBlock t n (s.effAddr a) fun base =>
        done (Machine.inputBlock t n (Instr.ioIn a u).code (s.effAddr a) base)
      else raise .deviceMisuse u.val) := by
  dsimp only [exec, execIoIn]
  rw [perform_of_le hl, withUnit_lt hn]
  rfl

theorem exec_ioOut_le (hn : n.val = u.val) (hl : (s.effAddr a).natAbs ≤ 4095) :
    exec (.ioOut a u) s = finish (Instr.ioOut a u).code s
      (if (s.unit n).canOut then withReady s n fun t => withBlock t n (s.effAddr a) fun base =>
        done (Machine.outputBlock t n (Instr.ioOut a u).code (s.effAddr a) base)
      else raise .deviceMisuse u.val) := by
  dsimp only [exec, execIoOut]
  rw [perform_of_le hl, withUnit_lt hn]
  rfl

theorem exec_ioc_le (hn : n.val = u.val) (hl : (s.effAddr a).natAbs ≤ 4095) :
    exec (.ioc a u) s = finish (Instr.ioc a u).code s
      (if iocDefined (s.unit n).kind (s.effAddr a) then withReady s n fun t =>
        if iocForward (t.unit n).kind (s.effAddr a) ∧ (t.unit n).cap < iocCursor t n (s.effAddr a) then
          raise .deviceRange u.val
        else done (control t n (Instr.ioc a u).code (s.effAddr a))
      else raise .deviceMisuse u.val) := by
  dsimp only [exec, execIoc]
  rw [perform_of_le hl, withUnit_lt hn]
  rfl

/-- A unit number past the roster ends IN, OUT and IOC before every other check of theirs (R380). -/
theorem exec_io_deviceBounds (hl : (s.effAddr a).natAbs ≤ 4095) (hu : 20 < u.val)
    (hi : i ∈ [Instr.ioIn a u, .ioOut a u, .ioc a u]) :
    exec i s = .next (s.stopped i .deviceBounds (.value u.val)) := by
  simp only [List.mem_cons, List.not_mem_nil, or_false] at hi
  obtain rfl | rfl | rfl := hi
  all_goals
    dsimp only [exec, execIoIn, execIoOut, execIoc]
    rw [perform_of_le hl, withUnit_ge hu]
    rfl

/-- Each of the three tests the direction or the operation first, and the unit's readiness next (R464). -/
theorem exec_io_direction {allowed : Prop} (hn : n.val = u.val) (hl : (s.effAddr a).natAbs ≤ 4095)
    (hi : (i = .ioIn a u ∧ (allowed ↔ (s.unit n).canIn = true)) ∨
      (i = .ioOut a u ∧ (allowed ↔ (s.unit n).canOut = true)) ∨
      (i = .ioc a u ∧ (allowed ↔ ControlDefined (s.unit n).kind (s.effAddr a)))) :
    (¬ allowed → exec i s = finish i.code s (raise .deviceMisuse u.val)) ∧
      (allowed → ∃ k, exec i s = finish i.code s (withReady s n k)) := by
  rw [← iocDefined_iff] at hi
  obtain ⟨rfl, hallowed⟩ | ⟨rfl, hallowed⟩ | ⟨rfl, hallowed⟩ := hi <;> rw [hallowed]
  · rw [exec_ioIn_le hn hl]
    exact ⟨fun h => by rw [if_neg h], fun h => ⟨_, by rw [if_pos h]⟩⟩
  · rw [exec_ioOut_le hn hl]
    exact ⟨fun h => by rw [if_neg h], fun h => ⟨_, by rw [if_pos h]⟩⟩
  · rw [exec_ioc_le hn hl]
    exact ⟨fun h => by rw [if_neg h], fun h => ⟨_, by rw [if_pos h]⟩⟩

/-- A transfer in a direction the unit has goes on to readiness and the block (R386, R387). -/
theorem exec_transfer_allowed {allowed : Bool} (hn : n.val = u.val) (hl : (s.effAddr a).natAbs ≤ 4095)
    (hi : (i, allowed) ∈ [(Instr.ioIn a u, (s.unit n).canIn), (.ioOut a u, (s.unit n).canOut)])
    (hallowed : allowed = true) :
    ∃ k : State → Nat → Rule,
      exec i s = finish i.code s (withReady s n fun t => withBlock t n (s.effAddr a) (k t)) := by
  simp only [List.mem_cons, Prod.mk.injEq, List.not_mem_nil, or_false] at hi
  obtain ⟨rfl, rfl⟩ | ⟨rfl, rfl⟩ := hi
  · exact ⟨_, (exec_ioIn_le hn hl).trans (by rw [if_pos hallowed])⟩
  · exact ⟨_, (exec_ioOut_le hn hl).trans (by rw [if_pos hallowed])⟩

-- The checks after the start.

theorem withReady_withBlock_out {k : State → Nat → Rule} (hs : StartsAt s n e0)
    (h : m < 0 ∨ 3999 < m + (s.unit n).block - 1) :
    (withReady s n fun t => withBlock t n m (k t)) = raise .memBounds m := by
  exact (withReady_start hs).trans (withBlock_out h)

theorem withReady_withBlock_none {k : State → Nat → Rule} (hs : StartsAt s n e0) (h0 : 0 ≤ m)
    (h1 : m + (s.unit n).block - 1 ≤ 3999) (hb : ∀ base, ¬ BlockAt s n base) :
    (withReady s n fun t => withBlock t n m (k t)) = raise .deviceRange n.val := by
  exact (withReady_start hs).trans (withBlock_none h0 h1 fun base h => hb base (startAt_blockAt.1 h))

/-- A control operation past CAP is DeviceRange after every other check (R388). -/
theorem exec_ioc_deviceRange (hn : n.val = u.val) (hl : (s.effAddr a).natAbs ≤ 4095) (hs : StartsAt s n e0)
    (hd : ControlDefined (s.unit n).kind (s.effAddr a)) (hf : ControlForward (s.unit n).kind (s.effAddr a))
    (hcap : (s.unit n).cap < iocCursor s n (s.effAddr a)) :
    exec (.ioc a u) s = finish (Instr.ioc a u).code s (raise .deviceRange u.val) := by
  rw [exec_ioc_le hn hl, if_pos ((iocDefined_iff _ _).2 hd), withReady_start hs, if_pos]
  rw [iocCursor_startAt, iocForward_iff, State.unit_startAt]
  exact ⟨hf, hcap⟩

end InputOutput

end Machine

open Machine

/-- Settles O21: a running engine ends a step FAULTED only by taking the fault of the fetch, of the decoding or of
the instruction, and taking a fault writes ES and FR alone. -/
theorem preciseFaults : Obligations.PreciseFaults := by
  intro s t hr h ht
  obtain ⟨hne, -⟩ | ⟨-, i, hf, hexec⟩ | ⟨-, e, hf, rfl⟩ := step_cases h
  · exact absurd hr hne
  · obtain ⟨hm, hd⟩ := fetch_ok_iff.1 hf
    obtain ⟨e, rfl⟩ := takeFault_of_exec_faulted (by simp [hr]) hexec ht
    exact ⟨_, rfl, rfl, fun hout => absurd hm hout, fun _ => congrArg some (decode_ok hd).1⟩
  · exact ⟨_, rfl, rfl, fetch_error_op hf⟩

/-- Settles O17: a stopped engine answers the same state, a fault of the fetch its state, and an instruction by
`exec_isNext`. -/
theorem everyStepAnswers : Obligations.EveryStepAnswers := by
  refine ⟨fun s => ?_, exec_isNext⟩
  by_cases hr : s.es = .running
  · cases hf : s.fetch with
    | ok i => exact step_ok hr hf ▸ exec_isNext i s
    | error e => exact ⟨_, step_error hr hf⟩
  · exact ⟨s, step_stopped hr⟩

/-- Settles O52: each of the three runs through its checks in the order of R464, and the first that fails is its
fault. -/
theorem inputOutputFaults : Obligations.InputOutputFaults := by
  intro a u s hl
  refine ⟨fun hu i hi => exec_io_deviceBounds hl hu hi, fun n hn => ⟨fun i allowed hi => ?_, fun e0 hs => ?_⟩⟩
  · obtain ⟨hwrong, hright⟩ := exec_io_direction hn hl hi
    refine ⟨fun h => ?_, fun h hbusy hp => ?_⟩
    · rw [hwrong h, finish_raise_stopped]
    · obtain ⟨k, hk⟩ := hright h
      rw [hk, withReady_fatal hbusy hp, hn, finish_raise_stopped]
  · refine ⟨fun i allowed hi hallowed => ?_, fun hd hf c hc hcap => ?_⟩
    · obtain ⟨k, hk⟩ := exec_transfer_allowed hn hl hi hallowed
      refine ⟨fun h => ?_, fun h0 h1 hb => ?_⟩
      · rw [hk, withReady_withBlock_out hs h, finish_raise_stopped]
      · rw [hk, withReady_withBlock_none hs h0 h1 hb, hn, finish_raise_stopped]
    · rw [exec_ioc_deviceRange hn hl hs hd hf ((iocCursor_eq hc).symm ▸ hcap), finish_raise_stopped]

end Sys2Proof
end

section
/-! PROOFS of the family 70_reset_and_hazards.md: stopped engines and costs, the host's loads and seeds, and the
launch premises after them. -/

namespace Sys2Proof

namespace Machine

section Elapsed

variable {i : Instr} {s t u : State} {n : Unit21} {pc : Int}

/-- Every kind but IN, OUT and IOC leaves E to the commit, and these three set it to where they start (R384). -/
theorem Writes.elapsed_cases (h : Writes i s u pc) :
    (u.elapsed = s.elapsed ∧ ¬ (35 ≤ i.code.c.val ∧ i.code.c.val ≤ 37)) ∨
      ∃ n : Unit21, n.val = i.code.f.val ∧ (35 ≤ i.code.c.val ∧ i.code.c.val ≤ 37) ∧ StartsAt s n u.elapsed := by
  cases h with
  | input n hn _ _ hs | output n hn _ _ hs | control n hn _ hs => exact .inr ⟨n, hn, by omega, hs⟩
  | index k r hc =>
    refine .inl ⟨s.setIndex_elapsed k r, ?_⟩
    cases k <;> simp only [indexNumber] at hc <;> omega
  | _ => exact .inl ⟨rfl, by omega⟩

theorem Writes.le_elapsed (h : Writes i s u pc) : s.elapsed ≤ u.elapsed := by
  obtain ⟨he, -⟩ | ⟨n, -, -, hs⟩ := h.elapsed_cases
  · exact he.ge
  · exact hs.le

/-- An instruction that waits for no unit starts at E (R384). -/
theorem Writes.elapsed_of_not_waitsFor (h : Writes i s u pc) (hw : ∀ n, ¬ s.WaitsFor i n) :
    u.elapsed = s.elapsed := by
  obtain ⟨he, -⟩ | ⟨n, hn, ⟨h35, h37⟩, ⟨-, he⟩ | ⟨hbusy, hp, -⟩⟩ := h.elapsed_cases
  · exact he
  · exact he
  · exact absurd ⟨h35, h37, hn.symm, hbusy, hp⟩ (hw n)

/-- An instruction that waits starts just past its unit's deadline (R384). -/
theorem Writes.elapsed_of_waitsFor (h : Writes i s u pc) (hw : s.WaitsFor i n) :
    u.elapsed = s.dev[n].deadline + 1 := by
  obtain ⟨h35, h37, hn, hbusy, -⟩ := hw
  obtain ⟨-, hno⟩ | ⟨v, hv, -, hs⟩ := h.elapsed_cases
  · exact absurd ⟨h35, h37⟩ hno
  · obtain rfl : v = n := Fin.ext (hv.trans hn)
    obtain ⟨hready, -⟩ | ⟨-, -, he⟩ := hs
    · exact absurd hready hbusy
    · exact he

end Elapsed

-- Costs.

theorem costOf_congr (cfg : Config) {p q : OpCode} (h : SameCost p q) : costOf cfg p = costOf cfg q := by
  rw [costOf, costOf, costKey_eq_iff.2 h, defaultCost_congr h]

theorem costOf_nil {cfg : Config} (h : cfg.costs = []) (op : OpCode) :
    costOf cfg op = defaultCost op.c.val op.f.val :=
  costOf_default (by simp [h])

/-- The default cost of a kind with a field specification is not that of a floating kind (R530). -/
theorem defaultCost_of_field {f : Field} (h : f.valid = true) :
    defaultCost 1 f.byte.val = 2 ∧ defaultCost 2 f.byte.val = 2 ∧ defaultCost 3 f.byte.val = 10 ∧
      defaultCost 4 f.byte.val = 12 ∧ defaultCost 56 f.byte.val = 2 := by
  have h6 : f.byte.val ≠ 6 := Field.byte_ne_six h
  exact ⟨if_neg h6, if_neg h6, if_neg h6, if_neg h6, if_neg h6⟩

/-- The default cost past MOVE, the compare of rA apart (R530). -/
theorem defaultCost_of_ge {c : Nat} (f : Nat) (h : 8 ≤ c) (h56 : c ≠ 56) :
    defaultCost c f = if 8 ≤ c ∧ c ≤ 33 ∨ 57 ≤ c then 2 else 1 := by
  unfold defaultCost
  split
  case h_10 => rfl
  all_goals omega

theorem costOf_pos {cfg : Config} (h : configOk cfg = true) (op : OpCode) : 1 ≤ costOf cfg op := by
  obtain ⟨r, hr, he⟩ | he := costOf_cases cfg op <;> rw [he]
  · simp only [configOk, Bool.and_eq_true, List.all_eq_true, decide_eq_true_eq] at h
    exact h.2 r hr
  · exact one_le_defaultCost _ _

-- What the host hands over (R39, R514, R515).

theorem address?_in {x : Int} (h : InMemory x) : address? x = some x.toNat := if_pos h

theorem address?_out {x : Int} (h : ¬ InMemory x) : address? x = none := if_neg h

theorem unit?_val (n : Unit21) : unit? n.val = some n := by
  have hn : (0 : Int) ≤ n.val ∧ (n.val : Int) < 21 := by omega
  rw [unit?, dif_pos hn]
  rfl

theorem unit?_out {x : Int} (h : x < 0 ∨ 20 < x) : unit? x = none := dif_neg (by omega)

section Seeding

variable {s : State} {w : RawWord} {v : Word} {n : Unit21} {x : Int}

theorem bufferIndex?_in {j : Nat} (h : j < (s.unit n).cap) : bufferIndex? s n j = some j :=
  if_pos (by omega)

theorem bufferIndex?_out (h : x < 0 ∨ (s.unit n).cap ≤ x) : bufferIndex? s n x = none := if_neg (by omega)

theorem seedMemory_in (hm : InMemory x) (hw : w.check = some v) :
    s.seedMemory x w = some { s with mem := s.mem.write x.toNat v } := by
  simp [State.seedMemory, address?_in hm, hw]

theorem seedMemory_refused (h : ¬ InMemory x ∨ w.check = none) : s.seedMemory x w = none := by
  obtain hm | hw := h
  · simp [State.seedMemory, address?_out hm]
  · simp [State.seedMemory, hw]

theorem seedDevice_in {j : Nat} (hj : j < (s.unit n).cap) (hw : w.check = some v) :
    s.seedDevice n.val j w = some (s.setDev n { s.dev[n] with buf := s.dev[n].buf.write j v }) := by
  simp [State.seedDevice, unit?_val, bufferIndex?_in hj, hw]

theorem seedDevice_refused {y : Int} (h : (y < 0 ∨ 20 < y) ∨ w.check = none) : s.seedDevice y x w = none := by
  obtain hy | hw := h
  · simp [State.seedDevice, unit?_out hy]
  · simp [State.seedDevice, hw]

theorem seedDevice_index_refused (h : x < 0 ∨ (s.unit n).cap ≤ x) : s.seedDevice n.val x w = none := by
  simp [State.seedDevice, unit?_val, bufferIndex?_out h]

end Seeding

-- Images (R511).

section Images

variable {img : List (Int × RawWord)} {q r : Memory}

theorem loadWords_cons_eq_some {x : Int} {w : RawWord} :
    loadWords ((x, w) :: img) q = some r ↔
      ∃ v, InMemory x ∧ w.check = some v ∧ loadWords img (q.write x.toNat v) = some r := by
  by_cases hm : InMemory x
  · simp only [loadWords, address?_in hm, Option.bind_eq_bind, Option.bind_some, Option.bind_eq_some_iff]
    exact exists_congr fun v => (and_iff_right hm).symm
  · simp [loadWords, address?_out hm, hm]

/-- An image is accepted exactly when every address and every byte of it is in range. -/
theorem exists_loadWords_iff :
    (∃ r, loadWords img q = some r) ↔ ∀ p ∈ img, InMemory p.1 ∧ p.2.check ≠ none := by
  induction img generalizing q with
  | nil => simp [loadWords]
  | cons p rest ih =>
    obtain ⟨x, w⟩ := p
    simp only [loadWords_cons_eq_some, List.forall_mem_cons, Option.ne_none_iff_exists']
    simp only [Option.ne_none_iff_exists'] at ih
    constructor
    · rintro ⟨r, v, hm, hw, hr⟩
      exact ⟨⟨hm, v, hw⟩, ih.1 ⟨r, hr⟩⟩
    · rintro ⟨⟨hm, v, hw⟩, hrest⟩
      obtain ⟨r, hr⟩ := ih.2 hrest
      exact ⟨r, v, hm, hw, hr⟩

/-- A word at an address the image does not list is left alone. -/
theorem read_loadWords_other (hq : q.wf memSize = true) (h : loadWords img q = some r) {x : Nat}
    (hx : ∀ p ∈ img, p.1 ≠ x) : r.read x = q.read x := by
  induction img generalizing q with
  | nil => cases h; rfl
  | cons p rest ih =>
    obtain ⟨y, w⟩ := p
    obtain ⟨hy, hrest⟩ := List.forall_mem_cons.1 hx
    obtain ⟨v, ⟨h0, h1⟩, -, hr⟩ := loadWords_cons_eq_some.1 h
    dsimp only at hy
    rw [ih (Memory.write_wf hq (by simp only [memSize]; omega)) hr hrest, Memory.read_write hq, if_neg (by omega)]

/-- A listed address that is listed once holds its word afterwards. -/
theorem read_loadWords_listed (hq : q.wf memSize = true) (h : loadWords img q = some r)
    (hd : (img.map Prod.fst).Nodup) {p : Int × RawWord} (hp : p ∈ img) :
    some (r.read p.1.toNat) = p.2.check := by
  induction img generalizing q with
  | nil => cases hp
  | cons p' rest ih =>
    obtain ⟨y, w⟩ := p'
    obtain ⟨hfresh, hd⟩ := List.nodup_cons.1 hd
    obtain ⟨v, ⟨h0, h1⟩, hw, hr⟩ := loadWords_cons_eq_some.1 h
    have hq' : (q.write y.toNat v).wf memSize = true := Memory.write_wf hq (by simp only [memSize]; omega)
    obtain rfl | hp := List.mem_cons.1 hp
    · have hother : ∀ p ∈ rest, p.1 ≠ (y.toNat : Int) := by
        rw [Int.toNat_of_nonneg h0]
        exact fun p hp he => hfresh (List.mem_map.2 ⟨p, hp, he⟩)
      rw [read_loadWords_other hq' hr hother, Memory.read_write hq, if_pos rfl, hw]
    · exact ih hq' hr hd hp

theorem loadImage_of_loadWords {s : State} (h : loadWords img s.mem = some r) (start : Int) :
    s.loadImage img start = some { s with mem := r, pc := start } := by
  simp [State.loadImage, h]

theorem loadImage_refused {s : State} (h : loadWords img s.mem = none) (start : Int) :
    s.loadImage img start = none := by
  simp [State.loadImage, h]

end Images

-- Launch (R512).

/-- The state after reset meets the launch premises. -/
theorem launch_hostReset (s : State) : s.hostReset.Launch where
  memory := rfl
  jump := rfl
  running := rfl
  devices n := (State.dev_resetOf s.cfg n).symm ▸ deviceOk_reset _

/-- A sequence of host operations keeps the launch premises: each accepted one does, and a refused one changes
nothing. -/
theorem State.Launch.hostOps {s : State} {ops : List HostOp} (hs : s.Launch) (ho : ∀ o ∈ ops, o.keepsJump) :
    (s.hostOps ops).Launch := by
  induction ops generalizing s with
  | nil => exact hs
  | cons o rest ih =>
    obtain ⟨hkeeps, hrest⟩ := List.forall_mem_cons.1 ho
    refine ih ?_ hrest
    cases h : s.hostOp o with
    | none => exact hs
    | some t => exact hs.hostOp hkeeps h

-- Runs of a stopped engine (R516).

theorem runs_halted {s : State} (h : s.es = .halted) (n : Nat) :
    runToHalt n s = some (.halted, s) ∧ runToSelfLoop n s = some (.halted, s) := by
  unfold runToHalt runToSelfLoop
  rw [h]
  exact ⟨rfl, rfl⟩

theorem runs_faulted {s : State} (h : s.es = .faulted) (n : Nat) :
    runToHalt n s = some (.faulted, s) ∧ runToSelfLoop n s = some (.faulted, s) := by
  unfold runToHalt runToSelfLoop
  rw [h]
  exact ⟨rfl, rfl⟩

end Machine

open Machine

/-- Settles O22: a fault keeps E, and the commit adds the cost to the E0 that the writes of the instruction leave. -/
theorem elapsedAccounting : Obligations.ElapsedAccounting := by
  intro i s t hs h
  obtain ⟨e, rfl⟩ | ⟨u, pc, hw, rfl⟩ := exec_next h
  · exact ⟨le_rfl, fun _ => rfl, fun hne => absurd rfl hne⟩
  · rw [State.commit_elapsed, State.commit_es, hw.cfg_eq]
    refine ⟨hw.le_elapsed.trans (Nat.le_add_right _ _), fun hf => absurd hf (hw.es_ne_faulted hs),
      fun _ => ⟨fun hno => ?_, fun n hn => ?_⟩⟩
    · rw [hw.elapsed_of_not_waitsFor hno]
    · rw [hw.elapsed_of_waitsFor hn]

/-- Settles O56: `loadWords` accepts exactly the images in range, and writes what they list. -/
theorem loadImage : Obligations.LoadImage := by
  intro s img start hs
  refine ⟨fun hd hok => ?_, fun ⟨p, hp, hbad⟩ => ?_⟩
  · obtain ⟨r, hr⟩ := exists_loadWords_iff.2 hok
    exact ⟨r, loadImage_of_loadWords hr start, loadWords_wf hs hr, fun p hp => read_loadWords_listed hs hr hd hp,
      fun x hx => read_loadWords_other hs hr hx⟩
  · refine loadImage_refused (Option.eq_none_iff_forall_ne_some.2 fun r hr => ?_) start
    obtain ⟨hm, hw⟩ := exists_loadWords_iff.1 ⟨r, hr⟩ p hp
    exact hbad.elim (absurd hm) hw

/-- Settles O58: a seed that passes its checks is one write of the store, and each failed check refuses it. -/
theorem hostSeeding : Obligations.HostSeeding := by
  intro s w hs
  refine ⟨fun x hm v hw => ?_, fun x h => seedMemory_refused h, fun n j v hj hbuf hw => ?_,
    fun y x h => seedDevice_refused h, fun n x h => seedDevice_index_refused h⟩
  · obtain ⟨h0, h1⟩ := id hm
    refine ⟨_, seedMemory_in hm hw, Memory.write_wf hs (by simp only [memSize]; omega), fun y => ?_⟩
    rw [Memory.read_write hs]
    exact if_congr (by omega) rfl rfl
  · exact ⟨_, seedDevice_in hj hw, fun y => Memory.read_write hbuf j y v⟩

/-- Settles O59: reset gives the launch premises, and the host operations keep them. -/
theorem launchPremises : Obligations.LaunchPremises :=
  fun s _ ho => (launch_hostReset s).hostOps ho

/-- Settles O13: step and both runs test ES first. -/
theorem stoppedEngine : Obligations.StoppedEngine := by
  intro s hs
  exact ⟨step_stopped hs, fun n => ⟨fun h => runs_halted h n, fun h => runs_faulted h n⟩⟩

/-- Settles O23: opcodes of one kind have one key, the search for a row goes by that key, and without rows the table
of R530 decides. -/
theorem defaultCosts : Obligations.DefaultCosts := by
  refine ⟨fun cfg p q h => costOf_congr cfg h, fun cfg op pre rest r h hr hp => costOf_row h hr hp,
    fun cfg op h => ?_, fun cfg h op => costOf_pos h op, fun cfg h a f b hf => ?_⟩
  · rw [costOf_default h, costOf_nil rfl]
  · obtain ⟨hadd, hsub, hmul, hdiv, hcmp⟩ := defaultCost_of_field hf
    simp only [costOf_nil h]
    refine ⟨rfl, hadd, hsub, hmul, hdiv, rfl, rfl, rfl, rfl, rfl, rfl, rfl, rfl, rfl, rfl, rfl, fun i hi => ?_,
      fun i h8 h33 => ?_, fun i h34 h55 => ?_, hcmp, fun i h57 => ?_⟩
    · rw [hi]
      rfl
    · rw [defaultCost_of_ge _ h8 (by omega), if_pos (by omega)]
    · rw [defaultCost_of_ge _ (by omega) (by omega), if_neg (by omega)]
    · rw [defaultCost_of_ge _ (by omega) (by omega), if_pos (by omega)]

end Sys2Proof
end
